-- ==== Sys2Proof/Word.lean ====
section
/-! DEFINITION. The words of OSCEN-CORE: host words, sample words, command words, host addresses. -/

namespace Sys2Proof

/-- One 64-bit word of the host's register space or of OUTBUF (20_memory.md R61). -/
abbrev Word := BitVec 64

/-- The encoding of one value of the sample format W (00_scope.md R10): the binary64 bits, or the
binary32 bits with 32 zero bits above them (log 16). -/
abbrev Sample := BitVec 64

/-- A 32-bit command word (30_encoding.md R80). -/
abbrev CmdWord := BitVec 32

/-- A host word address, 21 bits unsigned (20_memory.md R61). -/
abbrev Addr := BitVec 21

/-- A memory of words: (index, word) pairs, indices strictly rising. What an unlisted index reads as
is said once, in Machine/Mem.lean (20_memory.md R60, R61; log 17). -/
abbrev Mem := List (Nat × Word)

end Sys2Proof
end

