-- ==== Sys2Proof/Config.lean ====
section
/-! DEFINITION. The parameters of an OSCEN-CORE (00_scope.md R6, 10_state.md R40), their defaults, and the free
values the spec leaves open. -/

namespace Sys2Proof

/-- The working floating-point format W (00_scope.md R6, parameter `FMT`). -/
inductive Fmt where
  | binary32
  | binary64
  deriving DecidableEq, Repr

/-- Sawtooth normalisation (00_scope.md R6, parameter `SAW_MODE`). -/
inductive SawMode where
  | centered
  | raw
  deriving DecidableEq, Repr

/-- Which `sinW` and `cosW` the parameters of 00_scope.md R6 choose: the default of that rule (correctly rounded),
or any functions with the properties of R15 and nothing else (log 7). -/
inductive TrigMode where
  | correctlyRounded
  | free
  deriving DecidableEq, Repr

/-- An oscillator's waveform (10_state.md R30, 30_encoding.md R87). -/
inductive Waveform where
  | sine
  | saw
  deriving DecidableEq, Repr

/-- One entry of a group's `sources`: an oscillator and its binary64 gain (10_state.md R40). -/
structure Source where
  osc : Nat
  gain : Word
  deriving DecidableEq, Repr

/-- One group of the graph (10_state.md R40). -/
structure Group where
  sources : List Source
  filter : Option Nat
  env : Option Nat
  outGain : Word
  deriving DecidableEq, Repr

/-- `oscInit[u]` (10_state.md R40): a binary64 frequency and a waveform. -/
structure OscInit where
  freq : Word
  wave : Waveform
  deriving DecidableEq, Repr

/-- `fltInit[u]` (10_state.md R40), binary64 values. -/
structure FltInit where
  cutoff : Word
  q : Word
  deriving DecidableEq, Repr

/-- `envInit[u]` (10_state.md R40), binary64 values and the trigger flag. -/
structure EnvInit where
  attackSec : Word
  decaySec : Word
  sustain : Word
  releaseSec : Word
  triggerOnPrepare : Bool
  deriving DecidableEq, Repr

/-- `dlyInit[u]` (10_state.md R40), binary64 values. -/
structure DlyInit where
  delaySeconds : Word
  feedback : Word
  deriving DecidableEq, Repr

/-- The static graph configuration `GRAPH` (10_state.md R40). -/
structure Graph where
  groups : List Group
  delay : Option Nat
  oscInit : List OscInit
  fltInit : List FltInit
  envInit : List EnvInit
  dlyInit : List DlyInit
  deriving DecidableEq, Repr

/-- The parameters of an OSCEN-CORE (00_scope.md R6). `sinW` and `cosW` are selected by `trig`; `NAN_W` is the free
value `Config.nanDraw`; the unit counts are the lengths of the graph's init lists (log 10). -/
structure Params where
  fmt : Fmt
  maxBlock : Nat
  maxDelay : Nat
  sawMode : SawMode
  attackFromCurrent : Bool
  trig : TrigMode
  graph : Graph
  deriving DecidableEq, Repr

/-- `NOSC` (00_scope.md R6). -/
def Params.nosc (p : Params) : Nat := p.graph.oscInit.length

/-- `NFLT` (00_scope.md R6). -/
def Params.nflt (p : Params) : Nat := p.graph.fltInit.length

/-- `NENV` (00_scope.md R6). -/
def Params.nenv (p : Params) : Nat := p.graph.envInit.length

/-- `NDLY` (00_scope.md R6). -/
def Params.ndly (p : Params) : Nat := p.graph.dlyInit.length

/-- Every oscillator's init record in the default graph: 440 Hz, SINE (45_graph.md R217). -/
def defaultOscInit : OscInit := { freq := 0x407B800000000000#64, wave := .sine }

/-- Every filter's init record in the default graph: 100 Hz, Q = 1/√2 rounded (45_graph.md R217). -/
def defaultFltInit : FltInit := { cutoff := 0x4059000000000000#64, q := 0x3FE6A09E667F3BCD#64 }

/-- Every envelope's init record in the default graph: 0.01, 0.1, 0.7, 0.2, no trigger (45_graph.md R217). -/
def defaultEnvInit : EnvInit :=
  { attackSec := 0x3F847AE147AE147B#64, decaySec := 0x3FB999999999999A#64, sustain := 0x3FE6666666666666#64,
    releaseSec := 0x3FC999999999999A#64, triggerOnPrepare := false }

/-- Every delay line's init record in the default graph: 0.25 s, 0.5 (45_graph.md R217). -/
def defaultDlyInit : DlyInit := { delaySeconds := 0x3FD0000000000000#64, feedback := 0x3FE0000000000000#64 }

/-- Topology (a), "single oscillator only" (45_graph.md R212), with the init records of R217 for the default
counts 5, 2, 2, 1 (00_scope.md R6). -/
def defaultGraph : Graph :=
  { groups := [{ sources := [{ osc := 0, gain := 0x3FF0000000000000#64 }], filter := none, env := none,
                 outGain := 0x3FF0000000000000#64 }],
    delay := none,
    oscInit := List.replicate 5 defaultOscInit,
    fltInit := List.replicate 2 defaultFltInit,
    envInit := List.replicate 2 defaultEnvInit,
    dlyInit := List.replicate 1 defaultDlyInit }

/-- The default column of 00_scope.md R6. -/
def Params.default : Params :=
  { fmt := .binary64, maxBlock := 2 ^ 20, maxDelay := 2 ^ 20, sawMode := .centered, attackFromCurrent := false,
    trig := .correctlyRounded, graph := defaultGraph }

/-- The floating-point operations whose NaN result has an open payload (00_scope.md R12). -/
inductive FpOp where
  | add
  | sub
  | mul
  | div
  | fmod
  | toW
  | to64
  | sin
  | cos
  deriving DecidableEq, Repr

/-- FREE VALUE (I1, 00_scope.md R12 `NAN_W`): what a format-f operation draws for its NaN result, from the operation and
its operand bits. Only its payload and sign are used; the result is made a NaN of the format (log 6). -/
opaque Config.nanDraw (f : Fmt) (op : FpOp) (a b : Sample) : Sample

/-- FREE VALUE (I2, 00_scope.md R15): the sine of a finite argument when the parameters leave `sinW` open (log 7). -/
opaque Config.sinDraw (f : Fmt) (x : Sample) : Sample

/-- FREE VALUE (I2, 00_scope.md R15): the cosine of a finite argument when the parameters leave `cosW` open (log 7). -/
opaque Config.cosDraw (f : Fmt) (x : Sample) : Sample

/-- FREE VALUE (I3, 10_state.md R46): what a host read returns for an OUTBUF word no PROCESS_BLOCK has written (log 5). -/
opaque Config.unwrittenOutbuf (i : Nat) : Word

end Sys2Proof
end

