-- ==== Sys2Proof/Syntax.lean ====
section
/-! DEFINITION. The sixteen commands, one constructor per row of the opcode map (30_encoding.md R85). -/

namespace Sys2Proof

/-- A decoded command: what `decode` of 30_encoding.md R88 returns for a legal word. The field `u` is the
`U` field (R82), `imm` the `IMM` field of OSC_SET_WAVE (R83). -/
inductive Instr where
  /-- PREPARE, 45_graph.md R220. -/
  | prepare
  /-- PROCESS_BLOCK, 45_graph.md R224. -/
  | processBlock
  /-- OSC_SET_FREQ, 41_oscillator.md R120. -/
  | oscSetFreq (u : BitVec 8)
  /-- OSC_SET_WAVE, 41_oscillator.md R122. -/
  | oscSetWave (u : BitVec 8) (imm : BitVec 16)
  /-- OSC_NEXT, 41_oscillator.md R126. -/
  | oscNext (u : BitVec 8)
  /-- FLT_SET_PARAMS, 42_biquad.md R140. -/
  | fltSetParams (u : BitVec 8)
  /-- FLT_PROCESS, 42_biquad.md R143. -/
  | fltProcess (u : BitVec 8)
  /-- FLT_RESET, 42_biquad.md R144. -/
  | fltReset (u : BitVec 8)
  /-- ENV_SET_PARAMS, 43_envelope.md R160. -/
  | envSetParams (u : BitVec 8)
  /-- ENV_NOTE_ON, 43_envelope.md R170. -/
  | envNoteOn (u : BitVec 8)
  /-- ENV_NOTE_OFF, 43_envelope.md R171. -/
  | envNoteOff (u : BitVec 8)
  /-- ENV_NEXT, 43_envelope.md R172. -/
  | envNext (u : BitVec 8)
  /-- DLY_SET_DELAY, 44_delay.md R190. -/
  | dlySetDelay (u : BitVec 8)
  /-- DLY_SET_FEEDBACK, 44_delay.md R192. -/
  | dlySetFeedback (u : BitVec 8)
  /-- DLY_PROCESS, 44_delay.md R193. -/
  | dlyProcess (u : BitVec 8)
  /-- DLY_RESET, 44_delay.md R194. -/
  | dlyReset (u : BitVec 8)
  deriving DecidableEq, Repr

/-- The four unit kinds a unit command can address (30_encoding.md R82, R85). -/
inductive UnitKind where
  | osc
  | flt
  | env
  | dly
  deriving DecidableEq, Repr

/-- The kind and index a unit command names; none for PREPARE and PROCESS_BLOCK (30_encoding.md R82). -/
def Instr.target : Instr → Option (UnitKind × BitVec 8)
  | .prepare => none
  | .processBlock => none
  | .oscSetFreq u => some (.osc, u)
  | .oscSetWave u _ => some (.osc, u)
  | .oscNext u => some (.osc, u)
  | .fltSetParams u => some (.flt, u)
  | .fltProcess u => some (.flt, u)
  | .fltReset u => some (.flt, u)
  | .envSetParams u => some (.env, u)
  | .envNoteOn u => some (.env, u)
  | .envNoteOff u => some (.env, u)
  | .envNext u => some (.env, u)
  | .dlySetDelay u => some (.dly, u)
  | .dlySetFeedback u => some (.dly, u)
  | .dlyProcess u => some (.dly, u)
  | .dlyReset u => some (.dly, u)

end Sys2Proof
end

