-- ==== Sys2Proof/WellFormed.lean ====
section
/-! DEFINITION. When a set of parameters is an OSCEN-CORE at all (00_scope.md R6, 10_state.md R41), and when a
command names a unit that the hardware has (30_encoding.md R82). -/

namespace Sys2Proof

/-- A binary64 encoding of a finite value: the exponent field is not all ones. -/
def finite64 (v : Word) : Bool := v.toNat / 2 ^ 52 % 2 ^ 11 != 2 ^ 11 - 1

/-- The legal unit counts of 00_scope.md R6: NOSC 1..255, NFLT, NENV, NDLY 0..255. -/
def Params.countsLegal (p : Params) : Bool :=
  decide (1 ≤ p.nosc) && decide (p.nosc ≤ 255) && decide (p.nflt ≤ 255) && decide (p.nenv ≤ 255) && decide (p.ndly ≤ 255)

/-- The legal memory sizes of 00_scope.md R6: MAX_BLOCK 1..2^20, MAX_DELAY 1..2^32-1. -/
def Params.sizesLegal (p : Params) : Bool :=
  decide (1 ≤ p.maxBlock) && decide (p.maxBlock ≤ 2 ^ 20) && decide (1 ≤ p.maxDelay) && decide (p.maxDelay ≤ 2 ^ 32 - 1)

/-- Every oscillator named by `GRAPH`, in list order. -/
def Graph.oscNames (g : Graph) : List Nat := g.groups.flatMap fun gr => gr.sources.map Source.osc

/-- Every filter named by `GRAPH`, in list order. -/
def Graph.fltNames (g : Graph) : List Nat := g.groups.filterMap Group.filter

/-- Every envelope named by `GRAPH`, in list order. -/
def Graph.envNames (g : Graph) : List Nat := g.groups.filterMap Group.env

/-- One or more groups, each with one or more sources (10_state.md R40). -/
def Graph.nonEmpty (g : Graph) : Bool := !g.groups.isEmpty && g.groups.all fun gr => !gr.sources.isEmpty

/-- Every index named lies below its count (10_state.md R41). -/
def Params.namesExist (p : Params) : Bool :=
  p.graph.oscNames.all (fun u => decide (u < p.nosc)) && p.graph.fltNames.all (fun u => decide (u < p.nflt)) &&
    p.graph.envNames.all (fun u => decide (u < p.nenv)) && p.graph.delay.all (fun u => decide (u < p.ndly))

/-- No oscillator, filter or envelope is named twice (10_state.md R41, "no aliasing between nodes"). -/
def Graph.noAliasing (g : Graph) : Bool :=
  decide g.oscNames.Nodup && decide g.fltNames.Nodup && decide g.envNames.Nodup

/-- Every gain and `outGain` is finite (10_state.md R41). -/
def Graph.gainsFinite (g : Graph) : Bool :=
  g.groups.all fun gr => finite64 gr.outGain && gr.sources.all fun s => finite64 s.gain

/-- The parameters are those of some OSCEN-CORE: legal values (00_scope.md R6) and a well-formed `GRAPH` (10_state.md R41).
Where this is false no such hardware exists and no power-on state is constructed. -/
def Params.wf (p : Params) : Bool :=
  p.countsLegal && p.sizesLegal && p.graph.nonEmpty && p.namesExist && p.graph.noAliasing && p.graph.gainsFinite

/-- How many units of a kind there are (40_command_common.md R102, `count`). -/
def Params.count (p : Params) : UnitKind → Nat
  | .osc => p.nosc
  | .flt => p.nflt
  | .env => p.nenv
  | .dly => p.ndly

/-- The command names no unit, or one that exists (30_encoding.md R82). Where this is false the command raises
`PRG_BAD_UNIT` (40_command_common.md R102). -/
def Instr.wf (p : Params) (i : Instr) : Bool :=
  match i.target with
  | none => true
  | some (k, u) => decide (u.toNat < p.count k)

end Sys2Proof
end

