-- ==== Sys2Proof/Decode.lean ====
section
/-! DEFINITION. Decoding of command words (30_encoding.md R80 to R91), total on every word and on any bytes, rejecting by
name; and the encoder. -/

namespace Sys2Proof

/-- Why a word is ILLEGAL (30_encoding.md R86), or bytes are no command word. -/
inductive Illegal where
  /-- `OP` is not in the table of 30_encoding.md R85. -/
  | reservedOpcode (op : BitVec 8)
  /-- PREPARE or PROCESS_BLOCK with `U != 0` (30_encoding.md R82, R86). -/
  | unitOnHostCommand (u : BitVec 8)
  /-- `IMM != 0` on a command other than OSC_SET_WAVE (30_encoding.md R83, R86). -/
  | immediateNotUsed (imm : BitVec 16)
  /-- Fewer than the four bytes of a command word (30_encoding.md R81). -/
  | truncated
  deriving DecidableEq, Repr

/-- `OP = word[31:24]` (30_encoding.md R81). -/
def opField (w : CmdWord) : BitVec 8 := w.extractLsb' 24 8

/-- `U = word[23:16]` (30_encoding.md R81). -/
def uField (w : CmdWord) : BitVec 8 := w.extractLsb' 16 8

/-- `IMM = word[15:0]` (30_encoding.md R81). -/
def immField (w : CmdWord) : BitVec 16 := w.extractLsb' 0 16

/-- The opcode map (30_encoding.md R85): the command of an opcode with its fields; none for a reserved opcode. -/
def commandOf (op u : BitVec 8) (imm : BitVec 16) : Option Instr :=
  match op.toNat with
  | 0x01 => some .prepare
  | 0x02 => some .processBlock
  | 0x10 => some (.oscSetFreq u)
  | 0x11 => some (.oscSetWave u imm)
  | 0x12 => some (.oscNext u)
  | 0x20 => some (.fltSetParams u)
  | 0x21 => some (.fltProcess u)
  | 0x22 => some (.fltReset u)
  | 0x30 => some (.envSetParams u)
  | 0x31 => some (.envNoteOn u)
  | 0x32 => some (.envNoteOff u)
  | 0x33 => some (.envNext u)
  | 0x40 => some (.dlySetDelay u)
  | 0x41 => some (.dlySetFeedback u)
  | 0x42 => some (.dlyProcess u)
  | 0x43 => some (.dlyReset u)
  | _ => none

/-- The class column of 30_encoding.md R85: PREPARE and PROCESS_BLOCK are the host commands. -/
def isHostCommand (i : Instr) : Bool := i.target.isNone

/-- Only OSC_SET_WAVE uses `IMM` (30_encoding.md R83). -/
def usesImm : Instr → Bool
  | .oscSetWave _ _ => true
  | .prepare | .processBlock | .oscSetFreq _ | .oscNext _ | .fltSetParams _ | .fltProcess _ | .fltReset _
  | .envSetParams _ | .envNoteOn _ | .envNoteOff _ | .envNext _ | .dlySetDelay _ | .dlySetFeedback _
  | .dlyProcess _ | .dlyReset _ => false

/-- Decoding as a total function on every 32-bit word (30_encoding.md R88). -/
def decodeWord (w : CmdWord) : Except Illegal Instr :=
  match commandOf (opField w) (uField w) (immField w) with
  | none => .error (.reservedOpcode (opField w))
  | some i =>
    if isHostCommand i && uField w != 0 then .error (.unitOnHostCommand (uField w))
    else if !usesImm i && immField w != 0 then .error (.immediateNotUsed (immField w))
    else .ok i

/-- Decoding from bytes, the least significant byte first (20_memory.md R64), with the bytes after the word. -/
def decodeBytes : List (BitVec 8) → Except Illegal (Instr × List (BitVec 8))
  | b0 :: b1 :: b2 :: b3 :: rest =>
    match decodeWord (b3 ++ b2 ++ b1 ++ b0) with
    | .ok i => .ok (i, rest)
    | .error e => .error e
  | [] | [_] | [_, _] | [_, _, _] => .error .truncated

/-- The `OP` column of 30_encoding.md R85. -/
def opcodeOf : Instr → BitVec 8
  | .prepare => 0x01#8
  | .processBlock => 0x02#8
  | .oscSetFreq _ => 0x10#8
  | .oscSetWave _ _ => 0x11#8
  | .oscNext _ => 0x12#8
  | .fltSetParams _ => 0x20#8
  | .fltProcess _ => 0x21#8
  | .fltReset _ => 0x22#8
  | .envSetParams _ => 0x30#8
  | .envNoteOn _ => 0x31#8
  | .envNoteOff _ => 0x32#8
  | .envNext _ => 0x33#8
  | .dlySetDelay _ => 0x40#8
  | .dlySetFeedback _ => 0x41#8
  | .dlyProcess _ => 0x42#8
  | .dlyReset _ => 0x43#8

/-- The `U` field of a command: its unit index, 0 for a host command (30_encoding.md R82). -/
def unitOf (i : Instr) : BitVec 8 :=
  match i.target with
  | none => 0#8
  | some (_, u) => u

/-- The `IMM` field of a command: the waveform code, 0 for every other command (30_encoding.md R83). -/
def immOf : Instr → BitVec 16
  | .oscSetWave _ imm => imm
  | .prepare | .processBlock | .oscSetFreq _ | .oscNext _ | .fltSetParams _ | .fltProcess _ | .fltReset _
  | .envSetParams _ | .envNoteOn _ | .envNoteOff _ | .envNext _ | .dlySetDelay _ | .dlySetFeedback _
  | .dlyProcess _ | .dlyReset _ => 0#16

/-- The encoded word `{OP, zext_8(u), zext_16(IMM)}` (30_encoding.md R90). -/
def encode (i : Instr) : CmdWord := opcodeOf i ++ unitOf i ++ immOf i

/-- The encoded word as bytes, the least significant first (20_memory.md R64). -/
def encodeBytes (i : Instr) : List (BitVec 8) :=
  [(encode i).extractLsb' 0 8, (encode i).extractLsb' 8 8, (encode i).extractLsb' 16 8, (encode i).extractLsb' 24 8]

/-- One row of spec/opcode_table.json: a word is that command when `word & mask = value`. -/
structure OpcodeRow where
  mnemonic : String
  value : CmdWord
  mask : CmdWord
  deriving DecidableEq, Repr

/-- spec/opcode_table.json, row by row. -/
def opcodeTable : List OpcodeRow :=
  [⟨"PREPARE", 0x01000000#32, 0xFFFFFFFF#32⟩, ⟨"PROCESS_BLOCK", 0x02000000#32, 0xFFFFFFFF#32⟩,
   ⟨"OSC_SET_FREQ", 0x10000000#32, 0xFF00FFFF#32⟩, ⟨"OSC_SET_WAVE", 0x11000000#32, 0xFF000000#32⟩,
   ⟨"OSC_NEXT", 0x12000000#32, 0xFF00FFFF#32⟩, ⟨"FLT_SET_PARAMS", 0x20000000#32, 0xFF00FFFF#32⟩,
   ⟨"FLT_PROCESS", 0x21000000#32, 0xFF00FFFF#32⟩, ⟨"FLT_RESET", 0x22000000#32, 0xFF00FFFF#32⟩,
   ⟨"ENV_SET_PARAMS", 0x30000000#32, 0xFF00FFFF#32⟩, ⟨"ENV_NOTE_ON", 0x31000000#32, 0xFF00FFFF#32⟩,
   ⟨"ENV_NOTE_OFF", 0x32000000#32, 0xFF00FFFF#32⟩, ⟨"ENV_NEXT", 0x33000000#32, 0xFF00FFFF#32⟩,
   ⟨"DLY_SET_DELAY", 0x40000000#32, 0xFF00FFFF#32⟩, ⟨"DLY_SET_FEEDBACK", 0x41000000#32, 0xFF00FFFF#32⟩,
   ⟨"DLY_PROCESS", 0x42000000#32, 0xFF00FFFF#32⟩, ⟨"DLY_RESET", 0x43000000#32, 0xFF00FFFF#32⟩]

/-- A word matches a row of the opcode table (30_encoding.md R88, the match and mask pairs). -/
def rowMatches (r : OpcodeRow) (w : CmdWord) : Bool := w &&& r.mask == r.value

/-- The mnemonic column of 30_encoding.md R85. -/
def mnemonicOf : Instr → String
  | .prepare => "PREPARE"
  | .processBlock => "PROCESS_BLOCK"
  | .oscSetFreq _ => "OSC_SET_FREQ"
  | .oscSetWave _ _ => "OSC_SET_WAVE"
  | .oscNext _ => "OSC_NEXT"
  | .fltSetParams _ => "FLT_SET_PARAMS"
  | .fltProcess _ => "FLT_PROCESS"
  | .fltReset _ => "FLT_RESET"
  | .envSetParams _ => "ENV_SET_PARAMS"
  | .envNoteOn _ => "ENV_NOTE_ON"
  | .envNoteOff _ => "ENV_NOTE_OFF"
  | .envNext _ => "ENV_NEXT"
  | .dlySetDelay _ => "DLY_SET_DELAY"
  | .dlySetFeedback _ => "DLY_SET_FEEDBACK"
  | .dlyProcess _ => "DLY_PROCESS"
  | .dlyReset _ => "DLY_RESET"

/-- The instruction the decoder reads from a table word: the word's low `nbits` bits, higher bits zero, laid out as four
bytes with the least significant first, then decoded. -/
def decodeTableWord (nbits w : Nat) : Option Instr :=
  let v := w % 2 ^ nbits
  match decodeBytes [BitVec.ofNat 8 v, BitVec.ofNat 8 (v / 2 ^ 8), BitVec.ofNat 8 (v / 2 ^ 16), BitVec.ofNat 8 (v / 2 ^ 24)] with
  | .ok (i, _) => some i
  | .error _ => none

end Sys2Proof
end

