-- ==== Sys2Proof/Machine/State.lean ====
section
/-! DEFINITION. The state of OSCEN-CORE as plain data (10_state.md), the reasons a step stops, and the state after
power-on reset (10_state.md R45, 70_reset_and_hazards.md R270). -/

namespace Sys2Proof.Machine

open Sys2Proof

/-- The six stages of an envelope (10_state.md R34, 90_conflicts.md C1). -/
inductive Stage where
  | idle
  | attack
  | decay
  | sustain
  | release
  | off
  deriving DecidableEq, Repr

/-- The error codes of 60_exceptions.md R241; the reserved codes cannot be written (I7). -/
inductive ErrCode where
  | noError
  | cfgSampleRate
  | cfgBlockSize
  | cfgFrequency
  | cfgWaveform
  | cfgCutoff
  | cfgQ
  | cfgEnvelope
  | cfgFeedback
  | cfgDelayLength
  | prgIllegalCommand
  | prgBadUnit
  | prgNotPrepared
  | prgBlockTooLarge
  | prgMixLength
  deriving DecidableEq, Repr

/-- The fields of `STATUS` (10_state.md R26). The reserved bits hold nothing and read as 0 (Machine/Flags.lean). -/
structure Status where
  prepared : Bool
  fault : Bool
  errCode : ErrCode
  errUnit : BitVec 8
  deriving DecidableEq, Repr

/-- Oscillator unit `OSC[u]` (10_state.md R30). -/
structure OscUnit where
  f : Sample
  inc : Sample
  phase : Sample
  wave : Waveform
  deriving DecidableEq, Repr

/-- Filter unit `FLT[u]` (10_state.md R32). -/
structure FltUnit where
  fc : Sample
  q : Sample
  b0 : Sample
  b1 : Sample
  b2 : Sample
  a1 : Sample
  a2 : Sample
  x1 : Sample
  x2 : Sample
  y1 : Sample
  y2 : Sample
  deriving DecidableEq, Repr

/-- Envelope unit `ENV[u]` (10_state.md R34). The u32 fields are held as Nat (log 15). -/
structure EnvUnit where
  na : Nat
  nd : Nat
  nr : Nat
  s : Sample
  stage : Stage
  level : Sample
  n : Nat
  start : Sample
  deriving DecidableEq, Repr

/-- Delay-line unit `DLY[u]` with its delay RAM `DRAM[u]` (10_state.md R36). The u32 fields are held as Nat (log 15). -/
structure DlyUnit where
  c : Nat
  d : Nat
  g : Sample
  w : Nat
  dram : Mem
  deriving DecidableEq, Repr

/-- The scratch buffers PROCESS_BLOCK uses: `SRC_k`, `M`, `G_j` and `O` of 45_graph.md R224 (10_state.md R39; log 18). -/
structure Scratch where
  src : List Mem
  m : Mem
  g : List Mem
  o : Mem
  deriving DecidableEq, Repr

/-- What can happen to the core between two of its steps: one action of the host (45_graph.md R230) or the power-on
reset (70_reset_and_hazards.md R270). -/
inductive Event where
  /-- The host writes a 64-bit word; a write to `CMD` executes a command (20_memory.md R66). -/
  | write (a : Addr) (v : Word)
  /-- The host reads a 64-bit word (20_memory.md R66). -/
  | read (a : Addr)
  /-- A platform delivers a sub-word, misaligned or multi-word access (20_memory.md R65). -/
  | partialAccess (a : Addr)
  /-- The one reset, at power-on, between commands (70_reset_and_hazards.md R270). -/
  | powerOnReset
  deriving DecidableEq, Repr

/-- Every piece of state 10_state.md and 20_memory.md give the machine, with the parameters it was built with. -/
structure State where
  /-- The parameters of this hardware (00_scope.md R6): constant; `CONFIG` reports a part of them (10_state.md R28). -/
  params : Params
  /-- `ARG0` (10_state.md R24). -/
  arg0 : Word
  /-- `ARG1` (10_state.md R24). -/
  arg1 : Word
  /-- `ARG2` (10_state.md R24). -/
  arg2 : Word
  /-- `ARG3` (10_state.md R24). -/
  arg3 : Word
  /-- `RESULT` (10_state.md R25). -/
  result : Word
  /-- `STATUS` (10_state.md R26). -/
  status : Status
  /-- `ERRCMD[31:0]`; bits 63:32 read as 0 (10_state.md R27). -/
  errCmd : CmdWord
  /-- `SR64` (10_state.md R29). -/
  sr64 : Word
  /-- `SR_W` (10_state.md R29). -/
  srW : Sample
  /-- `MAXBLK` (10_state.md R29). -/
  maxBlk : Nat
  /-- `OSC[u]` (10_state.md R30). -/
  osc : List OscUnit
  /-- `FLT[u]` (10_state.md R32). -/
  flt : List FltUnit
  /-- `ENV[u]` (10_state.md R34). -/
  env : List EnvUnit
  /-- `DLY[u]` with `DRAM[u]` (10_state.md R36). -/
  dly : List DlyUnit
  /-- `OUTBUF` (20_memory.md R60, R68). -/
  outbuf : Mem
  /-- `SCRATCH` (10_state.md R39). -/
  scratch : Scratch
  /-- The MODEL's own: the word the last host read returned (log 12). -/
  readData : Word
  /-- The MODEL's own: the events still to come, first to happen first (log 11). -/
  pending : List Event
  deriving DecidableEq, Repr

/-- The faults that stop the model: none. An error of a command is state (`STATUS.FAULT`, 60_exceptions.md R246) and the
hardware has no halt state (45_graph.md R232). -/
inductive Fault where
  deriving DecidableEq, Repr

/-- The actions the model gives no step. -/
inductive Refusal where
  /-- An instruction without a meaning; raised by `exec`'s arms only. Safe. -/
  | notModelled (mnemonic : String)
  /-- A host access to an unmapped word address, raised by the host port: "A model must refuse such an access"
  (20_memory.md R63, I4). Safe. -/
  | unmappedAddress (a : Addr)
  /-- A sub-word, misaligned or multi-word access, raised by the host port: "A model that receives one from a platform
  must refuse it" (20_memory.md R65, I5). Safe. -/
  | notOneWholeWord (a : Addr)
  deriving DecidableEq, Repr

/-- `STATUS = 0` (10_state.md R45). -/
def Status.reset : Status := { prepared := false, fault := false, errCode := .noError, errUnit := 0#8 }

/-- An oscillator's fields after reset; the spec leaves them unspecified (log 3). -/
def OscUnit.reset : OscUnit := { f := 0#64, inc := 0#64, phase := 0#64, wave := .sine }

/-- A filter's fields after reset; the spec leaves them unspecified (log 3). -/
def FltUnit.reset : FltUnit :=
  { fc := 0#64, q := 0#64, b0 := 0#64, b1 := 0#64, b2 := 0#64, a1 := 0#64, a2 := 0#64,
    x1 := 0#64, x2 := 0#64, y1 := 0#64, y2 := 0#64 }

/-- An envelope's fields after reset; the spec leaves them unspecified (log 3). -/
def EnvUnit.reset : EnvUnit :=
  { na := 0, nd := 0, nr := 0, s := 0#64, stage := .idle, level := 0#64, n := 0, start := 0#64 }

/-- A delay line's fields and RAM after reset; the spec leaves them unspecified (log 3, log 4). -/
def DlyUnit.reset : DlyUnit := { c := 0, d := 0, g := 0#64, w := 0, dram := [] }

/-- As many scratch buffers as 45_graph.md R224 uses, nothing written (log 4, log 18). -/
def Scratch.reset (p : Params) : Scratch :=
  { src := List.replicate ((p.graph.groups.map fun gr => gr.sources.length).foldl Nat.max 0) [], m := [],
    g := List.replicate p.graph.groups.length [], o := [] }

/-- The state after power-on reset of the hardware built with parameters `p` (10_state.md R45, 70_reset_and_hazards.md R270). -/
def State.powerOn (p : Params) : State :=
  { params := p, arg0 := 0#64, arg1 := 0#64, arg2 := 0#64, arg3 := 0#64, result := 0#64, status := Status.reset,
    errCmd := 0#32, sr64 := 0#64, srW := 0#64, maxBlk := 0,
    osc := List.replicate p.nosc OscUnit.reset, flt := List.replicate p.nflt FltUnit.reset,
    env := List.replicate p.nenv EnvUnit.reset, dly := List.replicate p.ndly DlyUnit.reset,
    outbuf := [], scratch := Scratch.reset p, readData := 0#64, pending := [] }

/-- Construction: parameters that are not well formed give no hardware ("a model refuses to construct it",
10_state.md R41). -/
def State.construct (p : Params) : Option State := if p.wf then some (State.powerOn p) else none

/-- The state right after reset, with the default parameters of 00_scope.md R6. -/
def State.reset : State := State.powerOn Params.default

end Sys2Proof.Machine
end

