-- ==== Sys2Proof/Machine/Flags.lean ====
section
/-! DEFINITION. The two flags and the error fields of STATUS as a word, ERRCMD and CONFIG as words (10_state.md R26, R27,
R28, R43). There are no condition codes (R43). -/

namespace Sys2Proof.Machine

open Sys2Proof

/-- The code column of 60_exceptions.md R241. -/
def errCodeByte : ErrCode → BitVec 8
  | .noError => 0x00#8
  | .cfgSampleRate => 0x01#8
  | .cfgBlockSize => 0x02#8
  | .cfgFrequency => 0x03#8
  | .cfgWaveform => 0x04#8
  | .cfgCutoff => 0x05#8
  | .cfgQ => 0x06#8
  | .cfgEnvelope => 0x07#8
  | .cfgFeedback => 0x08#8
  | .cfgDelayLength => 0x09#8
  | .prgIllegalCommand => 0x81#8
  | .prgBadUnit => 0x82#8
  | .prgNotPrepared => 0x83#8
  | .prgBlockTooLarge => 0x84#8
  | .prgMixLength => 0x85#8

/-- A flag as one bit. -/
def flagBit (b : Bool) : BitVec 1 := if b then 1#1 else 0#1

/-- `STATUS` as the host reads it: PREPARED bit 0, FAULT bit 1, ERRCODE 15:8, ERRUNIT 23:16, the rest 0 (10_state.md R26). -/
def statusWord (st : Status) : Word :=
  0#40 ++ st.errUnit ++ errCodeByte st.errCode ++ 0#6 ++ flagBit st.fault ++ flagBit st.prepared

/-- `ERRCMD` as the host reads it: bits 63:32 are 0 (10_state.md R27). -/
def errCmdWord (c : CmdWord) : Word := c.zeroExtend 64

/-- `CONFIG` as the host reads it (10_state.md R28). -/
def configWord (p : Params) : Word :=
  0#29 ++ flagBit p.attackFromCurrent ++ flagBit (p.sawMode == .raw) ++ flagBit (p.fmt == .binary64)
    ++ BitVec.ofNat 8 p.ndly ++ BitVec.ofNat 8 p.nenv ++ BitVec.ofNat 8 p.nflt ++ BitVec.ofNat 8 p.nosc

end Sys2Proof.Machine
end

