-- ==== Sys2Proof/Machine/Mem.lean ====
section
/-! DEFINITION. The memories of 20_memory.md R60: reading, writing and clearing words, in one canonical form. -/

namespace Sys2Proof.Machine

open Sys2Proof

/-- The core's memory spaces (20_memory.md R60). -/
inductive Space where
  | outbuf
  | dram
  | scratch
  deriving DecidableEq, Repr

/-- What an unlisted index of a space reads as: an OUTBUF word nothing has written has no value (10_state.md R46; log 5);
a delay-RAM or scratch word reads as +0 (log 4). -/
def unlisted : Space → Option Word
  | .outbuf => none
  | .dram => some 0#64
  | .scratch => some 0#64

/-- The word listed at an index. -/
def memLookup : Mem → Nat → Option Word
  | [], _ => none
  | (k, v) :: rest, i => if k = i then some v else memLookup rest i

/-- `MemRead(space, i, 1)` (00_scope.md R9): the listed word, or what an unlisted index reads as. -/
def memRead (sp : Space) (m : Mem) (i : Nat) : Option Word :=
  match memLookup m i with
  | some v => some v
  | none => unlisted sp

/-- List a word at an index, keeping indices strictly rising. -/
def memInsert : Mem → Nat → Word → Mem
  | [], i, v => [(i, v)]
  | (k, x) :: rest, i, v =>
    if i < k then (i, v) :: (k, x) :: rest
    else if i = k then (i, v) :: rest
    else (k, x) :: memInsert rest i v

/-- Unlist an index. -/
def memErase : Mem → Nat → Mem
  | [], _ => []
  | (k, x) :: rest, i => if k = i then rest else (k, x) :: memErase rest i

/-- `MemWrite(space, i, 1, v)` (00_scope.md R9). Writing what an unlisted index reads as removes the entry. -/
def memWrite (sp : Space) (m : Mem) (i : Nat) (v : Word) : Mem :=
  if unlisted sp = some v then memErase m i else memInsert m i v

/-- `for i in 0 .. c-1: MemWrite(DRAM[u], i, 1, +0)` (44_delay.md R194, 45_graph.md R220): the words below `c` become
+0 and the others stay. -/
def zeroBelow (m : Mem) (c : Nat) : Mem := m.filter fun e => decide (c ≤ e.1)

/-- Consecutive writes of `vs` to the indices from `i` on. -/
def memWriteFrom (sp : Space) : Mem → Nat → List Word → Mem
  | m, _, [] => m
  | m, i, v :: vs => memWriteFrom sp (memWrite sp m i v) (i + 1) vs

/-- Indices strictly rise, each above `lo`'s predecessor. -/
def risingFrom : Nat → Mem → Bool
  | _, [] => true
  | lo, (k, _) :: rest => decide (lo ≤ k) && risingFrom (k + 1) rest

/-- The canonical form of a memory of a space: indices strictly rise and no entry equals what an unlisted index reads as. -/
def Memory.wf (sp : Space) (m : Mem) : Bool :=
  risingFrom 0 m && m.all fun e => decide (unlisted sp ≠ some e.2)

end Sys2Proof.Machine
end

