-- ==== Sys2Proof/Machine/Float.lean ====
section
/-! DEFINITION. IEEE 754 arithmetic of format W (00_scope.md R10 to R14): every operation computes the exact value as a
ratio of naturals and rounds it once, to nearest, ties to even, subnormals kept. -/

namespace Sys2Proof.Machine

open Sys2Proof

/-- Width of the fraction field: 23 or 52. -/
def fracBits : Fmt → Nat
  | .binary32 => 23
  | .binary64 => 52

/-- Width of the exponent field: 8 or 11. -/
def expBits : Fmt → Nat
  | .binary32 => 8
  | .binary64 => 11

/-- The all-ones exponent field. -/
def expMax (f : Fmt) : Nat := 2 ^ expBits f - 1

/-- The sign bit's place: 31 or 63. -/
def signPos (f : Fmt) : Nat := fracBits f + expBits f

/-- The smallest positive value of the format is `2 ^ (-quantum)`: 149 or 1074. Every finite value is a whole multiple
of it. -/
def quantum : Fmt → Nat
  | .binary32 => 149
  | .binary64 => 1074

/-- The value an encoding stands for. `fin neg k` is `± k * 2 ^ (-quantum)`, exactly. -/
inductive FpVal where
  | nan
  | inf (neg : Bool)
  | fin (neg : Bool) (k : Nat)
  deriving DecidableEq, Repr

/-- The value of an encoding of format `f`. -/
def fpVal (f : Fmt) (w : Sample) : FpVal :=
  let frac := w.toNat % 2 ^ fracBits f
  let ex := w.toNat / 2 ^ fracBits f % 2 ^ expBits f
  let neg := w.toNat / 2 ^ signPos f % 2 == 1
  if ex = expMax f then (if frac = 0 then .inf neg else .nan)
  else if ex = 0 then .fin neg frac
  else .fin neg ((frac + 2 ^ fracBits f) * 2 ^ (ex - 1))

/-- The encoding with a sign and the encoding of a magnitude. -/
def withSign (f : Fmt) (neg : Bool) (mag : Nat) : Sample :=
  BitVec.ofNat 64 (mag + if neg then 2 ^ signPos f else 0)

/-- The infinity of a sign. -/
def fpInf (f : Fmt) (neg : Bool) : Sample := withSign f neg (expMax f * 2 ^ fracBits f)

/-- +0 (00_scope.md R13). -/
def posZero : Sample := 0#64

/-- The NaN of format `f` with the sign and payload of a draw; an all-zero payload is not a NaN's and becomes 1. -/
def mkNaN (f : Fmt) (draw : Sample) : Sample :=
  let payload := draw.toNat % 2 ^ fracBits f
  withSign f (draw.toNat / 2 ^ signPos f % 2 == 1)
    (expMax f * 2 ^ fracBits f + if payload = 0 then 1 else payload)

/-- `NAN_W` of one operation on its operands (00_scope.md R12, I1; log 6). -/
def nanW (f : Fmt) (op : FpOp) (a b : Sample) : Sample := mkNaN f (Config.nanDraw f op a b)

/-- The place of the highest bit of `m`, plus `acc`, by halving: `m < 2 ^ (2 * s)` for the first shift `s` of the list. -/
def highBit : List Nat → Nat → Nat → Nat
  | [], _, acc => acc
  | s :: rest, m, acc => if m < 2 ^ s then highBit rest m acc else highBit rest (m / 2 ^ s) (acc + s)

/-- `Nat.log2`, in few steps for the numbers that occur here. -/
def ilog2 (m : Nat) : Nat :=
  if m < 2 ^ 4096 then highBit [2048, 1024, 512, 256, 128, 64, 32, 16, 8, 4, 2, 1] m 0 else Nat.log2 m

/-- The encoding of the magnitude nearest to `num / den` quanta, ties to even (00_scope.md R10, R12): `x` is the exponent
that leaves one more bit than the fraction field before the point. -/
def roundMag (f : Fmt) (num den : Nat) : Nat :=
  let x := ilog2 (num / den) - fracBits f
  let d := den * 2 ^ x
  let q := num / d
  let r := num % d
  let up := decide (d < 2 * r) || (decide (2 * r = d) && q % 2 == 1)
  Nat.min (x * 2 ^ fracBits f + q + if up then 1 else 0) (expMax f * 2 ^ fracBits f)

/-- A signed ratio of quanta rounded to format `f`. -/
def roundW (f : Fmt) (neg : Bool) (num den : Nat) : Sample := withSign f neg (roundMag f num den)

/-- The exact sum of two non-NaN values, rounded; `nan` is the answer for infinities of opposite signs. A zero sum is
+0 unless both operands are negative zeros (IEEE 754, round to nearest). -/
def addVals (f : Fmt) (nan : Sample) : FpVal → FpVal → Sample
  | .nan, _ => nan
  | .inf _, .nan => nan
  | .fin _ _, .nan => nan
  | .inf s, .inf t => if s = t then fpInf f s else nan
  | .inf s, .fin _ _ => fpInf f s
  | .fin _ _, .inf t => fpInf f t
  | .fin s j, .fin t k =>
    if s = t then roundW f s (j + k) 1
    else if j = k then posZero
    else if k < j then roundW f s (j - k) 1
    else roundW f t (k - j) 1

/-- The value with its sign flipped. -/
def negVal : FpVal → FpVal
  | .nan => .nan
  | .inf s => .inf (!s)
  | .fin s k => .fin (!s) k

/-- `a +W b` (00_scope.md R10). -/
def fpAdd (f : Fmt) (a b : Sample) : Sample := addVals f (nanW f .add a b) (fpVal f a) (fpVal f b)

/-- `a -W b` (00_scope.md R10). -/
def fpSub (f : Fmt) (a b : Sample) : Sample := addVals f (nanW f .sub a b) (fpVal f a) (negVal (fpVal f b))

/-- `a *W b` (00_scope.md R10). -/
def fpMul (f : Fmt) (a b : Sample) : Sample :=
  match fpVal f a, fpVal f b with
  | .nan, _ => nanW f .mul a b
  | .inf _, .nan => nanW f .mul a b
  | .fin _ _, .nan => nanW f .mul a b
  | .inf s, .inf t => fpInf f (s != t)
  | .inf s, .fin t k => if k = 0 then nanW f .mul a b else fpInf f (s != t)
  | .fin s j, .inf t => if j = 0 then nanW f .mul a b else fpInf f (s != t)
  | .fin s j, .fin t k => roundW f (s != t) (j * k) (2 ^ quantum f)

/-- `a /W b` (00_scope.md R10). -/
def fpDiv (f : Fmt) (a b : Sample) : Sample :=
  match fpVal f a, fpVal f b with
  | .nan, _ => nanW f .div a b
  | .inf _, .nan => nanW f .div a b
  | .fin _ _, .nan => nanW f .div a b
  | .inf _, .inf _ => nanW f .div a b
  | .inf s, .fin t _ => fpInf f (s != t)
  | .fin s _, .inf t => withSign f (s != t) 0
  | .fin s j, .fin t k =>
    if k = 0 then (if j = 0 then nanW f .div a b else fpInf f (s != t))
    else roundW f (s != t) (j * 2 ^ quantum f) k

/-- `fmodW(a, b)` (00_scope.md R10): the exact remainder of the truncated quotient, with the sign of `a`. -/
def fpMod (f : Fmt) (a b : Sample) : Sample :=
  match fpVal f a, fpVal f b with
  | .nan, _ => nanW f .fmod a b
  | .inf _, _ => nanW f .fmod a b
  | .fin _ _, .nan => nanW f .fmod a b
  | .fin _ _, .inf _ => a
  | .fin s j, .fin _ k => if k = 0 then nanW f .fmod a b else roundW f s (j % k) 1

/-- `-W a` (00_scope.md R10): the sign bit flipped. -/
def fpNeg (f : Fmt) (a : Sample) : Sample := a ^^^ BitVec.ofNat 64 (2 ^ signPos f)

/-- The signed number of quanta of a finite value. -/
def signedQuanta (neg : Bool) (k : Nat) : Int := if neg then -(k : Int) else (k : Int)

/-- `<` on values: false with a NaN (00_scope.md R10). -/
def valLt : FpVal → FpVal → Bool
  | .nan, _ => false
  | .inf _, .nan => false
  | .fin _ _, .nan => false
  | .inf s, .inf t => s && !t
  | .inf s, .fin _ _ => s
  | .fin _ _, .inf t => !t
  | .fin s j, .fin t k => decide (signedQuanta s j < signedQuanta t k)

/-- `=` on values: false with a NaN, true for zeros of either sign (00_scope.md R10). -/
def valEq : FpVal → FpVal → Bool
  | .nan, _ => false
  | .inf _, .nan => false
  | .fin _ _, .nan => false
  | .inf s, .inf t => s == t
  | .inf _, .fin _ _ => false
  | .fin _ _, .inf _ => false
  | .fin s j, .fin t k => decide (signedQuanta s j = signedQuanta t k)

/-- `a < b` (00_scope.md R10). -/
def fpLt (f : Fmt) (a b : Sample) : Bool := valLt (fpVal f a) (fpVal f b)

/-- `a = b` (00_scope.md R10). -/
def fpEq (f : Fmt) (a b : Sample) : Bool := valEq (fpVal f a) (fpVal f b)

/-- `a <= b` (00_scope.md R10). -/
def fpLe (f : Fmt) (a b : Sample) : Bool := fpLt f a b || fpEq f a b

/-- `isFinite(v)` (00_scope.md R10). -/
def isFinite (f : Fmt) (a : Sample) : Bool :=
  match fpVal f a with
  | .nan => false
  | .inf _ => false
  | .fin _ _ => true

/-- `isFinite(v) and v > 0`, the check of 41_oscillator.md R120, 42_biquad.md R141 and 45_graph.md R220. -/
def finitePos (f : Fmt) (a : Sample) : Bool := isFinite f a && fpLt f posZero a

/-- `toW(v)` (00_scope.md R10, 40_command_common.md R107): the identity when W is binary64. -/
def toW (f : Fmt) (v : Word) : Sample :=
  match f with
  | .binary64 => v
  | .binary32 =>
    match fpVal .binary64 v with
    | .nan => nanW .binary32 .toW v v
    | .inf s => fpInf .binary32 s
    | .fin s k => roundW .binary32 s k (2 ^ (quantum .binary64 - quantum .binary32))

/-- `to64(v)` (00_scope.md R10, 40_command_common.md R107): exact. A binary32 NaN becomes some binary64 NaN (log 6). -/
def to64 (f : Fmt) (v : Sample) : Word :=
  match f with
  | .binary64 => v
  | .binary32 =>
    match fpVal .binary32 v with
    | .nan => nanW .binary64 .to64 v v
    | .inf s => fpInf .binary64 s
    | .fin s k => roundW .binary64 s (k * 2 ^ (quantum .binary64 - quantum .binary32)) 1

/-- `intToW(n)` (00_scope.md R10). -/
def intToW (f : Fmt) (n : Nat) : Sample := roundW f false (n * 2 ^ quantum f) 1

/-- 1.0 (00_scope.md R13). -/
def oneW : Fmt → Sample
  | .binary32 => 0x3F800000#64
  | .binary64 => 0x3FF0000000000000#64

/-- 2.0 (00_scope.md R13). -/
def twoW : Fmt → Sample
  | .binary32 => 0x40000000#64
  | .binary64 => 0x4000000000000000#64

/-- `PI_W` (00_scope.md R13). -/
def piW : Fmt → Sample
  | .binary32 => 0x40490FDB#64
  | .binary64 => 0x400921FB54442D18#64

/-- `TWO_PI_W` (00_scope.md R13). -/
def twoPiW : Fmt → Sample
  | .binary32 => 0x40C90FDB#64
  | .binary64 => 0x401921FB54442D18#64

/-- `ceil64(t)` of a non-negative finite value given in binary64 quanta (00_scope.md R14). -/
def ceilQuanta (k : Nat) : Nat := (k + (2 ^ quantum .binary64 - 1)) / 2 ^ quantum .binary64

/-- `roundTA(t)`, `floor(t + 1/2)` computed exactly, of a non-negative finite value given in binary64 quanta
(00_scope.md R14). -/
def roundTAQuanta (k : Nat) : Nat := (2 * k + 2 ^ quantum .binary64) / (2 * 2 ^ quantum .binary64)

/-- `-0` is stored as `+0` (43_envelope.md R160, 44_delay.md R192, 45_graph.md R220: `if v = 0: v <- +0`). -/
def dropZeroSign (f : Fmt) (v : Sample) : Sample := if fpEq f v posZero then posZero else v

end Sys2Proof.Machine
end

