-- ==== Sys2Proof/Machine/Operands.lean ====
section
/-! DEFINITION. The operand forms (30_encoding.md R84, R89): a register's 64 bits as a binary64 value or as an unsigned
integer, and the conversions a command makes when it reads one (40_command_common.md R107). -/

namespace Sys2Proof.Machine

open Sys2Proof

/-- `f64(ARGi)`: the register's 64 bits as a binary64 value, NaN and infinities included (30_encoding.md R89). -/
def f64 (v : Word) : Word := v

/-- `u64(ARGi)`: the register's 64 bits as an unsigned integer, compared unbounded (30_encoding.md R84, R89). -/
def u64 (v : Word) : Nat := v.toNat

/-- `toW(f64(ARGi))`: a floating operand converted once to the working format (40_command_common.md R107). -/
def sampleArg (p : Params) (v : Word) : Sample := toW p.fmt (f64 v)

end Sys2Proof.Machine
end

