-- ==== Sys2Proof/Machine/Ops.lean ====
section
/-! DEFINITION. The operations every command shares: unit access, RESULT, the error entry and the recovery from it, the
common checks and the execution cycle (40_command_common.md R100 to R103, 60_exceptions.md R243 to R250). -/

namespace Sys2Proof.Machine

open Sys2Proof

/-- `OSC[u]` (00_scope.md R9). -/
def oscAt (s : State) (u : Nat) : OscUnit := s.osc.getD u OscUnit.reset

/-- `FLT[u]` (00_scope.md R9). -/
def fltAt (s : State) (u : Nat) : FltUnit := s.flt.getD u FltUnit.reset

/-- `ENV[u]` (00_scope.md R9). -/
def envAt (s : State) (u : Nat) : EnvUnit := s.env.getD u EnvUnit.reset

/-- `DLY[u]` (00_scope.md R9). -/
def dlyAt (s : State) (u : Nat) : DlyUnit := s.dly.getD u DlyUnit.reset

/-- `OSC[u] <- o`. -/
def setOsc (s : State) (u : Nat) (o : OscUnit) : State := { s with osc := s.osc.set u o }

/-- `FLT[u] <- x`. -/
def setFlt (s : State) (u : Nat) (x : FltUnit) : State := { s with flt := s.flt.set u x }

/-- `ENV[u] <- e`. -/
def setEnv (s : State) (u : Nat) (e : EnvUnit) : State := { s with env := s.env.set u e }

/-- `DLY[u] <- l`, with its delay RAM. -/
def setDly (s : State) (u : Nat) (l : DlyUnit) : State := { s with dly := s.dly.set u l }

/-- `RESULT <- to64(y)` (10_state.md R25). -/
def setResult (s : State) (y : Sample) : State := { s with result := to64 s.params.fmt y }

/-- `STATUS <- st`. -/
def setStatus (s : State) (st : Status) : State := { s with status := st }

/-- An error a check raises: its code and the unit it names (00_scope.md R9, `raise`). -/
structure CmdError where
  code : ErrCode
  unit : BitVec 8
  deriving DecidableEq, Repr

/-- PREPARE is the one command a fault does not gate, and whose failure unprepares the core (40_command_common.md R101,
60_exceptions.md R246). -/
def isPrepare (i : Instr) : Bool := i == .prepare

/-- TAKING AN ERROR, the only exception of this hardware (60_exceptions.md R246): the first error is recorded, `FAULT` is
set, and a failing PREPARE clears `PREPARED`. Nothing else changes. -/
def errorEntry (e : CmdError) (word : CmdWord) (byPrepare : Bool) (s : State) : State :=
  { s with
    status :=
      { prepared := if byPrepare then false else s.status.prepared
        fault := true
        errCode := if s.status.fault then s.status.errCode else e.code
        errUnit := if s.status.fault then s.status.errUnit else e.unit }
    errCmd := if s.status.fault then s.errCmd else word }

/-- THE WAY BACK from an error (60_exceptions.md R248): what a successful PREPARE leaves in `STATUS` and `ERRCMD`. -/
def recover (s : State) : State :=
  { s with status := { prepared := true, fault := false, errCode := .noError, errUnit := 0#8 }, errCmd := 0#32 }

/-- The fault gate (40_command_common.md R101, 60_exceptions.md R247): while `FAULT = 1` a command other than PREPARE is
ignored. -/
def ignored (s : State) (i : Instr) : Bool := s.status.fault && !isPrepare i

/-- The common checks of a legal word, in order (40_command_common.md R102). -/
def commonChecks (s : State) (i : Instr) : Except CmdError Unit :=
  if !isPrepare i && !s.status.prepared then .error { code := .prgNotPrepared, unit := 0#8 }
  else if !i.wf s.params then .error { code := .prgBadUnit, unit := unitOf i }
  else .ok ()

/-- The end of a command (40_command_common.md R101, R103): its new state, or the error entry with its word. -/
def finish (s : State) (i : Instr) : Except CmdError State → State
  | .ok t => t
  | .error e => errorEntry e (encode i) (isPrepare i) s

/-- The execution cycle of a legal word (40_command_common.md R101): the fault gate, the common checks, the command's own
rule. `body` makes the command's own checks and gives the state after its writes. -/
def runCommand (i : Instr) (body : State → Except CmdError State) (s : State) : Host.Outcome State Fault Refusal :=
  if ignored s i then .next s
  else
    match commonChecks s i with
    | .error e => .next (finish s i (.error e))
    | .ok _ => .next (finish s i (body s))

/-- The execution cycle of an ILLEGAL word (40_command_common.md R101, R102; 30_encoding.md R86): ignored while faulted, else
`PRG_ILLEGAL_COMMAND`. -/
def illegalCommand (word : CmdWord) (s : State) : State :=
  if s.status.fault then s else errorEntry { code := .prgIllegalCommand, unit := 0#8 } word false s

end Sys2Proof.Machine
end

