-- ==== Sys2Proof/Machine/Trig.lean ====
section
/-! DEFINITION. The configuration functions sinW and cosW (00_scope.md R6, R15): any functions with the properties of R15,
or the correctly rounded ones, computed with exact integers and a certificate (log 7, log 8). -/

namespace Sys2Proof.Machine

open Sys2Proof

/-- Bits after the point with which arguments are reduced. -/
def reduceBits : Nat := 1500

/-- `floor(π/2 * 2 ^ reduceBits)`. -/
def halfPi : Nat :=
  0x1921fb54442d18469898cc51701b839a252049c1114cf98e804177d4c76273644a29410f31c6809bbdf2a33679a748636605614dbe4be286e9fc26adadaa3848bc90b6aecc4bcfd8de89885d34c6fdad617feb96de80d6fdbdc70d7f6b5133f4b5d3e4822f8963fcc9250cca3d9c8b67b8400f97142c77e0b31b4906c38aba734d22c7f51fa499ebf06caba47b9475b2c38c5e6ac410aa5773daa520ee12d2cdace186a9c95793009e2e8d811943042f86520bc8c5c6d9c77c73cee5

/-- Bits after the point with which a series is summed: enough that even the result for an argument of one quantum keeps
several hundred correct bits. -/
def seriesBits (f : Fmt) (k : Nat) : Nat := if k < 2 ^ (quantum f - 64) then quantum f + 256 else 400

/-- The Taylor series with terms `t, -t*x²/((n+1)(n+2)), …`, summed as the positive terms and the negative terms, in
units of `2 ^ (-p)`; `sq` is `x²` in the same units. Terms that have become 0 end it. -/
def taylor (p sq : Nat) : Nat → Nat → Nat → Nat → Nat → Nat × Nat
  | 0, _, _, pos, neg => (pos, neg)
  | fuel + 1, n, t, pos, neg =>
    if t = 0 then (pos, neg)
    else
      let t1 := t * sq / 2 ^ p / ((n + 1) * (n + 2))
      taylor p sq fuel (n + 4) (t1 * sq / 2 ^ p / ((n + 3) * (n + 4))) (pos + t) (neg + t1)

/-- `sin r` and `cos r` of `0 <= r < π/2` in units of `2 ^ (-p)`, each with an error below `seriesError` units. -/
def sinCosUnits (p r : Nat) : Nat × Nat :=
  let sq := r * r / 2 ^ p
  let s := taylor p sq 100 1 r 0 0
  let c := taylor p sq 100 0 (2 ^ p) 0 0
  (s.1 - s.2, c.1 - c.2)

/-- A bound on the error of `sinCosUnits`, generous: one unit for each of at most 400 truncated divisions, the
truncated argument and the truncated π. -/
def seriesError : Nat := 2 ^ 16

/-- Round `v` units of `2 ^ (-p)` to format `f`, where every value within `seriesError` units rounds alike; none where the
error could matter, so that an answer is correctly rounded. -/
def roundCertified (f : Fmt) (neg : Bool) (p v : Nat) : Option Sample :=
  let lo := roundMag f ((v - seriesError) * 2 ^ quantum f) (2 ^ p)
  let hi := roundMag f ((v + seriesError) * 2 ^ quantum f) (2 ^ p)
  if lo = hi then some (withSign f neg lo) else none

/-- The quadrant of `k` quanta modulo 4, the sine and the cosine of the rest, and their unit's exponent. -/
def reduced (f : Fmt) (k : Nat) : Nat × Nat × Nat × Nat :=
  let x := k * 2 ^ (reduceBits - quantum f)
  let p := seriesBits f k
  let sc := sinCosUnits p (x % halfPi / 2 ^ (reduceBits - p))
  (x / halfPi % 4, sc.1, sc.2, p)

/-- The correctly rounded sine of `± k` quanta; sine is odd. -/
def sinRounded (f : Fmt) (neg : Bool) (k : Nat) : Option Sample :=
  let (q, s, c, p) := reduced f k
  match q with
  | 0 => roundCertified f neg p s
  | 1 => roundCertified f neg p c
  | 2 => roundCertified f (!neg) p s
  | _ => roundCertified f (!neg) p c

/-- The correctly rounded cosine of `± k` quanta; cosine is even. -/
def cosRounded (f : Fmt) (k : Nat) : Option Sample :=
  let (q, s, c, p) := reduced f k
  match q with
  | 0 => roundCertified f false p c
  | 1 => roundCertified f true p s
  | 2 => roundCertified f true p c
  | _ => roundCertified f false p s

/-- A value kept to [-1, 1] (00_scope.md R15): one outside it, which only a draw can be, counts as +0. -/
def inUnitRange (f : Fmt) (v : Sample) : Sample :=
  if fpLe f (fpNeg f (oneW f)) v && fpLe f v (oneW f) then v else posZero

/-- The correctly rounded answer where the parameters choose it and the certificate gives it; else the free value. -/
def trigAnswer (t : TrigMode) (f : Fmt) (rounded : Option Sample) (drawn : Sample) : Sample :=
  match t with
  | .free => inUnitRange f drawn
  | .correctlyRounded => inUnitRange f (rounded.getD drawn)

/-- `sinW` (00_scope.md R15): `sinW(+0) = +0`, in [-1, 1] for a finite argument, a NaN for an infinite or NaN one. -/
def sinW (t : TrigMode) (f : Fmt) (x : Sample) : Sample :=
  match fpVal f x with
  | .nan => nanW f .sin x x
  | .inf _ => nanW f .sin x x
  | .fin neg k =>
    if k = 0 && !neg then posZero
    else trigAnswer t f (sinRounded f neg k) (Config.sinDraw f x)

/-- `cosW` (00_scope.md R15): `cosW(+0) = 1`, in [-1, 1] for a finite argument, a NaN for an infinite or NaN one. -/
def cosW (t : TrigMode) (f : Fmt) (x : Sample) : Sample :=
  match fpVal f x with
  | .nan => nanW f .cos x x
  | .inf _ => nanW f .cos x x
  | .fin neg k =>
    if k = 0 && !neg then oneW f
    else trigAnswer t f (cosRounded f k) (Config.cosDraw f x)

end Sys2Proof.Machine
end

