-- ==== Sys2Proof/Machine/Biquad.lean ====
section
/-! DEFINITION. The biquad lowpass filter: its shared functions and its three commands (42_biquad.md). -/

namespace Sys2Proof.Machine

open Sys2Proof

/-- The five coefficients, normalised so that `a0 = 1` (10_state.md R32). -/
structure Coefs where
  b0 : Sample
  b1 : Sample
  b2 : Sample
  a1 : Sample
  a2 : Sample
  deriving DecidableEq, Repr

/-- `fltCheck(fcW, qW, u)` (42_biquad.md R141): the cutoff first, then Q. -/
def fltCheck (f : Fmt) (srW fcW qW : Sample) (u : BitVec 8) : Except CmdError Unit :=
  if !(finitePos f fcW && fpLt f fcW (fpDiv f srW (twoW f))) then .error { code := .cfgCutoff, unit := u }
  else if !finitePos f qW then .error { code := .cfgQ, unit := u }
  else .ok ()

/-- `fltCoef(fcW, qW)` (42_biquad.md R142), in the order that rule writes. -/
def fltCoef (p : Params) (srW fcW qW : Sample) : Coefs :=
  let f := p.fmt
  let w0 := fpDiv f (fpMul f (twoPiW f) fcW) srW
  let cs := cosW p.trig f w0
  let sn := sinW p.trig f w0
  let alpha := fpDiv f sn (fpMul f (twoW f) qW)
  let a0 := fpAdd f (oneW f) alpha
  let t := fpSub f (oneW f) cs
  let b0 := fpDiv f (fpDiv f t (twoW f)) a0
  { b0 := b0
    b1 := fpDiv f t a0
    b2 := b0
    a1 := fpDiv f (fpNeg f (fpMul f (twoW f) cs)) a0
    a2 := fpDiv f (fpSub f (oneW f) alpha) a0 }

/-- All five coefficients are finite (42_biquad.md R140, R142). -/
def coefsFinite (f : Fmt) (c : Coefs) : Bool :=
  isFinite f c.b0 && isFinite f c.b1 && isFinite f c.b2 && isFinite f c.a1 && isFinite f c.a2

/-- The parameter check and the coefficients of FLT_SET_PARAMS and PREPARE (42_biquad.md R140, 45_graph.md R220): the
converted cutoff and Q and the coefficients. -/
def fltParams (p : Params) (srW : Sample) (cutoff q : Word) (u : BitVec 8) : Except CmdError (Sample × Sample × Coefs) :=
  let fcW := sampleArg p cutoff
  let qW := sampleArg p q
  match fltCheck p.fmt srW fcW qW u with
  | .error e => .error e
  | .ok _ =>
    let c := fltCoef p srW fcW qW
    if coefsFinite p.fmt c then .ok (fcW, qW, c) else .error { code := .cfgQ, unit := u }

/-- The parameters and coefficients of a filter replaced, its history kept (42_biquad.md R140). -/
def withCoefs (x : FltUnit) (fcW qW : Sample) (c : Coefs) : FltUnit :=
  { x with fc := fcW, q := qW, b0 := c.b0, b1 := c.b1, b2 := c.b2, a1 := c.a1, a2 := c.a2 }

/-- `fltStep(u, x)` on the unit's state (42_biquad.md R149). -/
def fltStep (f : Fmt) (u : FltUnit) (x : Sample) : Sample × FltUnit :=
  let y :=
    fpSub f
      (fpSub f (fpAdd f (fpAdd f (fpMul f u.b0 x) (fpMul f u.b1 u.x1)) (fpMul f u.b2 u.x2)) (fpMul f u.a1 u.y1))
      (fpMul f u.a2 u.y2)
  (y, { u with x2 := u.x1, x1 := x, y2 := u.y1, y1 := y })

/-- The history zeroed (42_biquad.md R144). -/
def clearHistory (u : FltUnit) : FltUnit := { u with x1 := posZero, x2 := posZero, y1 := posZero, y2 := posZero }

/-- FLT_SET_PARAMS (42_biquad.md R140). -/
def execFltSetParams (u : BitVec 8) (s : State) : Host.Outcome State Fault Refusal :=
  runCommand (.fltSetParams u)
    (fun s =>
      match fltParams s.params s.srW s.arg0 s.arg1 u with
      | .error e => .error e
      | .ok (fcW, qW, c) => .ok (setFlt s u.toNat (withCoefs (fltAt s u.toNat) fcW qW c))) s

/-- FLT_PROCESS (42_biquad.md R143). -/
def execFltProcess (u : BitVec 8) (s : State) : Host.Outcome State Fault Refusal :=
  runCommand (.fltProcess u)
    (fun s =>
      let (y, x) := fltStep s.params.fmt (fltAt s u.toNat) (sampleArg s.params s.arg0)
      .ok (setResult (setFlt s u.toNat x) y)) s

/-- FLT_RESET (42_biquad.md R144). -/
def execFltReset (u : BitVec 8) (s : State) : Host.Outcome State Fault Refusal :=
  runCommand (.fltReset u) (fun s => .ok (setFlt s u.toNat (clearHistory (fltAt s u.toNat)))) s

end Sys2Proof.Machine
end

