-- ==== Sys2Proof/Machine/Delay.lean ====
section
/-! DEFINITION. The feedback delay line: its shared functions and its four commands (44_delay.md). -/

namespace Sys2Proof.Machine

open Sys2Proof

/-- `dlyCap(sec, u)` (44_delay.md R191): one binary64 product, rounded up to a whole number. -/
def dlyCap (maxDelay : Nat) (sr64 sec : Word) (u : BitVec 8) : Except CmdError Nat :=
  let bad : CmdError := { code := .cfgDelayLength, unit := u }
  if !finitePos .binary64 sec then .error bad
  else
    match fpVal .binary64 (fpMul .binary64 sec sr64) with
    | .nan => .error bad
    | .inf _ => .error bad
    | .fin _ k => if ceilQuanta k < 1 ∨ maxDelay < ceilQuanta k then .error bad else .ok (ceilQuanta k)

/-- The feedback check (44_delay.md R192, 45_graph.md R220): `0 <= g < 1` after conversion, -0 stored as +0. -/
def feedbackGain (f : Fmt) (v : Word) (u : BitVec 8) : Except CmdError Sample :=
  let gW := toW f (f64 v)
  if fpLe f posZero gW && fpLt f gW (oneW f) then .ok (dropZeroSign f gW) else .error { code := .cfgFeedback, unit := u }

/-- A word of the delay RAM; every word has a value (Machine/Mem.lean, log 4). -/
def dramRead (m : Mem) (i : Nat) : Sample := (memRead .dram m i).getD posZero

/-- `dlyStep(u, x)` on the unit's state (44_delay.md R195): read first, write the output into the same slot, advance the
index modulo `D`. -/
def dlyStep (f : Fmt) (l : DlyUnit) (x : Sample) : Sample × DlyUnit :=
  let y := fpAdd f x (fpMul f l.g (dramRead l.dram l.w))
  (y, { l with dram := memWrite .dram l.dram l.w y, w := (l.w + 1) % l.d })

/-- The active delay replaced, the index reduced, the contents kept (44_delay.md R190). -/
def withDelay (l : DlyUnit) (n : Nat) : DlyUnit := { l with d := n, w := l.w % n }

/-- The words below `C` zeroed and the index at 0 (44_delay.md R194). -/
def clearLine (l : DlyUnit) : DlyUnit := { l with dram := zeroBelow l.dram l.c, w := 0 }

/-- DLY_SET_DELAY (44_delay.md R190). -/
def execDlySetDelay (u : BitVec 8) (s : State) : Host.Outcome State Fault Refusal :=
  runCommand (.dlySetDelay u)
    (fun s =>
      let n := u64 s.arg0
      if 1 ≤ n ∧ n ≤ (dlyAt s u.toNat).c then .ok (setDly s u.toNat (withDelay (dlyAt s u.toNat) n))
      else .error { code := .cfgDelayLength, unit := u }) s

/-- DLY_SET_FEEDBACK (44_delay.md R192). -/
def execDlySetFeedback (u : BitVec 8) (s : State) : Host.Outcome State Fault Refusal :=
  runCommand (.dlySetFeedback u)
    (fun s =>
      match feedbackGain s.params.fmt s.arg0 u with
      | .error e => .error e
      | .ok gW => .ok (setDly s u.toNat { dlyAt s u.toNat with g := gW })) s

/-- DLY_PROCESS (44_delay.md R193). -/
def execDlyProcess (u : BitVec 8) (s : State) : Host.Outcome State Fault Refusal :=
  runCommand (.dlyProcess u)
    (fun s =>
      let (y, l) := dlyStep s.params.fmt (dlyAt s u.toNat) (sampleArg s.params s.arg0)
      .ok (setResult (setDly s u.toNat l) y)) s

/-- DLY_RESET (44_delay.md R194). -/
def execDlyReset (u : BitVec 8) (s : State) : Host.Outcome State Fault Refusal :=
  runCommand (.dlyReset u) (fun s => .ok (setDly s u.toNat (clearLine (dlyAt s u.toNat)))) s

end Sys2Proof.Machine
end

