-- ==== Sys2Proof/Machine/Envelope.lean ====
section
/-! DEFINITION. The ADSR envelope: its stage machine and its four commands (43_envelope.md). -/

namespace Sys2Proof.Machine

open Sys2Proof

/-- The largest u32 (43_envelope.md R161, 40_command_common.md R105). -/
def u32Max : Nat := 2 ^ 32 - 1

/-- `durSamples(sec, u)` (43_envelope.md R161): one binary64 product, rounded to a whole number, ties away from zero. -/
def durSamples (sr64 sec : Word) (u : BitVec 8) : Except CmdError Nat :=
  let bad : CmdError := { code := .cfgEnvelope, unit := u }
  if !(isFinite .binary64 sec && fpLe .binary64 posZero sec) then .error bad
  else
    match fpVal .binary64 (fpMul .binary64 sec sr64) with
    | .nan => .error bad
    | .inf _ => .error bad
    | .fin _ k => if u32Max < roundTAQuanta k then .error bad else .ok (roundTAQuanta k)

/-- The checked parameters of an envelope (10_state.md R34). -/
structure EnvParams where
  na : Nat
  nd : Nat
  s : Sample
  nr : Nat
  deriving DecidableEq, Repr

/-- The sustain check (43_envelope.md R160): `0 <= S <= 1` after conversion, -0 stored as +0. -/
def sustainLevel (f : Fmt) (v : Word) (u : BitVec 8) : Except CmdError Sample :=
  let sW := toW f (f64 v)
  if fpLe f posZero sW && fpLe f sW (oneW f) then .ok (dropZeroSign f sW) else .error { code := .cfgEnvelope, unit := u }

/-- The parameter checks of ENV_SET_PARAMS and PREPARE, in operand order (43_envelope.md R160, 45_graph.md R220). -/
def envParams (f : Fmt) (sr64 attackSec decaySec sustain releaseSec : Word) (u : BitVec 8) : Except CmdError EnvParams :=
  match durSamples sr64 (f64 attackSec) u with
  | .error e => .error e
  | .ok na =>
    match durSamples sr64 (f64 decaySec) u with
    | .error e => .error e
    | .ok nd =>
      match sustainLevel f sustain u with
      | .error e => .error e
      | .ok sW =>
        match durSamples sr64 (f64 releaseSec) u with
        | .error e => .error e
        | .ok nr => .ok { na := na, nd := nd, s := sW, nr := nr }

/-- `rampLevel(start, target, n, N)` (43_envelope.md R163). -/
def rampLevel (f : Fmt) (start target : Sample) (n dur : Nat) : Sample :=
  fpAdd f start (fpMul f (fpSub f target start) (fpDiv f (intToW f n) (intToW f dur)))

/-- `enterSustain(u)` (43_envelope.md R166). -/
def enterSustain (e : EnvUnit) : EnvUnit := { e with level := e.s, n := 0, stage := .sustain }

/-- `enterOff(u)` (43_envelope.md R168). -/
def enterOff (e : EnvUnit) : EnvUnit := { e with level := posZero, n := 0, stage := .off }

/-- `complete(u)` in Decay (43_envelope.md R169): the level is exactly `S`, then Sustain. -/
def completeDecay (e : EnvUnit) : EnvUnit := enterSustain { e with level := e.s }

/-- `complete(u)` in Release (43_envelope.md R169): the level is exactly 0, then Off. -/
def completeRelease (e : EnvUnit) : EnvUnit := enterOff { e with level := posZero }

/-- `enterDecay(u)` (43_envelope.md R165). -/
def enterDecay (e : EnvUnit) : EnvUnit :=
  let e1 : EnvUnit := { e with start := e.level, n := 0, stage := .decay }
  if e.nd = 0 then completeDecay e1 else e1

/-- `complete(u)` in Attack (43_envelope.md R169): the level is exactly 1, then Decay. -/
def completeAttack (f : Fmt) (e : EnvUnit) : EnvUnit := enterDecay { e with level := oneW f }

/-- `enterAttack(u)` (43_envelope.md R164). -/
def enterAttack (p : Params) (e : EnvUnit) : EnvUnit :=
  let from0 := if p.attackFromCurrent then e.level else posZero
  let e1 : EnvUnit := { e with start := from0, level := from0, n := 0, stage := .attack }
  if e.na = 0 then completeAttack p.fmt e1 else e1

/-- `enterRelease(u)` (43_envelope.md R167). -/
def enterRelease (e : EnvUnit) : EnvUnit :=
  let e1 : EnvUnit := { e with start := e.level, n := 0, stage := .release }
  if e.nr = 0 then completeRelease e1 else e1

/-- `complete(u)` (43_envelope.md R169); only a ramp stage completes. -/
def complete (f : Fmt) (e : EnvUnit) : EnvUnit :=
  match e.stage with
  | .attack => completeAttack f e
  | .decay => completeDecay e
  | .release => completeRelease e
  | .idle => e
  | .sustain => e
  | .off => e

/-- One sample of a ramp stage (43_envelope.md R173): completion at `n + 1 >= N`, else the ramp's level. -/
def rampStep (f : Fmt) (target : Sample) (dur : Nat) (e : EnvUnit) : EnvUnit :=
  let e1 := { e with n := e.n + 1 }
  if dur ≤ e1.n then complete f e1 else { e1 with level := rampLevel f e1.start target e1.n dur }

/-- `envStep(u)` on the unit's state (43_envelope.md R173): the level before the advance. -/
def envStep (f : Fmt) (e : EnvUnit) : Sample × EnvUnit :=
  (e.level,
    match e.stage with
    | .attack => rampStep f (oneW f) e.na e
    | .decay => rampStep f e.s e.nd e
    | .release => rampStep f posZero e.nr e
    | .sustain => { e with level := e.s }
    | .idle => e
    | .off => e)

/-- The four parameters replaced; in Sustain the level moves to the new `S` at once (43_envelope.md R160). -/
def withEnvParams (e : EnvUnit) (q : EnvParams) : EnvUnit :=
  { e with na := q.na, nd := q.nd, s := q.s, nr := q.nr, level := if e.stage = .sustain then q.s else e.level }

/-- The release of ENV_NOTE_OFF, from Attack, Decay and Sustain only (43_envelope.md R171). -/
def noteOff (e : EnvUnit) : EnvUnit :=
  match e.stage with
  | .attack => enterRelease e
  | .decay => enterRelease e
  | .sustain => enterRelease e
  | .idle => e
  | .release => e
  | .off => e

/-- ENV_SET_PARAMS (43_envelope.md R160). -/
def execEnvSetParams (u : BitVec 8) (s : State) : Host.Outcome State Fault Refusal :=
  runCommand (.envSetParams u)
    (fun s =>
      match envParams s.params.fmt s.sr64 s.arg0 s.arg1 s.arg2 s.arg3 u with
      | .error e => .error e
      | .ok q => .ok (setEnv s u.toNat (withEnvParams (envAt s u.toNat) q))) s

/-- ENV_NOTE_ON (43_envelope.md R170). -/
def execEnvNoteOn (u : BitVec 8) (s : State) : Host.Outcome State Fault Refusal :=
  runCommand (.envNoteOn u) (fun s => .ok (setEnv s u.toNat (enterAttack s.params (envAt s u.toNat)))) s

/-- ENV_NOTE_OFF (43_envelope.md R171). -/
def execEnvNoteOff (u : BitVec 8) (s : State) : Host.Outcome State Fault Refusal :=
  runCommand (.envNoteOff u) (fun s => .ok (setEnv s u.toNat (noteOff (envAt s u.toNat)))) s

/-- ENV_NEXT (43_envelope.md R172). -/
def execEnvNext (u : BitVec 8) (s : State) : Host.Outcome State Fault Refusal :=
  runCommand (.envNext u)
    (fun s =>
      let (y, e) := envStep s.params.fmt (envAt s u.toNat)
      .ok (setResult (setEnv s u.toNat e) y)) s

end Sys2Proof.Machine
end

