-- ==== Sys2Proof/Machine/Oscillator.lean ====
section
/-! DEFINITION. The oscillator: its shared functions and its three commands (41_oscillator.md). -/

namespace Sys2Proof.Machine

open Sys2Proof

/-- `oscInc(fW) = (TWO_PI_W *W fW) /W SR_W` (41_oscillator.md R121). -/
def oscInc (f : Fmt) (srW fW : Sample) : Sample := fpDiv f (fpMul f (twoPiW f) fW) srW

/-- `sawW(p)` (41_oscillator.md R124). -/
def sawW (p : Params) (ph : Sample) : Sample :=
  match p.sawMode with
  | .centered => fpSub p.fmt (fpDiv p.fmt ph (piW p.fmt)) (oneW p.fmt)
  | .raw => fpDiv p.fmt ph (piW p.fmt)

/-- `waveOut(wave, p)` (41_oscillator.md R123). -/
def waveOut (p : Params) (w : Waveform) (ph : Sample) : Sample :=
  match w with
  | .sine => sinW p.trig p.fmt ph
  | .saw => sawW p ph

/-- `fmodW(phase +W inc, TWO_PI_W)` (41_oscillator.md R125). -/
def phaseAdvance (f : Fmt) (phase inc : Sample) : Sample := fpMod f (fpAdd f phase inc) (twoPiW f)

/-- `oscStep(u)` on the unit's state (41_oscillator.md R127): the output of the phase before the advance. -/
def oscStep (p : Params) (o : OscUnit) : Sample × OscUnit :=
  (waveOut p o.wave o.phase, { o with phase := phaseAdvance p.fmt o.phase o.inc })

/-- The frequency check of OSC_SET_FREQ and PREPARE (41_oscillator.md R120, 45_graph.md R220): the converted frequency and
its increment. -/
def oscFrequency (f : Fmt) (srW : Sample) (freq : Word) (u : BitVec 8) : Except CmdError (Sample × Sample) :=
  let fW := toW f (f64 freq)
  let incW := oscInc f srW fW
  if finitePos f fW && finitePos f incW then .ok (fW, incW) else .error { code := .cfgFrequency, unit := u }

/-- The waveform of a code (30_encoding.md R87). -/
def waveOfCode (imm : BitVec 16) : Option Waveform :=
  if imm = 0#16 then some .sine else if imm = 1#16 then some .saw else none

/-- OSC_SET_FREQ (41_oscillator.md R120). -/
def execOscSetFreq (u : BitVec 8) (s : State) : Host.Outcome State Fault Refusal :=
  runCommand (.oscSetFreq u)
    (fun s =>
      match oscFrequency s.params.fmt s.srW s.arg0 u with
      | .error e => .error e
      | .ok (fW, incW) => .ok (setOsc s u.toNat { oscAt s u.toNat with f := fW, inc := incW })) s

/-- OSC_SET_WAVE (41_oscillator.md R122). -/
def execOscSetWave (u : BitVec 8) (imm : BitVec 16) (s : State) : Host.Outcome State Fault Refusal :=
  runCommand (.oscSetWave u imm)
    (fun s =>
      match waveOfCode imm with
      | none => .error { code := .cfgWaveform, unit := u }
      | some w => .ok (setOsc s u.toNat { oscAt s u.toNat with wave := w })) s

/-- OSC_NEXT (41_oscillator.md R126). -/
def execOscNext (u : BitVec 8) (s : State) : Host.Outcome State Fault Refusal :=
  runCommand (.oscNext u)
    (fun s =>
      let (y, o) := oscStep s.params (oscAt s u.toNat)
      .ok (setResult (setOsc s u.toNat o) y)) s

end Sys2Proof.Machine
end

