-- ==== Sys2Proof/Machine/Graph.lean ====
section
/-! DEFINITION. The mixer, the graph and the commands PREPARE and PROCESS_BLOCK (45_graph.md). -/

namespace Sys2Proof.Machine

open Sys2Proof

/-- The checks of one kind of unit, in index order; the first that fails decides (45_graph.md R220, 60_exceptions.md R244). -/
def checkEach {α β : Type} (check : BitVec 8 → α → Except CmdError β) : Nat → List α → Except CmdError (List β)
  | _, [] => .ok []
  | u, r :: rest =>
    match check (BitVec.ofNat 8 u) r with
    | .error e => .error e
    | .ok b =>
      match checkEach check (u + 1) rest with
      | .error e => .error e
      | .ok bs => .ok (b :: bs)

/-- PREPARE's check of an oscillator and the unit it becomes, with phase +0 (45_graph.md R220). -/
def initOsc (p : Params) (srW : Sample) (u : BitVec 8) (r : OscInit) : Except CmdError OscUnit :=
  match oscFrequency p.fmt srW r.freq u with
  | .error e => .error e
  | .ok (fW, incW) => .ok { f := fW, inc := incW, phase := posZero, wave := r.wave }

/-- PREPARE's check of a filter and the unit it becomes, with zero history (45_graph.md R220). -/
def initFlt (p : Params) (srW : Sample) (u : BitVec 8) (r : FltInit) : Except CmdError FltUnit :=
  match fltParams p srW r.cutoff r.q u with
  | .error e => .error e
  | .ok (fcW, qW, c) => .ok (clearHistory (withCoefs FltUnit.reset fcW qW c))

/-- PREPARE's check of an envelope and the unit it becomes: Idle at +0, then the note-on if its record asks for one
(45_graph.md R220). -/
def initEnv (p : Params) (sr64 : Word) (u : BitVec 8) (r : EnvInit) : Except CmdError EnvUnit :=
  match envParams p.fmt sr64 r.attackSec r.decaySec r.sustain r.releaseSec u with
  | .error e => .error e
  | .ok q =>
    let e : EnvUnit :=
      { na := q.na, nd := q.nd, nr := q.nr, s := q.s, stage := .idle, level := posZero, n := 0, start := posZero }
    .ok (if r.triggerOnPrepare then enterAttack p e else e)

/-- PREPARE's checks of a delay line, capacity first, and the unit it becomes; its RAM is zeroed at the commit (45_graph.md
R220). -/
def initDly (p : Params) (sr64 : Word) (u : BitVec 8) (r : DlyInit) : Except CmdError DlyUnit :=
  match dlyCap p.maxDelay sr64 r.delaySeconds u with
  | .error e => .error e
  | .ok c =>
    match feedbackGain p.fmt r.feedback u with
    | .error e => .error e
    | .ok gW => .ok { c := c, d := c, g := gW, w := 0, dram := [] }

/-- The delay lines committed: each keeps its RAM, with the words below its new capacity zeroed (45_graph.md R220). -/
def commitDly : List DlyUnit → List DlyUnit → List DlyUnit
  | _, [] => []
  | old, l :: rest => { l with dram := zeroBelow (old.headD DlyUnit.reset).dram l.c } :: commitDly old.tail rest

/-- The units PREPARE builds (45_graph.md R220). -/
structure Units where
  osc : List OscUnit
  flt : List FltUnit
  env : List EnvUnit
  dly : List DlyUnit
  deriving DecidableEq, Repr

/-- Every unit check of PREPARE, in its order: oscillators, filters, envelopes, delay lines (45_graph.md R220). -/
def prepareUnits (p : Params) (sr64 : Word) (srW : Sample) : Except CmdError Units :=
  match checkEach (initOsc p srW) 0 p.graph.oscInit with
  | .error e => .error e
  | .ok osc =>
    match checkEach (initFlt p srW) 0 p.graph.fltInit with
    | .error e => .error e
    | .ok flt =>
      match checkEach (initEnv p sr64) 0 p.graph.envInit with
      | .error e => .error e
      | .ok env =>
        match checkEach (initDly p sr64) 0 p.graph.dlyInit with
        | .error e => .error e
        | .ok dly => .ok { osc := osc, flt := flt, env := env, dly := dly }

/-- The commit of PREPARE (45_graph.md R220): every global and unit written, the fault cleared. RESULT, OUTBUF, the operand
registers and the scratch buffers stay. -/
def commitPrepare (s : State) (sr64 : Word) (srW : Sample) (mbs : Nat) (us : Units) : State :=
  { recover s with
    sr64 := sr64, srW := srW, maxBlk := mbs, osc := us.osc, flt := us.flt, env := us.env, dly := commitDly s.dly us.dly }

/-- PREPARE's own checks and effect (45_graph.md R220). -/
def prepareBody (s : State) : Except CmdError State :=
  let sr64 := f64 s.arg0
  let mbs := u64 s.arg1
  if !finitePos .binary64 sr64 then .error { code := .cfgSampleRate, unit := 0#8 }
  else
    let srW := toW s.params.fmt sr64
    if !finitePos s.params.fmt srW then .error { code := .cfgSampleRate, unit := 0#8 }
    else if ¬(1 ≤ mbs ∧ mbs ≤ s.params.maxBlock) then .error { code := .cfgBlockSize, unit := 0#8 }
    else
      match prepareUnits s.params sr64 srW with
      | .error e => .error e
      | .ok us => .ok (commitPrepare s sr64 srW mbs us)

/-- PREPARE (45_graph.md R220). -/
def execPrepare (s : State) : Host.Outcome State Fault Refusal := runCommand .prepare prepareBody s

/-- A per-sample step run over a list of inputs, in index order (45_graph.md R224, `for i in 0 .. bs-1`). -/
def runSamples {σ : Type} (step : σ → Sample → Sample × σ) : σ → List Sample → List Sample × σ
  | st, [] => ([], st)
  | st, x :: xs =>
    let (y, st1) := step st x
    let (ys, st2) := runSamples step st1 xs
    (y :: ys, st2)

/-- `bs` samples of an oscillator (45_graph.md R224). -/
def oscBlock (p : Params) (o : OscUnit) (bs : Nat) : List Sample × OscUnit :=
  runSamples (fun o _ => oscStep p o) o (List.replicate bs posZero)

/-- A block through a filter (45_graph.md R224). -/
def fltBlock (f : Fmt) (u : FltUnit) (xs : List Sample) : List Sample × FltUnit := runSamples (fltStep f) u xs

/-- A block times an envelope's levels (45_graph.md R216). -/
def envBlock (f : Fmt) (e : EnvUnit) (xs : List Sample) : List Sample × EnvUnit :=
  runSamples (fun e x => (fpMul f x (envStep f e).1, (envStep f e).2)) e xs

/-- A block through a delay line (45_graph.md R224). -/
def dlyBlock (f : Fmt) (l : DlyUnit) (xs : List Sample) : List Sample × DlyUnit := runSamples (dlyStep f) l xs

/-- `mix(b, g, i)` for every `i` below `bs` (45_graph.md R210): from +0, streams in list order, each product and sum
rounded. -/
def mix (f : Fmt) (bs : Nat) (streams : List (Word × List Sample)) : List Sample :=
  streams.foldl (fun acc gb => List.zipWith (fun a b => fpAdd f a (fpMul f (toW f gb.1) b)) acc gb.2)
    (List.replicate bs posZero)

/-- The sources of a group in list order (45_graph.md R224). -/
def runSources (bs : Nat) : State → List Source → List (Word × List Sample) × State
  | s, [] => ([], s)
  | s, src :: rest =>
    let (ys, o) := oscBlock s.params (oscAt s src.osc) bs
    let (yss, t) := runSources bs (setOsc s src.osc o) rest
    ((src.gain, ys) :: yss, t)

/-- A group's filter, if any (45_graph.md R224). -/
def runFilter (s : State) (name : Option Nat) (xs : List Sample) : List Sample × State :=
  match name with
  | none => (xs, s)
  | some u =>
    let (ys, x) := fltBlock s.params.fmt (fltAt s u) xs
    (ys, setFlt s u x)

/-- A group's envelope multiply, if any (45_graph.md R216, R224). -/
def runEnvelope (s : State) (name : Option Nat) (xs : List Sample) : List Sample × State :=
  match name with
  | none => (xs, s)
  | some u =>
    let (ys, e) := envBlock s.params.fmt (envAt s u) xs
    (ys, setEnv s u e)

/-- The delay line, if any (45_graph.md R224). -/
def runDelay (s : State) (name : Option Nat) (xs : List Sample) : List Sample × State :=
  match name with
  | none => (xs, s)
  | some u =>
    let (ys, l) := dlyBlock s.params.fmt (dlyAt s u) xs
    (ys, setDly s u l)

/-- `SCRATCH` buffers written from index 0 on, one list of samples each (20_memory.md R67, 45_graph.md R224). -/
def fillBuffers : List Mem → List (List Sample) → List Mem
  | bufs, [] => bufs
  | bufs, ys :: rest => memWriteFrom .scratch (bufs.headD []) 0 ys :: fillBuffers bufs.tail rest

/-- What a group leaves in the scratch buffers `SRC_k`, `M` and `G_j` (45_graph.md R224; log 18). -/
def storeGroup (c : Scratch) (j : Nat) (srcs : List (List Sample)) (ys : List Sample) : Scratch :=
  { c with
    src := fillBuffers c.src srcs
    m := memWriteFrom .scratch c.m 0 ys
    g := c.g.set j (memWriteFrom .scratch (c.g.getD j []) 0 ys) }

/-- One group: its sources, its mix, its filter, its envelope multiply (45_graph.md R215, R224). -/
def runGroup (bs j : Nat) (s : State) (gr : Group) : List Sample × State :=
  let (srcs, s1) := runSources bs s gr.sources
  let (ms, s2) := runFilter s1 gr.filter (mix s.params.fmt bs srcs)
  let (ys, s3) := runEnvelope s2 gr.env ms
  (ys, { s3 with scratch := storeGroup s3.scratch j (srcs.map Prod.snd) ys })

/-- Every group in list order, with its output gain (45_graph.md R215, R224). -/
def runGroups (bs : Nat) : Nat → State → List Group → List (Word × List Sample) × State
  | _, s, [] => ([], s)
  | j, s, gr :: rest =>
    let (ys, s1) := runGroup bs j s gr
    let (yss, s2) := runGroups bs (j + 1) s1 rest
    ((gr.outGain, ys) :: yss, s2)

/-- A block: the groups, the final mix, the delay line; its output samples and the state they leave (45_graph.md R215,
R224). -/
def runGraph (s : State) (bs : Nat) : List Sample × State :=
  let (gs, s1) := runGroups bs 0 s s.params.graph.groups
  runDelay s1 s.params.graph.delay (mix s.params.fmt bs gs)

/-- PROCESS_BLOCK's effect for a legal block size (45_graph.md R224): the graph run, and its output in OUTBUF. -/
def blockResult (s : State) (bs : Nat) : State :=
  let (ys, t) := runGraph s bs
  { t with
    outbuf := memWriteFrom .outbuf t.outbuf 0 (ys.map (to64 s.params.fmt))
    scratch := { t.scratch with o := memWriteFrom .scratch t.scratch.o 0 ys } }

/-- PROCESS_BLOCK (45_graph.md R224). -/
def execProcessBlock (s : State) : Host.Outcome State Fault Refusal :=
  runCommand .processBlock
    (fun s =>
      if s.maxBlk < u64 s.arg0 then .error { code := .prgBlockTooLarge, unit := 0#8 }
      else .ok (blockResult s (u64 s.arg0))) s

end Sys2Proof.Machine
end

