-- ==== Sys2Proof/Machine/Dispatch.lean ====
section
/-! DEFINITION. One arm per command: each calls the command's meaning. -/

namespace Sys2Proof.Machine

open Sys2Proof

def exec (i : Instr) (s : State) : Host.Outcome State Fault Refusal :=
  match i with
  | .prepare => Sys2Proof.Machine.execPrepare s
  | .processBlock => Sys2Proof.Machine.execProcessBlock s
  | .oscSetFreq u => Sys2Proof.Machine.execOscSetFreq u s
  | .oscSetWave u imm => Sys2Proof.Machine.execOscSetWave u imm s
  | .oscNext u => Sys2Proof.Machine.execOscNext u s
  | .fltSetParams u => Sys2Proof.Machine.execFltSetParams u s
  | .fltProcess u => Sys2Proof.Machine.execFltProcess u s
  | .fltReset u => Sys2Proof.Machine.execFltReset u s
  | .envSetParams u => Sys2Proof.Machine.execEnvSetParams u s
  | .envNoteOn u => Sys2Proof.Machine.execEnvNoteOn u s
  | .envNoteOff u => Sys2Proof.Machine.execEnvNoteOff u s
  | .envNext u => Sys2Proof.Machine.execEnvNext u s
  | .dlySetDelay u => Sys2Proof.Machine.execDlySetDelay u s
  | .dlySetFeedback u => Sys2Proof.Machine.execDlySetFeedback u s
  | .dlyProcess u => Sys2Proof.Machine.execDlyProcess u s
  | .dlyReset u => Sys2Proof.Machine.execDlyReset u s

end Sys2Proof.Machine
end

