-- ==== Sys2Proof/Machine/HostPort.lean ====
section
/-! DEFINITION. The host's port: the address map, host reads and writes, and the fetch of a command word (20_memory.md R60 to
R66, 45_graph.md R230). -/

namespace Sys2Proof.Machine

open Sys2Proof

/-- The words of the host address map (20_memory.md R62). -/
inductive HostWord where
  | cmd
  | arg0
  | arg1
  | arg2
  | arg3
  | result
  | status
  | errCmd
  | config
  | outbuf (i : Nat)
  deriving DecidableEq, Repr

/-- The host address map (20_memory.md R62); none for an unmapped word address. -/
def hostWord (p : Params) (a : Addr) : Option HostWord :=
  match a.toNat with
  | 0x000000 => some .cmd
  | 0x000001 => some .arg0
  | 0x000002 => some .arg1
  | 0x000003 => some .arg2
  | 0x000004 => some .arg3
  | 0x000005 => some .result
  | 0x000006 => some .status
  | 0x000007 => some .errCmd
  | 0x000008 => some .config
  | n => if 0x100000 ≤ n ∧ n < 0x100000 + p.maxBlock then some (.outbuf (n - 0x100000)) else none

/-- An OUTBUF word: what a PROCESS_BLOCK wrote, or the free value of a word none has written (20_memory.md R68, 10_state.md
R46; log 5). -/
def outbufRead (m : Mem) (i : Nat) : Word := (memRead .outbuf m i).getD (Config.unwrittenOutbuf i)

/-- What a host read of a mapped word returns (20_memory.md R62, R66; 10_state.md R23 to R28). -/
def hostValue (s : State) : HostWord → Word
  | .cmd => 0#64
  | .arg0 => s.arg0
  | .arg1 => s.arg1
  | .arg2 => s.arg2
  | .arg3 => s.arg3
  | .result => s.result
  | .status => statusWord s.status
  | .errCmd => errCmdWord s.errCmd
  | .config => configWord s.params
  | .outbuf i => outbufRead s.outbuf i

/-- The command word of a write to `CMD`: bits 63:32 are ignored (10_state.md R23). -/
def commandWord (v : Word) : CmdWord := v.extractLsb' 0 32

/-- A write to `CMD`: `execute(word)` (40_command_common.md R100, R101). An ILLEGAL word takes its error here; a legal word
runs its command. -/
def execute (word : CmdWord) (s : State) : Host.Outcome State Fault Refusal :=
  match decodeWord word with
  | .error _ => .next (illegalCommand word s)
  | .ok i => exec i s

/-- A host write of one word (20_memory.md R62, R66). Read-only words ignore it; an unmapped address is refused (R63). -/
def hostWrite (a : Addr) (v : Word) (s : State) : Host.Outcome State Fault Refusal :=
  match hostWord s.params a with
  | none => .refused (.unmappedAddress a)
  | some .cmd => execute (commandWord v) s
  | some .arg0 => .next { s with arg0 := v }
  | some .arg1 => .next { s with arg1 := v }
  | some .arg2 => .next { s with arg2 := v }
  | some .arg3 => .next { s with arg3 := v }
  | some .result => .next s
  | some .status => .next s
  | some .errCmd => .next s
  | some .config => .next s
  | some (.outbuf _) => .next s

/-- A host read of one word: it returns the value and changes nothing else (20_memory.md R66); an unmapped address is refused
(R63). -/
def hostRead (a : Addr) (s : State) : Host.Outcome State Fault Refusal :=
  match hostWord s.params a with
  | none => .refused (.unmappedAddress a)
  | some r => .next { s with readData := hostValue s r }

/-- One event of the outside world, in a state that has it no longer pending. A power-on reset keeps the parameters and what
is still to come (70_reset_and_hazards.md R270). -/
def takeEvent (e : Event) (s : State) : Host.Outcome State Fault Refusal :=
  match e with
  | .write a v => hostWrite a v s
  | .read a => hostRead a s
  | .partialAccess a => .refused (.notOneWholeWord a)
  | .powerOnReset => .next { State.powerOn s.params with pending := s.pending }

/-- The word address of `CMD` (20_memory.md R62). -/
def cmdAddr : Addr := 0x000000#21

/-- The host's next action is the write of a command word to `CMD`, the only way a command reaches the core (20_memory.md
R74). -/
def deliverCommand (s : State) (word : Word) : State := { s with pending := .write cmdAddr word :: s.pending }

end Sys2Proof.Machine
end

