-- ==== Sys2Proof/Machine/Step.lean ====
section
/-! DEFINITION. One step: the next event of the outside world, taken whole (40_command_common.md R100, 20_memory.md R71). -/

namespace Sys2Proof.Machine

open Sys2Proof

/-- The core acts only when the host does: with nothing pending it waits and keeps all its state (60_exceptions.md R257,
70_reset_and_hazards.md R271); else the first pending event happens, as one indivisible step. -/
def step (s : State) : Host.Outcome State Fault Refusal :=
  match s.pending with
  | [] => .next s
  | e :: rest => takeEvent e { s with pending := rest }

/-- `s` with the host about to write the table word to `CMD` (log 11). The bits above `nbits` are zero. -/
def State.withFetchWord (s : State) (nbits w : Nat) : State := deliverCommand s (BitVec.ofNat 64 (w % 2 ^ nbits))

end Sys2Proof.Machine
end

