-- ==== Sys2Proof/Safety.lean ====
section
/-! DEFINITION. What claims are stated in terms of: when a command runs its own rule, the invariant of the machine, runs of
one command. -/

namespace Sys2Proof.Machine

open Sys2Proof

/-- A command passes the fault gate and the common checks (40_command_common.md R101, R102): not faulted, prepared, and the
unit it names exists. -/
structure Ready (s : State) (i : Instr) : Prop where
  noFault : s.status.fault = false
  prepared : s.status.prepared = true
  unitExists : i.wf s.params = true

/-- A memory in canonical form with every listed index below a capacity (20_memory.md R60, R67). -/
structure MemOk (sp : Space) (cap : Nat) (m : Mem) : Prop where
  canonical : Memory.wf sp m = true
  bounded : ∀ e ∈ m, e.1 < cap

/-- The state of a prepared oscillator that does not depend on its phase (10_state.md R31). -/
structure OscOk (f : Fmt) (o : OscUnit) : Prop where
  freq : finitePos f o.f = true
  inc : finitePos f o.inc = true

/-- The state of a prepared envelope (10_state.md R34, R35; 40_command_common.md R105): its sustain level, what its stage
says of level and counter, and the u32 bounds. -/
structure EnvOk (f : Fmt) (e : EnvUnit) : Prop where
  sustainRange : fpLe f posZero e.s = true ∧ fpLe f e.s (oneW f) = true
  silent : e.stage = .idle ∨ e.stage = .off → e.level = posZero ∧ e.n = 0
  held : e.stage = .sustain → e.level = e.s ∧ e.n = 0
  bounds : e.na ≤ u32Max ∧ e.nd ≤ u32Max ∧ e.nr ≤ u32Max ∧ e.n ≤ u32Max

/-- The state of a prepared delay line (10_state.md R36, R37). -/
structure DlyOk (f : Fmt) (maxDelay : Nat) (l : DlyUnit) : Prop where
  lengths : 1 ≤ l.d ∧ l.d ≤ l.c ∧ l.c ≤ maxDelay
  index : l.w < l.d
  gain : fpLe f posZero l.g = true ∧ fpLt f l.g (oneW f) = true

/-- The error record agrees with the fault flag (60_exceptions.md R241, R243, R248), and the reserved code is not in it. -/
structure StatusOk (s : State) : Prop where
  clear : s.status.fault = false → s.status.errCode = .noError ∧ s.status.errUnit = 0#8 ∧ s.errCmd = 0#32
  recorded : s.status.fault = true → s.status.errCode ≠ .noError
  notReserved : s.status.errCode ≠ .prgMixLength

/-- The invariant of the machine: the parameters are legal, every unit exists, every memory is in canonical form and in its
bounds, the error record is consistent, and a prepared core's globals and units are as 10_state.md says. -/
structure Inv (s : State) : Prop where
  params : s.params.wf = true
  oscCount : s.osc.length = s.params.nosc
  fltCount : s.flt.length = s.params.nflt
  envCount : s.env.length = s.params.nenv
  dlyCount : s.dly.length = s.params.ndly
  outbuf : MemOk .outbuf s.params.maxBlock s.outbuf
  dram : ∀ l ∈ s.dly, MemOk .dram s.params.maxDelay l.dram
  scratchSrc : ∀ m ∈ s.scratch.src, MemOk .scratch s.params.maxBlock m
  scratchM : MemOk .scratch s.params.maxBlock s.scratch.m
  scratchG : ∀ m ∈ s.scratch.g, MemOk .scratch s.params.maxBlock m
  scratchO : MemOk .scratch s.params.maxBlock s.scratch.o
  status : StatusOk s
  blockSize : s.status.prepared = true → 1 ≤ s.maxBlk ∧ s.maxBlk ≤ s.params.maxBlock
  sampleRate : s.status.prepared = true →
    finitePos .binary64 s.sr64 = true ∧ s.srW = toW s.params.fmt s.sr64 ∧ finitePos s.params.fmt s.srW = true
  oscillators : s.status.prepared = true → ∀ o ∈ s.osc, OscOk s.params.fmt o
  envelopes : s.status.prepared = true → ∀ e ∈ s.env, EnvOk s.params.fmt e
  delays : s.status.prepared = true → ∀ l ∈ s.dly, DlyOk s.params.fmt s.params.maxDelay l

/-- A phase in [+0, `TWO_PI_W`): finite, its sign bit clear, below `TWO_PI_W` (10_state.md R31, 41_oscillator.md R125). -/
def phaseInRange (f : Fmt) (ph : Sample) : Prop := ∃ k, fpVal f ph = .fin false k ∧ fpLt f ph (twoPiW f) = true

/-- Every prepared oscillator's phase is in [+0, `TWO_PI_W`) (10_state.md R31). -/
def PhasesOk (s : State) : Prop := s.status.prepared = true → ∀ o ∈ s.osc, phaseInRange s.params.fmt o.phase

/-- A level in [0, 1] (10_state.md R35). -/
def levelInRange (f : Fmt) (v : Sample) : Prop := fpLe f posZero v = true ∧ fpLe f v (oneW f) = true

/-- Every prepared envelope's `level` and `start` are in [0, 1] (10_state.md R35). -/
def LevelsOk (s : State) : Prop :=
  s.status.prepared = true → ∀ e ∈ s.env, levelInRange s.params.fmt e.level ∧ levelInRange s.params.fmt e.start

/-- A word is ILLEGAL as 30_encoding.md R86 lists it: `OP` not in the table of R85, `U != 0` on a host command, or `IMM != 0` on
a command other than OSC_SET_WAVE. -/
def IllegalWord (w : CmdWord) : Prop :=
  opField w ∉ [0x01#8, 0x02#8, 0x10#8, 0x11#8, 0x12#8, 0x20#8, 0x21#8, 0x22#8, 0x30#8, 0x31#8, 0x32#8, 0x33#8,
    0x40#8, 0x41#8, 0x42#8, 0x43#8] ∨
  (opField w ∈ [0x01#8, 0x02#8] ∧ uField w ≠ 0#8) ∨ (opField w ≠ 0x11#8 ∧ immField w ≠ 0#16)

/-- What the first error of a command other than PREPARE leaves (60_exceptions.md R243, R246): the record, and `FAULT` set. -/
def withError (code : ErrCode) (unit : BitVec 8) (word : CmdWord) (s : State) : State :=
  { s with status := { prepared := s.status.prepared, fault := true, errCode := code, errUnit := unit }, errCmd := word }

/-- What a failing PREPARE leaves (60_exceptions.md R246): unprepared and faulted, the first error's record kept. -/
def withPrepareError (code : ErrCode) (unit : BitVec 8) (s : State) : State :=
  { s with
    status :=
      { prepared := false, fault := true, errCode := if s.status.fault then s.status.errCode else code
        errUnit := if s.status.fault then s.status.errUnit else unit }
    errCmd := if s.status.fault then s.errCmd else encode .prepare }

/-! What PREPARE's check of one init record finds wrong with it, if anything (45_graph.md R220, 60_exceptions.md R244). -/

/-- An oscillator's record: its frequency and its increment are finite and positive (41_oscillator.md R120, R121). -/
def oscRecordError (p : Params) (srW : Sample) (r : OscInit) : Option ErrCode :=
  let fW := toW p.fmt r.freq
  let incW := fpDiv p.fmt (fpMul p.fmt (twoPiW p.fmt) fW) srW
  if finitePos p.fmt fW && finitePos p.fmt incW then none else some .cfgFrequency

/-- A filter's record: the cutoff is finite, positive and below `SR_W / 2`; then Q is finite and positive and the coefficients
are finite (42_biquad.md R140, R141). -/
def fltRecordError (p : Params) (srW : Sample) (r : FltInit) : Option ErrCode :=
  let fcW := toW p.fmt r.cutoff
  let qW := toW p.fmt r.q
  if !(finitePos p.fmt fcW && fpLt p.fmt fcW (fpDiv p.fmt srW (twoW p.fmt))) then some .cfgCutoff
  else if !(finitePos p.fmt qW && coefsFinite p.fmt (fltCoef p srW fcW qW)) then some .cfgQ
  else none

/-- An envelope's record: three legal durations and a sustain level in [0, 1] (43_envelope.md R160, R161). -/
def envRecordError (p : Params) (sr64 : Word) (r : EnvInit) : Option ErrCode :=
  let sW := toW p.fmt r.sustain
  if (durSamples sr64 r.attackSec 0#8).isOk && (durSamples sr64 r.decaySec 0#8).isOk &&
      (fpLe p.fmt posZero sW && fpLe p.fmt sW (oneW p.fmt)) && (durSamples sr64 r.releaseSec 0#8).isOk then none
  else some .cfgEnvelope

/-- A delay line's record: a legal capacity; then a gain in [0, 1) (44_delay.md R191, R192). -/
def dlyRecordError (p : Params) (sr64 : Word) (r : DlyInit) : Option ErrCode :=
  let gW := toW p.fmt r.feedback
  if !(dlyCap p.maxDelay sr64 r.delaySeconds 0#8).isOk then some .cfgDelayLength
  else if !(fpLe p.fmt posZero gW && fpLt p.fmt gW (oneW p.fmt)) then some .cfgFeedback
  else none

/-- A command issued once for each input, the input written to `ARG0` before it: the `RESULT` after each and the state they
leave (none where a run stops). -/
def feedCommand (i : Instr) : List Word → State → Option (List Word × State)
  | [], s => some ([], s)
  | x :: xs, s =>
    match exec i { s with arg0 := x } with
    | .next t =>
      match feedCommand i xs t with
      | some (ys, u) => some (t.result :: ys, u)
      | none => none
    | .fault _ => none
    | .refused _ => none

/-- A command issued `k` times: the `RESULT` after each and the state they leave (none where a run stops). -/
def repeatCommand (i : Instr) : Nat → State → Option (List Word × State)
  | 0, s => some ([], s)
  | k + 1, s =>
    match exec i s with
    | .next t =>
      match repeatCommand i k t with
      | some (ys, u) => some (t.result :: ys, u)
      | none => none
    | .fault _ => none
    | .refused _ => none

/-- Output `j` after a note-on from level 0 with `NA > 0` (43_envelope.md R174). -/
def attackOutput (f : Fmt) (e : EnvUnit) (j : Nat) : Sample :=
  if j = 0 then posZero
  else if j < e.na then rampLevel f posZero (oneW f) j e.na
  else if e.nd = 0 then e.s
  else if j = e.na then oneW f
  else if j < e.na + e.nd then rampLevel f (oneW f) e.s (j - e.na) e.nd
  else e.s

/-- Output `j` after a note-off from level `L` with `NR > 0` (43_envelope.md R175). -/
def releaseOutput (f : Fmt) (e : EnvUnit) (j : Nat) : Sample :=
  if j = 0 then e.level else if j < e.nr then rampLevel f e.level posZero j e.nr else posZero

/-! PROCESS_BLOCK written sample by sample (45_graph.md R225): every unit's step for sample 0, then for sample 1, and so on, in
the order of R215. -/

/-- One sample of each source of a group, with its gain. -/
def sampleSources : State → List Source → List (Word × Sample) × State
  | s, [] => ([], s)
  | s, src :: rest =>
    let (y, o) := oscStep s.params (oscAt s src.osc)
    let (ys, t) := sampleSources (setOsc s src.osc o) rest
    ((src.gain, y) :: ys, t)

/-- One sample of a mix (45_graph.md R210). -/
def sampleMix (f : Fmt) (streams : List (Word × Sample)) : Sample :=
  streams.foldl (fun acc gb => fpAdd f acc (fpMul f (toW f gb.1) gb.2)) posZero

/-- One sample through a group's filter, if any. -/
def sampleFilter (s : State) (name : Option Nat) (x : Sample) : Sample × State :=
  match name with
  | none => (x, s)
  | some u => ((fltStep s.params.fmt (fltAt s u) x).1, setFlt s u (fltStep s.params.fmt (fltAt s u) x).2)

/-- One sample times a group's envelope, if any (45_graph.md R216). -/
def sampleEnvelope (s : State) (name : Option Nat) (x : Sample) : Sample × State :=
  match name with
  | none => (x, s)
  | some u =>
    (fpMul s.params.fmt x (envStep s.params.fmt (envAt s u)).1, setEnv s u (envStep s.params.fmt (envAt s u)).2)

/-- One sample through the delay line, if any. -/
def sampleDelay (s : State) (name : Option Nat) (x : Sample) : Sample × State :=
  match name with
  | none => (x, s)
  | some u => ((dlyStep s.params.fmt (dlyAt s u) x).1, setDly s u (dlyStep s.params.fmt (dlyAt s u) x).2)

/-- One sample of each group, with its output gain. -/
def sampleGroups : State → List Group → List (Word × Sample) × State
  | s, [] => ([], s)
  | s, gr :: rest =>
    let (srcs, s1) := sampleSources s gr.sources
    let (x, s2) := sampleFilter s1 gr.filter (sampleMix s.params.fmt srcs)
    let (y, s3) := sampleEnvelope s2 gr.env x
    let (ys, s4) := sampleGroups s3 rest
    ((gr.outGain, y) :: ys, s4)

/-- One sample of the graph. -/
def sampleGraph (s : State) : Sample × State :=
  let (gs, s1) := sampleGroups s s.params.graph.groups
  sampleDelay s1 s.params.graph.delay (sampleMix s.params.fmt gs)

/-- `bs` samples of the graph, one after the other. -/
def sampleRun : Nat → State → List Sample × State
  | 0, s => ([], s)
  | n + 1, s =>
    let (y, t) := sampleGraph s
    let (ys, u) := sampleRun n t
    (y :: ys, u)

/-- Two states have the same units. -/
def SameUnits (s t : State) : Prop := s.osc = t.osc ∧ s.flt = t.flt ∧ s.env = t.env ∧ s.dly = t.dly

end Sys2Proof.Machine
end

