-- ==== Sys2Proof/Certificates/Slice0/Obligations.lean ====
section
/-! DEFINITION. The statements for the provers. Each docstring names the rules of spec/ it rests on. -/

open Sys2Proof Sys2Proof.Machine

/-! ## Encoding (30_encoding.md) -/

/-- Decoding an encoded command gives it back, from its word and from its bytes with anything after them, whatever its fields
(R80, R88, R90; 20_memory.md R64). -/
def Obligations.DecodeOfEncode : Prop :=
  ∀ (i : Instr) (rest : List (BitVec 8)),
    decodeWord (encode i) = .ok i ∧ decodeBytes (encodeBytes i ++ rest) = .ok (i, rest)

/-- A legal word is the encoding of the command it decodes to: no bit of it is dropped (R80, R82, R83, R88). -/
def Obligations.EncodeOfDecode : Prop := ∀ (w : CmdWord) (i : Instr), decodeWord w = .ok i → encode i = w

/-- A word decodes to ILLEGAL exactly where R86 says so, and running it raises `PRG_ILLEGAL_COMMAND` for unit 0 unless the core
is faulted (R86; 60_exceptions.md R246). -/
def Obligations.IllegalWordsRaise : Prop :=
  ∀ w : CmdWord, ((∃ e, decodeWord w = .error e) ↔ IllegalWord w) ∧
    (IllegalWord w → ∀ s : State, s.status.fault = false →
      execute w s = .next (withError .prgIllegalCommand 0#8 w s))

/-- Decoding is total and reads the three fields; the rows of the opcode table give the same partition: a legal word matches
its command's row and no other, an ILLEGAL word matches none (R88). -/
def Obligations.DecodingMatchesOpcodeTable : Prop :=
  ∀ w : CmdWord,
    (IllegalWord w → (∃ e, decodeWord w = .error e) ∧ opcodeTable.filter (fun r => rowMatches r w) = []) ∧
    (¬IllegalWord w → ∃ i, decodeWord w = .ok i ∧ opcodeOf i = opField w ∧ unitOf i = uField w ∧ immOf i = immField w ∧
      (opcodeTable.filter (fun r => rowMatches r w)).map OpcodeRow.mnemonic = [mnemonicOf i])

/-- The words of R91's table decode to the commands it lists, and so does its `OSC_NEXT 3`. -/
def Obligations.ListedWordsDecode : Prop :=
  decodeWord 0x01000000#32 = .ok .prepare ∧ decodeWord 0x02000000#32 = .ok .processBlock ∧
  decodeWord 0x10000000#32 = .ok (.oscSetFreq 0) ∧ decodeWord 0x11000000#32 = .ok (.oscSetWave 0 0) ∧
  decodeWord 0x11000001#32 = .ok (.oscSetWave 0 1) ∧ decodeWord 0x12000000#32 = .ok (.oscNext 0) ∧
  decodeWord 0x20000000#32 = .ok (.fltSetParams 0) ∧ decodeWord 0x21000000#32 = .ok (.fltProcess 0) ∧
  decodeWord 0x22000000#32 = .ok (.fltReset 0) ∧ decodeWord 0x30000000#32 = .ok (.envSetParams 0) ∧
  decodeWord 0x31000000#32 = .ok (.envNoteOn 0) ∧ decodeWord 0x32000000#32 = .ok (.envNoteOff 0) ∧
  decodeWord 0x33000000#32 = .ok (.envNext 0) ∧ decodeWord 0x40000000#32 = .ok (.dlySetDelay 0) ∧
  decodeWord 0x41000000#32 = .ok (.dlySetFeedback 0) ∧ decodeWord 0x42000000#32 = .ok (.dlyProcess 0) ∧
  decodeWord 0x43000000#32 = .ok (.dlyReset 0) ∧ decodeWord 0x12030000#32 = .ok (.oscNext 3)

/-! ## The step and the host port (10_state.md, 20_memory.md, 40_command_common.md R100) -/

/-- A step runs the decoded command: where the host's next action is a write to `CMD` whose low 32 bits decode to `i`, the step
is `exec i` at the state with that action no longer pending; bits 63:32 do not matter (10_state.md R23, R100; the list of pending
actions is the model's own, log 11). -/
def Obligations.StepRunsDecodedCommand : Prop :=
  ∀ (s : State) (v : Word) (rest : List Event) (i : Instr), s.pending = .write cmdAddr v :: rest →
    decodeWord (v.extractLsb' 0 32) = .ok i → step s = exec i { s with pending := rest }

/-- A host write to an operand register changes that register only (10_state.md R24, 20_memory.md R62, R66). -/
def Obligations.HostWritesOneOperand : Prop :=
  ∀ (s : State) (v : Word) (rest : List Event),
    (s.pending = .write 1#21 v :: rest → step s = .next { s with arg0 := v, pending := rest }) ∧
    (s.pending = .write 2#21 v :: rest → step s = .next { s with arg1 := v, pending := rest }) ∧
    (s.pending = .write 3#21 v :: rest → step s = .next { s with arg2 := v, pending := rest }) ∧
    (s.pending = .write 4#21 v :: rest → step s = .next { s with arg3 := v, pending := rest })

/-- A host read of a mapped word delivers its value (the model's `readData`, log 12) and changes nothing else: `CMD` reads 0,
the operand registers, `RESULT`, `STATUS`, `ERRCMD` and `CONFIG` read as they are, an OUTBUF word as it was written
(20_memory.md R62, R66, R68; 10_state.md R23 to R28). -/
def Obligations.HostReadsMappedWords : Prop :=
  ∀ (s : State) (a : Addr) (rest : List Event), s.pending = .read a :: rest →
    a.toNat ≤ 8 ∨ (0x100000 ≤ a.toNat ∧ a.toNat < 0x100000 + s.params.maxBlock) →
    ∃ v, step s = .next { s with readData := v, pending := rest } ∧
      (a = 0#21 → v = 0#64) ∧ (a = 1#21 → v = s.arg0) ∧ (a = 2#21 → v = s.arg1) ∧ (a = 3#21 → v = s.arg2) ∧
      (a = 4#21 → v = s.arg3) ∧ (a = 5#21 → v = s.result) ∧ (a = 6#21 → v = statusWord s.status) ∧
      (a = 7#21 → v = errCmdWord s.errCmd) ∧ (a = 8#21 → v = configWord s.params) ∧
      ∀ x, 0x100000 ≤ a.toNat → memRead .outbuf s.outbuf (a.toNat - 0x100000) = some x → v = x

/-- The places of the fields of `STATUS`, `ERRCMD` and `CONFIG`, with their reserved bits 0 (10_state.md R26, R27, R28). -/
def Obligations.RegisterFieldsAreInPlace : Prop :=
  (∀ st : Status, (statusWord st).getLsbD 0 = st.prepared ∧ (statusWord st).getLsbD 1 = st.fault ∧
    (statusWord st).extractLsb' 2 6 = 0#6 ∧ (statusWord st).extractLsb' 8 8 = errCodeByte st.errCode ∧
    (statusWord st).extractLsb' 16 8 = st.errUnit ∧ (statusWord st).extractLsb' 24 40 = 0#40) ∧
  (∀ c : CmdWord, (errCmdWord c).extractLsb' 0 32 = c ∧ (errCmdWord c).extractLsb' 32 32 = 0#32) ∧
  (∀ p : Params, p.wf = true →
    ((configWord p).extractLsb' 0 8).toNat = p.nosc ∧ ((configWord p).extractLsb' 8 8).toNat = p.nflt ∧
    ((configWord p).extractLsb' 16 8).toNat = p.nenv ∧ ((configWord p).extractLsb' 24 8).toNat = p.ndly ∧
    ((configWord p).getLsbD 32 = true ↔ p.fmt = .binary64) ∧ ((configWord p).getLsbD 33 = true ↔ p.sawMode = .raw) ∧
    (configWord p).getLsbD 34 = p.attackFromCurrent ∧ (configWord p).extractLsb' 35 29 = 0#29)

/-- Host writes to `RESULT`, `STATUS`, `ERRCMD`, `CONFIG` and OUTBUF are ignored (20_memory.md R62, R66). -/
def Obligations.ReadOnlyWritesAreIgnored : Prop :=
  ∀ (s : State) (a : Addr) (v : Word) (rest : List Event), s.pending = .write a v :: rest →
    (5 ≤ a.toNat ∧ a.toNat ≤ 8) ∨ (0x100000 ≤ a.toNat ∧ a.toNat < 0x100000 + s.params.maxBlock) →
    step s = .next { s with pending := rest }

/-- The model refuses a host access to an unmapped word address, and an access that is not one whole word (20_memory.md R63;
R65). -/
def Obligations.UnmappedAccessIsRefused : Prop :=
  ∀ (s : State) (a : Addr) (rest : List Event),
    ((9 ≤ a.toNat ∧ a.toNat ≤ 0x0FFFFF) ∨ 0x100000 + s.params.maxBlock ≤ a.toNat →
      (s.pending = .read a :: rest → step s = .refused (.unmappedAddress a)) ∧
      ∀ v, s.pending = .write a v :: rest → step s = .refused (.unmappedAddress a)) ∧
    (s.pending = .partialAccess a :: rest → step s = .refused (.notOneWholeWord a))

/-- After power-on reset `STATUS`, `ERRCMD` and the operand registers are 0 and `CONFIG` is the hardware's parameters, for every
instance and so for the default one (10_state.md R45, 70_reset_and_hazards.md R270). The third clause is the model's choice: a
power-on reset between commands leaves one whole state, whatever was before it, in which what R45 and R270 leave unspecified has the
values of log 1 to log 5, the model's own `readData` is 0 (log 12), and the pending list is kept (log 11). -/
def Obligations.PowerOnResetClears : Prop :=
  (∀ p : Params, statusWord (State.powerOn p).status = 0#64 ∧ errCmdWord (State.powerOn p).errCmd = 0#64 ∧
    (State.powerOn p).arg0 = 0#64 ∧ (State.powerOn p).arg1 = 0#64 ∧ (State.powerOn p).arg2 = 0#64 ∧
    (State.powerOn p).arg3 = 0#64 ∧ (State.powerOn p).params = p) ∧
  State.reset = State.powerOn Params.default ∧
  (∀ (s : State) (rest : List Event), s.pending = .powerOnReset :: rest →
    step s = .next { State.powerOn s.params with pending := rest })

/-! ## The execution cycle and errors (40_command_common.md, 60_exceptions.md) -/

/-- While `FAULT = 1`, a word other than a legal PREPARE changes nothing at all; host writes to the operand registers still take
effect (60_exceptions.md R247). -/
def Obligations.FaultedCoreIgnoresCommands : Prop :=
  ∀ s : State, s.status.fault = true →
    (∀ w : CmdWord, decodeWord w ≠ .ok .prepare → execute w s = .next s) ∧
    (∀ v : Word, hostWrite 1#21 v s = .next { s with arg0 := v } ∧ hostWrite 2#21 v s = .next { s with arg1 := v } ∧
      hostWrite 3#21 v s = .next { s with arg2 := v } ∧ hostWrite 4#21 v s = .next { s with arg3 := v })

/-- The common checks in their order: ILLEGAL first, then not prepared, then a unit that does not exist, so that a kind of which
there are none makes every command of it fail (40_command_common.md R102). -/
def Obligations.CommonChecksInOrder : Prop :=
  ∀ (s : State) (w : CmdWord), s.status.fault = false →
    ((∃ e, decodeWord w = .error e) → execute w s = .next (withError .prgIllegalCommand 0#8 w s)) ∧
    (∀ i, decodeWord w = .ok i → i ≠ .prepare → s.status.prepared = false →
      execute w s = .next (withError .prgNotPrepared 0#8 w s)) ∧
    (∀ i k u, decodeWord w = .ok i → s.status.prepared = true → i.target = some (k, u) → s.params.count k ≤ u.toNat →
      execute w s = .next (withError .prgBadUnit u w s))

/-- A command that raises an error changes nothing except `STATUS` and `ERRCMD`; an ignored command changes nothing
(40_command_common.md R103). -/
def Obligations.ErrorsHaveNoPartialEffect : Prop :=
  ∀ (w : CmdWord) (s t : State), execute w s = .next t →
    (t.status.fault = true → t = { s with status := t.status, errCmd := t.errCmd }) ∧
    (s.status.fault = true → decodeWord w ≠ .ok .prepare → t = s)

/-- The error entry: the first error records a code and its word, `PREPARED` falls only where PREPARE fails, and a PREPARE that
fails while faulted keeps the first record (60_exceptions.md R243, R246, R250). -/
def Obligations.ErrorEntryRecordsTheFirstError : Prop :=
  ∀ (w : CmdWord) (s t : State), execute w s = .next t → t.status.fault = true →
    (s.status.fault = false → t.errCmd = w ∧ t.status.errCode ≠ .noError ∧
      t.status.prepared = (s.status.prepared && !decide (w = 0x01000000#32))) ∧
    (s.status.fault = true → t.errCmd = s.errCmd ∧ t.status.errCode = s.status.errCode ∧
      t.status.errUnit = s.status.errUnit ∧ t.status.prepared = (s.status.prepared && !decide (w = 0x01000000#32)))

/-- A command that ends without a fault leaves `STATUS` and `ERRCMD` as they were, but for PREPARE, which sets PREPARED and clears
the rest (40_command_common.md R112, 45_graph.md R220, 60_exceptions.md R248). -/
def Obligations.SuccessWritesNoFlags : Prop :=
  ∀ (w : CmdWord) (s t : State), execute w s = .next t → t.status.fault = false →
    (w ≠ 0x01000000#32 → t.status = s.status ∧ t.errCmd = s.errCmd) ∧
    (w = 0x01000000#32 →
      t.status = { prepared := true, fault := false, errCode := .noError, errUnit := 0#8 } ∧ t.errCmd = 0#32)

/-- The ways out of a fault: a step that clears `FAULT` took a successful PREPARE or a power-on reset (60_exceptions.md R248). -/
def Obligations.OnlyPrepareOrResetClearsFault : Prop :=
  ∀ s t : State, step s = .next t → s.status.fault = true → t.status.fault = false →
    (∃ rest, s.pending = .powerOnReset :: rest) ∨
    (∃ v rest, s.pending = .write cmdAddr v :: rest ∧ v.extractLsb' 0 32 = 0x01000000#32 ∧ t.status.prepared = true ∧
      t.status.errCode = .noError ∧ t.status.errUnit = 0#8 ∧ t.errCmd = 0#32)

/-- Every command word runs to a next state, whatever the state and the operands: no value stops the core (40_command_common.md
R106, 45_graph.md R232). -/
def Obligations.EveryWordRunsToANextState : Prop := ∀ (w : CmdWord) (s : State), ∃ t, execute w s = .next t

/-- No command writes an operand register or the parameters behind `CONFIG` (10_state.md R24, R28), and none changes the host's
sequence of actions (R21). That sequence is the model's own list `pending` (log 11), and `readData`, which no command writes either,
is the model's own too (log 12): those two clauses are the model's choice. -/
def Obligations.CommandsKeepOperandsAndParameters : Prop :=
  ∀ (w : CmdWord) (s t : State), execute w s = .next t →
    t.arg0 = s.arg0 ∧ t.arg1 = s.arg1 ∧ t.arg2 = s.arg2 ∧ t.arg3 = s.arg3 ∧ t.params = s.params ∧
    t.readData = s.readData ∧ t.pending = s.pending

/-- Only OSC_NEXT, FLT_PROCESS, ENV_NEXT and DLY_PROCESS write `RESULT`, only PROCESS_BLOCK writes OUTBUF and the scratch buffers,
and only PREPARE writes the globals (10_state.md R25, R29, R44). -/
def Obligations.OutputsAndGlobalsHaveOneWriter : Prop :=
  ∀ (i : Instr) (s t : State), exec i s = .next t →
    ((∀ u, i ≠ .oscNext u ∧ i ≠ .fltProcess u ∧ i ≠ .envNext u ∧ i ≠ .dlyProcess u) → t.result = s.result) ∧
    (i ≠ .processBlock → t.outbuf = s.outbuf ∧ t.scratch = s.scratch) ∧
    (i ≠ .prepare → t.sr64 = s.sr64 ∧ t.srW = s.srW ∧ t.maxBlk = s.maxBlk)

/-- A unit command changes no unit but the one it names (20_memory.md R76, 40_command_common.md R102). -/
def Obligations.UnitCommandsTouchOneUnit : Prop :=
  ∀ (i : Instr) (k : UnitKind) (u : BitVec 8) (s t : State), i.target = some (k, u) → exec i s = .next t →
    (∀ v : Nat, k ≠ .osc ∨ v ≠ u.toNat → t.osc[v]? = s.osc[v]?) ∧
    (∀ v : Nat, k ≠ .flt ∨ v ≠ u.toNat → t.flt[v]? = s.flt[v]?) ∧
    (∀ v : Nat, k ≠ .env ∨ v ≠ u.toNat → t.env[v]? = s.env[v]?) ∧
    (∀ v : Nat, k ≠ .dly ∨ v ≠ u.toNat → t.dly[v]? = s.dly[v]?)

/-- The codes of 60_exceptions.md R241, and bit 7 set exactly for a ProgrammingError (R240). -/
def Obligations.ErrorCodesAndClasses : Prop :=
  [ErrCode.noError, .cfgSampleRate, .cfgBlockSize, .cfgFrequency, .cfgWaveform, .cfgCutoff, .cfgQ, .cfgEnvelope,
    .cfgFeedback, .cfgDelayLength, .prgIllegalCommand, .prgBadUnit, .prgNotPrepared, .prgBlockTooLarge,
    .prgMixLength].map errCodeByte =
    [0x00#8, 0x01#8, 0x02#8, 0x03#8, 0x04#8, 0x05#8, 0x06#8, 0x07#8, 0x08#8, 0x09#8, 0x81#8, 0x82#8, 0x83#8, 0x84#8, 0x85#8] ∧
  ∀ c : ErrCode, (errCodeByte c).getLsbD 7 = true ↔
    c ∈ [ErrCode.prgIllegalCommand, .prgBadUnit, .prgNotPrepared, .prgBlockTooLarge, .prgMixLength]

/-! ## Arithmetic (00_scope.md) -/

/-- The arithmetic of W (00_scope.md R10, R12, 40_command_common.md R107). Rounding is to nearest, ties to even: a rounded ratio of
quanta that does not overflow is a value of the format no other value is nearer to, its encoding is even where another is as near,
and it overflows to infinity exactly from half a unit above the largest finite value on. `+W`, `-W`, `*W`, `/W`, `intToW` and the
narrowing `toW` are the exact result rounded once, with the signed zeros, infinities and NaNs of IEEE 754. Comparisons are those of
the values, and false with a NaN. -/
def Obligations.RoundingIsNearestTiesToEven : Prop :=
  (∀ (f : Fmt) (neg : Bool) (num den : Nat), 0 < den →
    (den * ((2 ^ (fracBits f + 2) - 1) * 2 ^ (expMax f - 3)) ≤ num → roundW f neg num den = fpInf f neg) ∧
    (num < den * ((2 ^ (fracBits f + 2) - 1) * 2 ^ (expMax f - 3)) →
      ∃ k, fpVal f (roundW f neg num den) = .fin neg k ∧
        ∀ (w : Sample) (neg' : Bool) (k' : Nat), fpVal f w = .fin neg' k' →
          ((num : Int) - k * den).natAbs ≤ ((num : Int) - k' * den).natAbs ∧
          (k' ≠ k → ((num : Int) - k * den).natAbs = ((num : Int) - k' * den).natAbs →
            (roundW f neg num den).toNat % 2 = 0))) ∧
  (∀ (f : Fmt) (a b : Sample),
    (fpVal f a = .nan ∨ fpVal f b = .nan →
      fpVal f (fpAdd f a b) = .nan ∧ fpVal f (fpSub f a b) = .nan ∧ fpVal f (fpMul f a b) = .nan ∧
      fpVal f (fpDiv f a b) = .nan ∧ fpLt f a b = false ∧ fpLe f a b = false ∧ fpEq f a b = false) ∧
    (∀ s j t k, fpVal f a = .fin s j → fpVal f b = .fin t k →
      let x := signedQuanta s j
      let y := signedQuanta t k
      (fpAdd f a b =
        if x + y = 0 then withSign f (s && t) 0 else roundW f (decide (x + y < 0)) (x + y).natAbs 1) ∧
      (fpSub f a b =
        if x - y = 0 then withSign f (s && !t) 0 else roundW f (decide (x - y < 0)) (x - y).natAbs 1) ∧
      fpMul f a b = roundW f (s != t) (j * k) (2 ^ quantum f) ∧
      (k ≠ 0 → fpDiv f a b = roundW f (s != t) (j * 2 ^ quantum f) k) ∧
      (k = 0 → j ≠ 0 → fpDiv f a b = fpInf f (s != t)) ∧
      (k = 0 → j = 0 → fpVal f (fpDiv f a b) = .nan) ∧
      (fpLt f a b = true ↔ x < y) ∧ (fpLe f a b = true ↔ x ≤ y) ∧ (fpEq f a b = true ↔ x = y)) ∧
    (∀ s t, fpVal f a = .inf s → fpVal f b = .inf t →
      (s = t → fpAdd f a b = fpInf f s ∧ fpVal f (fpSub f a b) = .nan) ∧
      (s ≠ t → fpVal f (fpAdd f a b) = .nan ∧ fpSub f a b = fpInf f s) ∧
      fpMul f a b = fpInf f (s != t) ∧ fpVal f (fpDiv f a b) = .nan ∧
      (fpLt f a b = true ↔ s = true ∧ t = false) ∧ (fpLe f a b = true ↔ s = true ∨ t = false) ∧
      (fpEq f a b = true ↔ s = t)) ∧
    (∀ s t k, fpVal f a = .inf s → fpVal f b = .fin t k →
      fpAdd f a b = fpInf f s ∧ fpSub f a b = fpInf f s ∧ fpDiv f a b = fpInf f (s != t) ∧
      (k ≠ 0 → fpMul f a b = fpInf f (s != t)) ∧ (k = 0 → fpVal f (fpMul f a b) = .nan) ∧
      fpLt f a b = s ∧ fpLe f a b = s ∧ fpEq f a b = false) ∧
    (∀ s j t, fpVal f a = .fin s j → fpVal f b = .inf t →
      fpAdd f a b = fpInf f t ∧ fpSub f a b = fpInf f (!t) ∧ fpDiv f a b = withSign f (s != t) 0 ∧
      (j ≠ 0 → fpMul f a b = fpInf f (s != t)) ∧ (j = 0 → fpVal f (fpMul f a b) = .nan) ∧
      fpLt f a b = !t ∧ fpLe f a b = !t ∧ fpEq f a b = false)) ∧
  (∀ (f : Fmt) (n : Nat), intToW f n = roundW f false (n * 2 ^ quantum f) 1) ∧
  ∀ v : Word,
    (∀ s k, fpVal .binary64 v = .fin s k → toW .binary32 v = roundW .binary32 s k (2 ^ 925)) ∧
    (∀ s, fpVal .binary64 v = .inf s → toW .binary32 v = fpInf .binary32 s) ∧
    (fpVal .binary64 v = .nan → fpVal .binary32 (toW .binary32 v) = .nan)

/-- `fmodW` is exact (00_scope.md R10): for finite operands and a non-zero divisor, the result is exactly the remainder of the
truncated quotient, with the sign of the dividend; a finite dividend is its own remainder by an infinity; a NaN operand, an infinite
dividend and a zero divisor give a NaN. -/
def Obligations.FmodIsExact : Prop :=
  ∀ (f : Fmt) (a b : Sample),
    (∀ s j t k, fpVal f a = .fin s j → fpVal f b = .fin t k →
      (k ≠ 0 → fpVal f (fpMod f a b) = .fin s (j % k)) ∧ (k = 0 → fpVal f (fpMod f a b) = .nan)) ∧
    (∀ s j t, fpVal f a = .fin s j → fpVal f b = .inf t → fpMod f a b = a) ∧
    (∀ s, fpVal f a = .inf s → fpVal f (fpMod f a b) = .nan) ∧
    (fpVal f a = .nan ∨ fpVal f b = .nan → fpVal f (fpMod f a b) = .nan)

/-- `to64` is exact, and `toW` takes its result back to the same bits, for every binary32 value but a NaN; both are the identity
for binary64 (00_scope.md R10, 40_command_common.md R107). -/
def Obligations.ConversionsRoundTrip : Prop :=
  (∀ v : Word, toW .binary64 v = v ∧ to64 .binary64 v = v) ∧
  ∀ v : Sample, v.toNat < 2 ^ 32 →
    (∀ s k, fpVal .binary32 v = .fin s k → fpVal .binary64 (to64 .binary32 v) = .fin s (k * 2 ^ 925)) ∧
    (∀ s, fpVal .binary32 v = .inf s → fpVal .binary64 (to64 .binary32 v) = .inf s) ∧
    (fpVal .binary32 v ≠ .nan → toW .binary32 (to64 .binary32 v) = v)

/-- The properties of `sinW` and `cosW`, whichever functions the parameters choose: `sinW(+0) = +0`, `cosW(+0) = 1`, in [-1, 1] for
a finite argument, a NaN for an infinite or NaN one (00_scope.md R15). -/
def Obligations.SineAndCosineProperties : Prop :=
  ∀ (t : TrigMode) (f : Fmt),
    sinW t f posZero = posZero ∧ cosW t f posZero = oneW f ∧
    ∀ x : Sample,
      (isFinite f x = true →
        (fpLe f (fpNeg f (oneW f)) (sinW t f x) = true ∧ fpLe f (sinW t f x) (oneW f) = true) ∧
        (fpLe f (fpNeg f (oneW f)) (cosW t f x) = true ∧ fpLe f (cosW t f x) (oneW f) = true)) ∧
      (isFinite f x = false → fpVal f (sinW t f x) = .nan ∧ fpVal f (cosW t f x) = .nan)

/-- `durSamples`: a duration that is not a finite value `>= 0`, or whose product with `SR64` is not finite, or whose count exceeds
`2^32 - 1`, is `CFG_ENVELOPE`; else the count is the whole number nearest to the binary64 product, ties away from zero
(43_envelope.md R161; 00_scope.md R14). The product's size is given in units of `2^-1074`. -/
def Obligations.DurationsRoundToNearestSample : Prop :=
  ∀ (sr64 sec : Word) (u : BitVec 8),
    (¬(isFinite .binary64 sec = true ∧ fpLe .binary64 posZero sec = true) →
      durSamples sr64 sec u = .error { code := .cfgEnvelope, unit := u }) ∧
    (isFinite .binary64 (fpMul .binary64 sec sr64) = false →
      durSamples sr64 sec u = .error { code := .cfgEnvelope, unit := u }) ∧
    (isFinite .binary64 sec = true → fpLe .binary64 posZero sec = true →
      ∀ neg k, fpVal .binary64 (fpMul .binary64 sec sr64) = .fin neg k →
        ∃ n : Nat, 2 * n * 2 ^ 1074 ≤ 2 * k + 2 ^ 1074 ∧ 2 * k + 2 ^ 1074 < 2 * (n + 1) * 2 ^ 1074 ∧
          (n ≤ 2 ^ 32 - 1 → durSamples sr64 sec u = .ok n) ∧
          (2 ^ 32 - 1 < n → durSamples sr64 sec u = .error { code := .cfgEnvelope, unit := u }))

/-- `dlyCap`: a `delaySeconds` that is not a finite value `> 0`, or whose product with `SR64` is not finite, or whose capacity is
0 or exceeds `MAX_DELAY`, is `CFG_DELAY_LENGTH`; else the capacity is the least whole number not below the binary64 product
(44_delay.md R191; 00_scope.md R14). The product's size is given in units of `2^-1074`. -/
def Obligations.CapacityRoundsUp : Prop :=
  ∀ (maxDelay : Nat) (sr64 sec : Word) (u : BitVec 8),
    (¬(isFinite .binary64 sec = true ∧ fpLt .binary64 posZero sec = true) →
      dlyCap maxDelay sr64 sec u = .error { code := .cfgDelayLength, unit := u }) ∧
    (isFinite .binary64 (fpMul .binary64 sec sr64) = false →
      dlyCap maxDelay sr64 sec u = .error { code := .cfgDelayLength, unit := u }) ∧
    (isFinite .binary64 sec = true → fpLt .binary64 posZero sec = true →
      ∀ neg k, fpVal .binary64 (fpMul .binary64 sec sr64) = .fin neg k →
        ∃ c : Nat, k ≤ c * 2 ^ 1074 ∧ c * 2 ^ 1074 < k + 2 ^ 1074 ∧
          (1 ≤ c ∧ c ≤ maxDelay → dlyCap maxDelay sr64 sec u = .ok c) ∧
          (¬(1 ≤ c ∧ c ≤ maxDelay) → dlyCap maxDelay sr64 sec u = .error { code := .cfgDelayLength, unit := u }))

/-! ## Oscillator commands (41_oscillator.md) -/

/-- OSC_SET_FREQ: a frequency and increment that are finite and positive are stored, phase and waveform kept, nothing else
changed; any other is `CFG_FREQUENCY` (R120, R121). -/
def Obligations.OscSetFreqStoresFrequencyAndIncrement : Prop :=
  ∀ (u : BitVec 8) (s : State), Ready s (.oscSetFreq u) →
    let f := s.params.fmt
    let fW := toW f s.arg0
    let incW := fpDiv f (fpMul f (twoPiW f) fW) s.srW
    let valid := isFinite f fW = true ∧ fpLt f posZero fW = true ∧ isFinite f incW = true ∧ fpLt f posZero incW = true
    (valid → exec (.oscSetFreq u) s =
      .next { s with osc := s.osc.set u.toNat { oscAt s u.toNat with f := fW, inc := incW } }) ∧
    (¬valid → exec (.oscSetFreq u) s = .next (withError .cfgFrequency u (encode (.oscSetFreq u)) s))

/-- OSC_SET_WAVE: code 0 selects SINE, code 1 SAW; any other code is a legal word that raises `CFG_WAVEFORM` for its unit
(30_encoding.md R87; R122). -/
def Obligations.OscSetWaveSelectsByCode : Prop :=
  ∀ (u : BitVec 8) (imm : BitVec 16) (s : State), decodeWord (encode (.oscSetWave u imm)) = .ok (.oscSetWave u imm) ∧
    (Ready s (.oscSetWave u imm) →
      (imm = 0#16 → exec (.oscSetWave u imm) s =
        .next { s with osc := s.osc.set u.toNat { oscAt s u.toNat with wave := .sine } }) ∧
      (imm = 1#16 → exec (.oscSetWave u imm) s =
        .next { s with osc := s.osc.set u.toNat { oscAt s u.toNat with wave := .saw } }) ∧
      (imm ≠ 0#16 → imm ≠ 1#16 → exec (.oscSetWave u imm) s =
        .next (withError .cfgWaveform u (encode (.oscSetWave u imm)) s)))

/-- OSC_NEXT: `RESULT` is the waveform of the phase before the advance (sine, centred saw or raw saw), then the phase advances by
`inc` modulo `TWO_PI_W`; nothing else changes (R123, R124, R126, R127). -/
def Obligations.OscNextOutputsThenAdvances : Prop :=
  ∀ (u : BitVec 8) (s : State), Ready s (.oscNext u) →
    let f := s.params.fmt
    let o := oscAt s u.toNat
    let y :=
      match o.wave, s.params.sawMode with
      | .sine, _ => sinW s.params.trig f o.phase
      | .saw, .centered => fpSub f (fpDiv f o.phase (piW f)) (oneW f)
      | .saw, .raw => fpDiv f o.phase (piW f)
    exec (.oscNext u) s =
      .next { s with osc := s.osc.set u.toNat { o with phase := fpMod f (fpAdd f o.phase o.inc) (twoPiW f) }
                     result := to64 f y }

/-- Continuous phase: no command but PREPARE, PROCESS_BLOCK and OSC_NEXT changes an oscillator's phase (R128). -/
def Obligations.PhaseIsContinuous : Prop :=
  ∀ (i : Instr) (s t : State), exec i s = .next t → i ≠ .prepare → i ≠ .processBlock → (∀ u, i ≠ .oscNext u) →
    ∀ v : Nat, (t.osc[v]?).map OscUnit.phase = (s.osc[v]?).map OscUnit.phase

/-! ## Filter commands (42_biquad.md) -/

/-- FLT_SET_PARAMS: the cutoff is checked first, then Q, then the coefficients; a valid pair stores the parameters and the
coefficients of R142's formulas, each operation rounded in the order written, and keeps the history (R140, R141, R142). -/
def Obligations.FltSetParamsStoresCoefficients : Prop :=
  ∀ (u : BitVec 8) (s : State), Ready s (.fltSetParams u) →
    let f := s.params.fmt
    let fc := toW f s.arg0
    let q := toW f s.arg1
    let w0 := fpDiv f (fpMul f (twoPiW f) fc) s.srW
    let cs := cosW s.params.trig f w0
    let alpha := fpDiv f (sinW s.params.trig f w0) (fpMul f (twoW f) q)
    let a0 := fpAdd f (oneW f) alpha
    let t := fpSub f (oneW f) cs
    let b0 := fpDiv f (fpDiv f t (twoW f)) a0
    let b1 := fpDiv f t a0
    let a1 := fpDiv f (fpNeg f (fpMul f (twoW f) cs)) a0
    let a2 := fpDiv f (fpSub f (oneW f) alpha) a0
    let cutoffOk := isFinite f fc = true ∧ fpLt f posZero fc = true ∧ fpLt f fc (fpDiv f s.srW (twoW f)) = true
    let qOk := isFinite f q = true ∧ fpLt f posZero q = true
    let coefsOk := isFinite f b0 = true ∧ isFinite f b1 = true ∧ isFinite f a1 = true ∧ isFinite f a2 = true
    (¬cutoffOk → exec (.fltSetParams u) s = .next (withError .cfgCutoff u (encode (.fltSetParams u)) s)) ∧
    (cutoffOk → ¬(qOk ∧ coefsOk) → exec (.fltSetParams u) s = .next (withError .cfgQ u (encode (.fltSetParams u)) s)) ∧
    (cutoffOk → qOk → coefsOk → exec (.fltSetParams u) s =
      .next { s with flt := (s.flt.set u.toNat
          { fltAt s u.toNat with fc := fc, q := q, b0 := b0, b1 := b1, b2 := b0, a1 := a1, a2 := a2 }) })

/-- FLT_PROCESS: `RESULT` is the second-order recursion evaluated left to right, and the history shifts; nothing else changes
(R143, R149). -/
def Obligations.FltProcessAppliesRecursion : Prop :=
  ∀ (u : BitVec 8) (s : State), Ready s (.fltProcess u) →
    let f := s.params.fmt
    let F := fltAt s u.toNat
    let x := toW f s.arg0
    let y := fpSub f (fpSub f (fpAdd f (fpAdd f (fpMul f F.b0 x) (fpMul f F.b1 F.x1)) (fpMul f F.b2 F.x2))
      (fpMul f F.a1 F.y1)) (fpMul f F.a2 F.y2)
    exec (.fltProcess u) s =
      .next { s with flt := s.flt.set u.toNat { F with x2 := F.x1, x1 := x, y2 := F.y1, y1 := y }, result := to64 f y }

/-- FLT_RESET: the history is zero, parameters and coefficients are kept, nothing else changes (R144). -/
def Obligations.FltResetClearsHistory : Prop :=
  ∀ (u : BitVec 8) (s : State), Ready s (.fltReset u) →
    exec (.fltReset u) s =
      .next { s with flt := s.flt.set u.toNat { fltAt s u.toNat with x1 := 0#64, x2 := 0#64, y1 := 0#64, y2 := 0#64 } }

/-- Only FLT_SET_PARAMS and PREPARE change a filter's parameters and coefficients; PROCESS_BLOCK and FLT_PROCESS leave them
(10_state.md R33, R145). -/
def Obligations.CoefficientsChangeOnlyBySetting : Prop :=
  ∀ (i : Instr) (s t : State), exec i s = .next t → i ≠ .prepare → (∀ u, i ≠ .fltSetParams u) → ∀ v : Nat,
    (t.flt[v]?).map (fun x => (x.fc, x.q, x.b0, x.b1, x.b2, x.a1, x.a2)) =
      (s.flt[v]?).map (fun x => (x.fc, x.q, x.b0, x.b1, x.b2, x.a1, x.a2))

/-! ## Envelope commands (43_envelope.md) -/

/-- ENV_SET_PARAMS: four valid operands are stored, a sustain level of -0 as +0, and in Sustain the level moves to the new one at
once; an invalid one is `CFG_ENVELOPE` (R160; `durSamples` is R161's). -/
def Obligations.EnvSetParamsStoresParameters : Prop :=
  ∀ (u : BitVec 8) (s : State), Ready s (.envSetParams u) →
    let f := s.params.fmt
    let e := envAt s u.toNat
    let sW := toW f s.arg2
    let sustainOk := fpLe f posZero sW = true ∧ fpLe f sW (oneW f) = true
    let sus := if fpEq f sW posZero then posZero else sW
    (∀ na nd nr, durSamples s.sr64 s.arg0 u = .ok na → durSamples s.sr64 s.arg1 u = .ok nd → sustainOk →
      durSamples s.sr64 s.arg3 u = .ok nr →
      exec (.envSetParams u) s =
        .next { s with env := (s.env.set u.toNat
          { e with na := na, nd := nd, nr := nr, s := sus, level := if e.stage = .sustain then sus else e.level }) }) ∧
    ((∃ x, durSamples s.sr64 s.arg0 u = .error x) ∨ (∃ x, durSamples s.sr64 s.arg1 u = .error x) ∨ ¬sustainOk ∨
      (∃ x, durSamples s.sr64 s.arg3 u = .error x) →
      exec (.envSetParams u) s = .next (withError .cfgEnvelope u (encode (.envSetParams u)) s))

/-- ENV_NOTE_ON in every stage: Attack from 0 or from the current level; with `NA = 0` Decay from 1 at once, with `NA = ND = 0`
Sustain at `S` at once; nothing else changes (R164, R165, R166, R169, R170). -/
def Obligations.EnvNoteOnStartsAttack : Prop :=
  ∀ (u : BitVec 8) (s : State), Ready s (.envNoteOn u) →
    let f := s.params.fmt
    let e := envAt s u.toNat
    let from0 := if s.params.attackFromCurrent then e.level else posZero
    (0 < e.na → exec (.envNoteOn u) s =
      .next { s with env := s.env.set u.toNat { e with start := from0, level := from0, n := 0, stage := .attack } }) ∧
    (e.na = 0 → 0 < e.nd → exec (.envNoteOn u) s =
      .next { s with env := s.env.set u.toNat { e with start := oneW f, level := oneW f, n := 0, stage := .decay } }) ∧
    (e.na = 0 → e.nd = 0 → exec (.envNoteOn u) s =
      .next { s with env := s.env.set u.toNat { e with start := oneW f, level := e.s, n := 0, stage := .sustain } })

/-- ENV_NOTE_OFF releases from the current level in Attack, Decay and Sustain, at once to Off with `NR = 0`, and changes nothing in
Idle, Release and Off (R167, R168, R169, R171). -/
def Obligations.EnvNoteOffStartsRelease : Prop :=
  ∀ (u : BitVec 8) (s : State), Ready s (.envNoteOff u) →
    let e := envAt s u.toNat
    let sounding := e.stage = .attack ∨ e.stage = .decay ∨ e.stage = .sustain
    (sounding → 0 < e.nr → exec (.envNoteOff u) s =
      .next { s with env := s.env.set u.toNat { e with start := e.level, n := 0, stage := .release } }) ∧
    (sounding → e.nr = 0 → exec (.envNoteOff u) s =
      .next { s with env := s.env.set u.toNat { e with start := e.level, level := posZero, n := 0, stage := .off } }) ∧
    (¬sounding → exec (.envNoteOff u) s = .next s)

/-- ENV_NEXT: `RESULT` is the level before the advance; a ramp stage takes its next ramp level or completes into the next stage,
the other stages hold; nothing else changes (R163, R169, R172, R173). -/
def Obligations.EnvNextAdvancesOneSample : Prop :=
  ∀ (u : BitVec 8) (s : State), Ready s (.envNext u) →
    let f := s.params.fmt
    let e := envAt s u.toNat
    let ramp := fun (target : Sample) (dur : Nat) =>
      fpAdd f e.start (fpMul f (fpSub f target e.start) (fpDiv f (intToW f (e.n + 1)) (intToW f dur)))
    let next : EnvUnit :=
      match e.stage with
      | .attack =>
        if e.n + 1 < e.na then { e with n := e.n + 1, level := ramp (oneW f) e.na }
        else if e.nd = 0 then { e with start := oneW f, level := e.s, n := 0, stage := .sustain }
        else { e with start := oneW f, level := oneW f, n := 0, stage := .decay }
      | .decay =>
        if e.n + 1 < e.nd then { e with n := e.n + 1, level := ramp e.s e.nd }
        else { e with level := e.s, n := 0, stage := .sustain }
      | .release =>
        if e.n + 1 < e.nr then { e with n := e.n + 1, level := ramp posZero e.nr }
        else { e with level := posZero, n := 0, stage := .off }
      | .sustain => { e with level := e.s }
      | .idle => e
      | .off => e
    exec (.envNext u) s = .next { s with env := s.env.set u.toNat next, result := to64 f e.level }

/-- The outputs of ENV_NEXT, issued with no other command between, after a note-on from level 0 with `NA > 0`: the attack ramp,
exactly 1 at `NA`, the decay ramp, exactly `S` from `NA + ND` on; with `ND = 0`, `S` from `NA` on (R174, which also allows commands
on other units between). -/
def Obligations.AttackDecaySustainSequence : Prop :=
  ∀ (u : BitVec 8) (s : State), Inv s → Ready s (.envNoteOn u) →
    (s.params.attackFromCurrent = false ∨ (envAt s u.toNat).level = posZero) → 0 < (envAt s u.toNat).na →
    ∃ s1, exec (.envNoteOn u) s = .next s1 ∧
      ∀ k : Nat, ∃ t, repeatCommand (.envNext u) k s1 =
        some ((List.range k).map (fun j => to64 s.params.fmt (attackOutput s.params.fmt (envAt s u.toNat) j)), t)

/-- The outputs of ENV_NEXT, issued with no other command between, after a note-off from level `L` with `NR > 0`: `L`, the release
ramp, exactly 0 from `NR` on (R175). -/
def Obligations.ReleaseSequence : Prop :=
  ∀ (u : BitVec 8) (s : State), Inv s → Ready s (.envNoteOff u) →
    ((envAt s u.toNat).stage = .attack ∨ (envAt s u.toNat).stage = .decay ∨ (envAt s u.toNat).stage = .sustain) →
    0 < (envAt s u.toNat).nr →
    ∃ s1, exec (.envNoteOff u) s = .next s1 ∧
      ∀ k : Nat, ∃ t, repeatCommand (.envNext u) k s1 =
        some ((List.range k).map (fun j => to64 s.params.fmt (releaseOutput s.params.fmt (envAt s u.toNat) j)), t)

/-! ## Delay commands (44_delay.md) -/

/-- DLY_SET_DELAY: `1 <= n <= C` sets `D` and reduces the index, the RAM kept; any other `n` is `CFG_DELAY_LENGTH` (R190). -/
def Obligations.DlySetDelayReducesIndex : Prop :=
  ∀ (u : BitVec 8) (s : State), Ready s (.dlySetDelay u) →
    let l := dlyAt s u.toNat
    let n := s.arg0.toNat
    (1 ≤ n → n ≤ l.c → exec (.dlySetDelay u) s =
      .next { s with dly := s.dly.set u.toNat { l with d := n, w := l.w % n } }) ∧
    (n = 0 ∨ l.c < n → exec (.dlySetDelay u) s = .next (withError .cfgDelayLength u (encode (.dlySetDelay u)) s))

/-- DLY_SET_FEEDBACK: a converted gain in [0, 1) is stored, -0 as +0; any other is `CFG_FEEDBACK` (R192). -/
def Obligations.DlySetFeedbackStoresGain : Prop :=
  ∀ (u : BitVec 8) (s : State), Ready s (.dlySetFeedback u) →
    let f := s.params.fmt
    let gW := toW f s.arg0
    let valid := fpLe f posZero gW = true ∧ fpLt f gW (oneW f) = true
    (valid → exec (.dlySetFeedback u) s =
      .next { s with dly := (s.dly.set u.toNat
          { dlyAt s u.toNat with g := if fpEq f gW posZero then posZero else gW }) }) ∧
    (¬valid → exec (.dlySetFeedback u) s = .next (withError .cfgFeedback u (encode (.dlySetFeedback u)) s))

/-- DLY_PROCESS: `y = x + g * d` with `d` the word at the index, read first; `y` is written to that word and to `RESULT`, and the
index advances modulo `D`. Every other word of the delay RAM, and everything else, is unchanged (R193, R195). -/
def Obligations.DlyProcessReadsThenWrites : Prop :=
  ∀ (u : BitVec 8) (s : State), Ready s (.dlyProcess u) → Memory.wf .dram (dlyAt s u.toNat).dram = true →
    let f := s.params.fmt
    let l := dlyAt s u.toNat
    ∃ (d : Sample) (m : Mem), memRead .dram l.dram l.w = some d ∧
      let y := fpAdd f (toW f s.arg0) (fpMul f l.g d)
      exec (.dlyProcess u) s =
        .next { s with dly := s.dly.set u.toNat { l with dram := m, w := (l.w + 1) % l.d }, result := to64 f y } ∧
      memRead .dram m l.w = some y ∧ ∀ i, i ≠ l.w → memRead .dram m i = memRead .dram l.dram i

/-- DLY_RESET: the words below `C` become +0, the others keep their values, the index is 0; `C`, `D`, `g` and everything else are
unchanged (R194). -/
def Obligations.DlyResetZeroesBuffer : Prop :=
  ∀ (u : BitVec 8) (s : State), Ready s (.dlyReset u) →
    let l := dlyAt s u.toNat
    ∃ m : Mem,
      exec (.dlyReset u) s = .next { s with dly := s.dly.set u.toNat { l with dram := m, w := 0 } } ∧
      ∀ i, memRead .dram m i = if i < l.c then some 0#64 else memRead .dram l.dram i

/-- After a DLY_RESET, the outputs for any inputs follow `y[k] = x[k] + g * y[k-D]`, with +0 for `y[k-D]` where `k < D`: the output
depends on no later input (R197). -/
def Obligations.DelayLineRecurrence : Prop :=
  ∀ (u : BitVec 8) (s s1 : State), Inv s → Ready s (.dlyReset u) → exec (.dlyReset u) s = .next s1 → ∀ xs : List Word,
    ∃ (zs : List Sample) (t : State),
      feedCommand (.dlyProcess u) xs s1 = some (zs.map (to64 s.params.fmt), t) ∧ zs.length = xs.length ∧
      ∀ k, k < xs.length →
        zs.getD k posZero = fpAdd s.params.fmt (toW s.params.fmt (xs.getD k 0#64))
          (fpMul s.params.fmt (dlyAt s u.toNat).g
            (if k < (dlyAt s u.toNat).d then posZero else zs.getD (k - (dlyAt s u.toNat).d) posZero))

/-! ## Mixer, PREPARE and PROCESS_BLOCK (45_graph.md) -/

/-- The mix laws for gains 1.0: one stream mixes to itself but for -0, which becomes +0, and the mix of two samples is the W sum of
their mixes, bit for bit, for samples that are not NaNs (R211; W encodings, log 16). -/
def Obligations.MixIsLinear : Prop :=
  ∀ (f : Fmt) (a b : Sample), a.toNat < 2 ^ (signPos f + 1) → b.toNat < 2 ^ (signPos f + 1) →
    fpVal f a ≠ .nan → fpVal f b ≠ .nan →
    mix f 1 [(0x3FF0000000000000#64, [a])] = [if fpEq f a posZero then posZero else a] ∧
    mix f 1 [(0x3FF0000000000000#64, [a]), (0x3FF0000000000000#64, [b])] =
      [fpAdd f (if fpEq f a posZero then posZero else a) (if fpEq f b posZero then posZero else b)]

/-- A successful PREPARE in every state, faulted or not: where the operands and every init record pass, the globals, `STATUS`,
`ERRCMD` and every unit are written, and the operand registers, `RESULT` and OUTBUF are kept. The delay RAM of each line reads +0
below its capacity and keeps its words from the capacity on (R220, R222). `prepareUnits` is R220's list of unit checks, said by
PrepareBuildsUnits. -/
def Obligations.PrepareCommits : Prop :=
  ∀ (s : State) (us : Units),
    let f := s.params.fmt
    let srW := toW f s.arg0
    isFinite .binary64 s.arg0 = true → fpLt .binary64 posZero s.arg0 = true → isFinite f srW = true →
    fpLt f posZero srW = true → 1 ≤ s.arg1.toNat → s.arg1.toNat ≤ s.params.maxBlock →
    prepareUnits s.params s.arg0 srW = .ok us →
    ∃ dly : List DlyUnit,
      exec .prepare s =
        .next { s with
          status := { prepared := true, fault := false, errCode := .noError, errUnit := 0#8 }, errCmd := 0#32
          sr64 := s.arg0, srW := srW, maxBlk := s.arg1.toNat, osc := us.osc, flt := us.flt, env := us.env, dly := dly } ∧
      dly.length = us.dly.length ∧
      ∀ (v : Nat) (l : DlyUnit), us.dly[v]? = some l → ∃ m, dly[v]? = some { l with dram := m } ∧
        ∀ i, memRead .dram m i = if i < l.c then some 0#64 else memRead .dram (dlyAt s v).dram i

/-- What PREPARE's unit checks accept: exactly the parameters whose every init record passes its own check. And what they build, for
every unit of every kind: oscillators at phase +0, filters with zero history, envelopes Idle at +0 or triggered, delay lines at full
length and index 0 (R220; the checks of one record are `oscRecordError` and its like). -/
def Obligations.PrepareBuildsUnits : Prop :=
  ∀ (p : Params) (sr64 : Word) (srW : Sample),
    ((∃ us, prepareUnits p sr64 srW = .ok us) ↔
      (∀ r ∈ p.graph.oscInit, oscRecordError p srW r = none) ∧ (∀ r ∈ p.graph.fltInit, fltRecordError p srW r = none) ∧
      (∀ r ∈ p.graph.envInit, envRecordError p sr64 r = none) ∧ (∀ r ∈ p.graph.dlyInit, dlyRecordError p sr64 r = none)) ∧
    ∀ us : Units, prepareUnits p sr64 srW = .ok us →
    us.osc.length = p.nosc ∧ us.flt.length = p.nflt ∧ us.env.length = p.nenv ∧ us.dly.length = p.ndly ∧
    (∀ (v : Nat) (r : OscInit), p.graph.oscInit[v]? = some r → ∃ inc : Sample,
      inc = fpDiv p.fmt (fpMul p.fmt (twoPiW p.fmt) (toW p.fmt r.freq)) srW ∧
      us.osc[v]? = some { f := toW p.fmt r.freq, inc := inc, phase := posZero, wave := r.wave } ∧
      finitePos p.fmt (toW p.fmt r.freq) = true ∧ finitePos p.fmt inc = true) ∧
    (∀ (v : Nat) (r : FltInit), p.graph.fltInit[v]? = some r → ∃ x : FltUnit, us.flt[v]? = some x ∧
      fltParams p srW r.cutoff r.q (BitVec.ofNat 8 v) =
        .ok (x.fc, x.q, { b0 := x.b0, b1 := x.b1, b2 := x.b2, a1 := x.a1, a2 := x.a2 }) ∧
      x.x1 = posZero ∧ x.x2 = posZero ∧ x.y1 = posZero ∧ x.y2 = posZero) ∧
    (∀ (v : Nat) (r : EnvInit), p.graph.envInit[v]? = some r → ∃ (q : EnvParams) (e : EnvUnit), us.env[v]? = some e ∧
      envParams p.fmt sr64 r.attackSec r.decaySec r.sustain r.releaseSec (BitVec.ofNat 8 v) = .ok q ∧
      e.na = q.na ∧ e.nd = q.nd ∧ e.nr = q.nr ∧ e.s = q.s ∧ e.n = 0 ∧
      (r.triggerOnPrepare = false → e.stage = .idle ∧ e.level = posZero ∧ e.start = posZero) ∧
      (r.triggerOnPrepare = true →
        (0 < q.na → e.stage = .attack ∧ e.level = posZero ∧ e.start = posZero) ∧
        (q.na = 0 → 0 < q.nd → e.stage = .decay ∧ e.level = oneW p.fmt ∧ e.start = oneW p.fmt) ∧
        (q.na = 0 → q.nd = 0 → e.stage = .sustain ∧ e.level = q.s ∧ e.start = oneW p.fmt))) ∧
    (∀ (v : Nat) (r : DlyInit), p.graph.dlyInit[v]? = some r → ∃ (c : Nat) (l : DlyUnit), us.dly[v]? = some l ∧
      dlyCap p.maxDelay sr64 r.delaySeconds (BitVec.ofNat 8 v) = .ok c ∧ l.c = c ∧ l.d = c ∧ l.w = 0 ∧
      feedbackGain p.fmt r.feedback (BitVec.ofNat 8 v) = .ok l.g)

/-- A failing PREPARE, in the order of its checks: sample rate, its conversion, block size, then the unit checks, oscillators, filters,
envelopes, delay lines, each in index order, cutoff before Q and capacity before feedback. The first record that fails, where every
record of an earlier kind and every record of its kind with a lower index passes, gives its code and its index; the error entry
leaves the core unprepared and the rest as it was (R220; 60_exceptions.md R244, R246). The check of one record is `oscRecordError`
and its like. -/
def Obligations.PrepareChecksInOrder : Prop :=
  ∀ s : State,
    let f := s.params.fmt
    let g := s.params.graph
    let srW := toW f s.arg0
    let rateOk := (isFinite .binary64 s.arg0 = true ∧ fpLt .binary64 posZero s.arg0 = true) ∧
      isFinite f srW = true ∧ fpLt f posZero srW = true
    let sizeOk := 1 ≤ s.arg1.toNat ∧ s.arg1.toNat ≤ s.params.maxBlock
    let oscPass := fun l : List OscInit => ∀ r ∈ l, oscRecordError s.params srW r = none
    let fltPass := fun l : List FltInit => ∀ r ∈ l, fltRecordError s.params srW r = none
    let envPass := fun l : List EnvInit => ∀ r ∈ l, envRecordError s.params s.arg0 r = none
    let dlyPass := fun l : List DlyInit => ∀ r ∈ l, dlyRecordError s.params s.arg0 r = none
    (¬rateOk → exec .prepare s = .next (withPrepareError .cfgSampleRate 0#8 s)) ∧
    (rateOk → ¬sizeOk → exec .prepare s = .next (withPrepareError .cfgBlockSize 0#8 s)) ∧
    (rateOk → sizeOk → ∀ (v : Nat) (c : ErrCode),
      (∀ r, g.oscInit[v]? = some r → oscRecordError s.params srW r = some c → oscPass (g.oscInit.take v) →
        exec .prepare s = .next (withPrepareError c (BitVec.ofNat 8 v) s)) ∧
      (oscPass g.oscInit →
        ∀ r, g.fltInit[v]? = some r → fltRecordError s.params srW r = some c → fltPass (g.fltInit.take v) →
          exec .prepare s = .next (withPrepareError c (BitVec.ofNat 8 v) s)) ∧
      (oscPass g.oscInit → fltPass g.fltInit →
        ∀ r, g.envInit[v]? = some r → envRecordError s.params s.arg0 r = some c → envPass (g.envInit.take v) →
          exec .prepare s = .next (withPrepareError c (BitVec.ofNat 8 v) s)) ∧
      (oscPass g.oscInit → fltPass g.fltInit → envPass g.envInit →
        ∀ r, g.dlyInit[v]? = some r → dlyRecordError s.params s.arg0 r = some c → dlyPass (g.dlyInit.take v) →
          exec .prepare s = .next (withPrepareError c (BitVec.ofNat 8 v) s)))

/-- The example of R220 on the default hardware (00_scope.md R6): PREPARE at 44100 Hz and 512 samples succeeds from every state, and
leaves `STATUS` 1 and oscillator 0 at phase +0 with increment 0x3FB00C6938F15E29. That the default filters' coefficients are
finite rests on the default, correctly rounded sine and cosine as the model computes them (log 7, log 8). -/
def Obligations.DefaultPrepareSucceeds : Prop :=
  ∀ s : State, s.params = Params.default → s.arg0 = 0x40E5888000000000#64 → s.arg1 = 512#64 →
    ∃ t, exec .prepare s = .next t ∧ statusWord t.status = 1#64 ∧ (oscAt t 0).phase = 0#64 ∧
      (oscAt t 0).inc = 0x3FB00C6938F15E29#64

/-- PROCESS_BLOCK, its result and frame: a block larger than `MAXBLK` is `PRG_BLOCK_TOO_LARGE`; else OUTBUF words below `bs` hold the
block's samples and the others are kept, units that `GRAPH` does not name are unchanged, and nothing but units, OUTBUF and
scratch is written; an empty block advances no unit and keeps OUTBUF (R224; 10_state.md R42, 20_memory.md R68). `runGraph` is
R224's block, said sample by sample by OrderOfUnitsDoesNotMatter. -/
def Obligations.ProcessBlockWritesOutbuf : Prop :=
  ∀ s : State, Inv s → Ready s .processBlock →
    let bs := s.arg0.toNat
    (s.maxBlk < bs → exec .processBlock s = .next (withError .prgBlockTooLarge 0#8 (encode .processBlock) s)) ∧
    (bs ≤ s.maxBlk → ∃ t, exec .processBlock s = .next t ∧
      t = { s with osc := t.osc, flt := t.flt, env := t.env, dly := t.dly, outbuf := t.outbuf, scratch := t.scratch } ∧
      (runGraph s bs).1.length = bs ∧
      (∀ i y, (runGraph s bs).1[i]? = some y → memRead .outbuf t.outbuf i = some (to64 s.params.fmt y)) ∧
      (∀ i, bs ≤ i → memRead .outbuf t.outbuf i = memRead .outbuf s.outbuf i) ∧
      SameUnits t (runGraph s bs).2 ∧
      (∀ v, v ∉ s.params.graph.oscNames → t.osc[v]? = s.osc[v]?) ∧
      (∀ v, v ∉ s.params.graph.fltNames → t.flt[v]? = s.flt[v]?) ∧
      (∀ v, v ∉ s.params.graph.envNames → t.env[v]? = s.env[v]?) ∧
      (∀ v, s.params.graph.delay ≠ some v → t.dly[v]? = s.dly[v]?) ∧
      (bs = 0 → SameUnits t s ∧ t.outbuf = s.outbuf))

/-- Order independence: a block run unit by unit gives the samples and the units that the same block gives sample by sample, in the
order of R215 (R225). -/
def Obligations.OrderOfUnitsDoesNotMatter : Prop :=
  ∀ (s : State) (bs : Nat), Inv s →
    (runGraph s bs).1 = (sampleRun bs s).1 ∧ SameUnits (runGraph s bs).2 (sampleRun bs s).2

/-- Block-size independence: `m + n` samples in one block, or in a block of `m` and then one of `n`, give the same output samples, read
from OUTBUF after each block, and the same final units (R226). -/
def Obligations.BlockSizeDoesNotMatter : Prop :=
  ∀ (s s1 s2 t : State) (m n : Nat), Inv s → Ready s .processBlock → m + n ≤ s.maxBlk →
    exec .processBlock { s with arg0 := BitVec.ofNat 64 m } = .next s1 →
    exec .processBlock { s1 with arg0 := BitVec.ofNat 64 n } = .next s2 →
    exec .processBlock { s with arg0 := BitVec.ofNat 64 (m + n) } = .next t →
    SameUnits s2 t ∧
    (∀ i, i < m → memRead .outbuf s1.outbuf i = memRead .outbuf t.outbuf i) ∧
    (∀ i, i < n → memRead .outbuf s2.outbuf i = memRead .outbuf t.outbuf (m + i))

/-! ## Invariants -/

/-- The power-on state of every legal set of parameters, the reset state among them, meets the invariant. Its units are at the
model's own values (log 3, log 4); the invariant says nothing of them while the core is unprepared. -/
def Obligations.PowerOnMeetsInvariant : Prop :=
  (∀ p : Params, p.wf = true → Inv (State.powerOn p)) ∧ Inv State.reset

/-- Every step keeps the invariant, from every state that meets it: memories stay canonical and in bounds, `1 <= D <= C <= MAX_DELAY`
and `w < D`, the counters stay u32, `f` and `inc` stay positive, Idle, Off and Sustain hold their levels, the error record
agrees with `FAULT`, `PRG_MIX_LENGTH` is never raised (10_state.md R31, R35, R37; 20_memory.md R67; 40_command_common.md R105;
60_exceptions.md R241). -/
def Obligations.StepKeepsInvariant : Prop := ∀ s t : State, Inv s → step s = .next t → Inv t

/-- Every step keeps every prepared oscillator's phase in [+0, `TWO_PI_W`) (10_state.md R31, 41_oscillator.md R125). -/
def Obligations.StepKeepsPhasesInRange : Prop := ∀ s t : State, Inv s → PhasesOk s → step s = .next t → PhasesOk t

/-- Every step keeps every prepared envelope's `level` and `start` in [0, 1], under W rounding, from every state that meets the
invariant (10_state.md R35, its first line). -/
def Obligations.StepKeepsLevelsInRange : Prop := ∀ s t : State, Inv s → LevelsOk s → step s = .next t → LevelsOk t
end

