-- ==== Sys2Proof/Laws/Float.lean ====
section
/-! SUPPORT. What rounding and the encodings do, said once (00_scope.md R10, R12). -/

namespace Sys2Proof.Machine

open Sys2Proof

/-! The place of the highest bit. -/

theorem highBit_eq (l : List Nat) : ∀ (m acc : Nat), (∀ s ∈ l, 0 < s) → highBit l m acc = highBit l m 0 + acc := by
  induction l with
  | nil => intros; simp [highBit]
  | cons s rest ih =>
    intro m acc h
    have hr : ∀ x ∈ rest, 0 < x := fun x hx => h x (List.mem_cons_of_mem _ hx)
    simp only [highBit]
    split_ifs
    · exact ih m acc hr
    · rw [ih (m / 2 ^ s) (acc + s) hr, ih (m / 2 ^ s) (0 + s) hr]; omega

theorem log2_div_pow {m s : Nat} (h : 2 ^ s ≤ m) : Nat.log2 (m / 2 ^ s) + s = Nat.log2 m := by
  have hm : m ≠ 0 := by have := Nat.two_pow_pos s; omega
  have hd : m / 2 ^ s ≠ 0 := by
    have := Nat.div_pos h (Nat.two_pow_pos s); omega
  refine ((Nat.log2_eq_iff hm).2 ⟨?_, ?_⟩).symm
  · have h1 := Nat.log2_self_le hd
    calc 2 ^ (Nat.log2 (m / 2 ^ s) + s) = 2 ^ Nat.log2 (m / 2 ^ s) * 2 ^ s := by rw [pow_add]
      _ ≤ m / 2 ^ s * 2 ^ s := Nat.mul_le_mul_right _ h1
      _ ≤ m := Nat.div_mul_le_self m _
  · have h2 : m / 2 ^ s < 2 ^ (Nat.log2 (m / 2 ^ s) + 1) := Nat.lt_log2_self
    have := (Nat.div_lt_iff_lt_mul (Nat.two_pow_pos s)).1 h2
    calc m < 2 ^ (Nat.log2 (m / 2 ^ s) + 1) * 2 ^ s := this
      _ = 2 ^ (Nat.log2 (m / 2 ^ s) + s + 1) := by rw [← pow_add]; congr 1; omega

theorem highBit_halving (s : Nat) (rest : List Nat) (hrest : ∀ x ∈ rest, 0 < x)
    (ih : ∀ m, m < 2 ^ s → highBit rest m 0 = Nat.log2 m) {m : Nat} (hm : m < 2 ^ (2 * s)) :
    highBit (s :: rest) m 0 = Nat.log2 m := by
  simp only [highBit]
  split_ifs with h
  · exact ih m h
  · have hle : 2 ^ s ≤ m := not_lt.1 h
    have hlt : m / 2 ^ s < 2 ^ s := by
      rw [Nat.div_lt_iff_lt_mul (Nat.two_pow_pos s), ← pow_add]
      rw [show s + s = 2 * s by omega]; exact hm
    rw [highBit_eq rest _ _ hrest, ih _ hlt, Nat.zero_add]
    exact log2_div_pow hle

theorem ilog2_eq_log2 (m : Nat) : ilog2 m = Nat.log2 m := by
  have h1 : ∀ m, m < 2 ^ 1 → highBit [] m 0 = Nat.log2 m := by
    intro m hm
    have : m = 0 ∨ m = 1 := by omega
    rcases this with rfl | rfl <;> decide
  have h2 := fun m hm => highBit_halving 1 [] (by simp) h1 (m := m) hm
  have h4 := fun m hm => highBit_halving 2 [1] (by simp) h2 (m := m) hm
  have h8 := fun m hm => highBit_halving 4 [2, 1] (by simp) h4 (m := m) hm
  have h16 := fun m hm => highBit_halving 8 [4, 2, 1] (by simp) h8 (m := m) hm
  have h32 := fun m hm => highBit_halving 16 [8, 4, 2, 1] (by simp) h16 (m := m) hm
  have h64 := fun m hm => highBit_halving 32 [16, 8, 4, 2, 1] (by simp) h32 (m := m) hm
  have h128 := fun m hm => highBit_halving 64 [32, 16, 8, 4, 2, 1] (by simp) h64 (m := m) hm
  have h256 := fun m hm => highBit_halving 128 [64, 32, 16, 8, 4, 2, 1] (by simp) h128 (m := m) hm
  have h512 := fun m hm => highBit_halving 256 [128, 64, 32, 16, 8, 4, 2, 1] (by simp) h256 (m := m) hm
  have h1024 := fun m hm => highBit_halving 512 [256, 128, 64, 32, 16, 8, 4, 2, 1] (by simp) h512 (m := m) hm
  have h2048 := fun m hm =>
    highBit_halving 1024 [512, 256, 128, 64, 32, 16, 8, 4, 2, 1] (by simp) h1024 (m := m) hm
  have h4096 := fun m hm =>
    highBit_halving 2048 [1024, 512, 256, 128, 64, 32, 16, 8, 4, 2, 1] (by simp) h2048 (m := m) hm
  unfold ilog2
  split_ifs with h
  · exact h4096 m h
  · rfl

/-! Encodings and the values they stand for. -/

theorem fracBits_pos (f : Fmt) : 0 < fracBits f := by cases f <;> decide

theorem signPos_lt (f : Fmt) : signPos f < 64 := by cases f <;> decide

theorem expMax_ge (f : Fmt) : 2 ≤ expMax f := by cases f <;> decide

theorem expMax_lt (f : Fmt) : expMax f + 1 = 2 ^ expBits f := by cases f <;> rfl

theorem infMag_lt (f : Fmt) : expMax f * 2 ^ fracBits f + 2 ^ fracBits f = 2 ^ signPos f := by cases f <;> rfl

/-- The quanta of a finite magnitude's encoding. -/
def quantaOf (f : Fmt) (mag : Nat) : Nat :=
  if mag / 2 ^ fracBits f = 0 then mag % 2 ^ fracBits f
  else (mag % 2 ^ fracBits f + 2 ^ fracBits f) * 2 ^ (mag / 2 ^ fracBits f - 1)

theorem withSign_toNat (f : Fmt) (neg : Bool) {mag : Nat} (h : mag < 2 ^ signPos f) :
    (withSign f neg mag).toNat = mag + if neg then 2 ^ signPos f else 0 := by
  have h1 : 2 ^ signPos f * 2 ≤ 2 ^ 64 := by
    rw [← pow_succ]; exact Nat.pow_le_pow_right (by omega) (signPos_lt f)
  unfold withSign
  rw [BitVec.toNat_ofNat]
  apply Nat.mod_eq_of_lt
  split_ifs <;> omega

theorem withSign_fields (f : Fmt) (neg : Bool) {mag : Nat} (h : mag < 2 ^ signPos f) :
    (withSign f neg mag).toNat % 2 ^ fracBits f = mag % 2 ^ fracBits f ∧
    (withSign f neg mag).toNat / 2 ^ fracBits f % 2 ^ expBits f = mag / 2 ^ fracBits f ∧
    ((withSign f neg mag).toNat / 2 ^ signPos f % 2 == 1) = neg := by
  have hs : 2 ^ signPos f = 2 ^ expBits f * 2 ^ fracBits f := by
    rw [← pow_add]; congr 1; unfold signPos; omega
  have hM := Nat.two_pow_pos (fracBits f)
  have hS := Nat.two_pow_pos (signPos f)
  have hq : mag / 2 ^ fracBits f < 2 ^ expBits f := by
    rw [Nat.div_lt_iff_lt_mul hM, ← hs]; exact h
  rw [withSign_toNat f neg h]
  cases neg with
  | false =>
    simp only [Bool.false_eq_true, if_false, Nat.add_zero]
    refine ⟨trivial, Nat.mod_eq_of_lt hq, ?_⟩
    rw [Nat.div_eq_of_lt h]; rfl
  | true =>
    simp only [if_true]
    refine ⟨?_, ?_, ?_⟩
    · rw [hs, Nat.add_mul_mod_self_right]
    · rw [hs, Nat.add_mul_div_right _ _ hM, Nat.add_mod_right, Nat.mod_eq_of_lt hq]
    · rw [Nat.add_div_right _ hS, Nat.div_eq_of_lt h]; rfl

/-- The value of a finite magnitude's encoding. -/
theorem fpVal_withSign (f : Fmt) (neg : Bool) {mag : Nat} (h : mag < expMax f * 2 ^ fracBits f) :
    fpVal f (withSign f neg mag) = .fin neg (quantaOf f mag) := by
  have hlt : mag < 2 ^ signPos f := lt_of_lt_of_le h (by rw [← infMag_lt f]; exact Nat.le_add_right _ _)
  obtain ⟨h1, h2, h3⟩ := withSign_fields f neg hlt
  have hex : ¬mag / 2 ^ fracBits f = expMax f := by
    have := (Nat.div_lt_iff_lt_mul (Nat.two_pow_pos (fracBits f))).2 h
    omega
  simp only [fpVal, h1, h2, h3, hex, if_false, quantaOf]
  split_ifs <;> rfl

/-- The infinities' values. -/
theorem fpVal_fpInf (f : Fmt) (neg : Bool) : fpVal f (fpInf f neg) = .inf neg := by
  cases f <;> cases neg <;> decide +kernel

/-- A drawn NaN is a NaN of its format, whatever is drawn (00_scope.md R6, `NAN_W`: "any NaN of W"). -/
theorem fpVal_mkNaN (f : Fmt) (d : Sample) : fpVal f (mkNaN f d) = .nan := by
  have hM := Nat.two_pow_pos (fracBits f)
  have hM2 : 2 ≤ 2 ^ fracBits f := by
    calc 2 = 2 ^ 1 := rfl
      _ ≤ 2 ^ fracBits f := Nat.pow_le_pow_right (by omega) (fracBits_pos f)
  have key : ∀ (neg : Bool) (p : Nat), 0 < p → p < 2 ^ fracBits f →
      fpVal f (withSign f neg (expMax f * 2 ^ fracBits f + p)) = .nan := by
    intro neg p hp hlt
    have hmag : expMax f * 2 ^ fracBits f + p < 2 ^ signPos f := by have := infMag_lt f; omega
    obtain ⟨h1, h2, h3⟩ := withSign_fields f neg hmag
    have hf : (expMax f * 2 ^ fracBits f + p) % 2 ^ fracBits f = p := by
      rw [Nat.mul_add_mod_self_right, Nat.mod_eq_of_lt hlt]
    have he : (expMax f * 2 ^ fracBits f + p) / 2 ^ fracBits f = expMax f := by
      rw [Nat.add_comm, Nat.add_mul_div_right _ _ hM, Nat.div_eq_of_lt hlt, Nat.zero_add]
    simp only [fpVal, h1, h2, hf, he, if_true]
    rw [if_neg (by omega)]
  unfold mkNaN
  simp only
  split_ifs with h0
  · exact key _ 1 (by omega) (by omega)
  · exact key _ _ (by omega) (Nat.mod_lt _ hM)

@[simp] theorem fpVal_nanW (f : Fmt) (op : FpOp) (a b : Sample) : fpVal f (nanW f op a b) = .nan := fpVal_mkNaN f _

@[simp] theorem fpVal_posZero (f : Fmt) : fpVal f posZero = .fin false 0 := by cases f <;> decide

/-! Rounding. -/

/-- `m` scaled by `2 ^ x` is encoded as `x * 2 ^ fracBits + m`, for a significand of at most one bit more than the
fraction field, with the hidden bit where `x > 0`. -/
theorem quantaOf_scaled (f : Fmt) {x m : Nat} (h1 : m ≤ 2 ^ (fracBits f + 1)) (h2 : 0 < x → 2 ^ fracBits f ≤ m) :
    quantaOf f (x * 2 ^ fracBits f + m) = m * 2 ^ x := by
  have hM := Nat.two_pow_pos (fracBits f)
  have hp : 2 ^ (fracBits f + 1) = 2 * 2 ^ fracBits f := by rw [pow_succ]; ring
  have hdiv : (x * 2 ^ fracBits f + m) / 2 ^ fracBits f = x + m / 2 ^ fracBits f := by
    rw [Nat.add_comm, Nat.add_mul_div_right _ _ hM, Nat.add_comm]
  have hmod : (x * 2 ^ fracBits f + m) % 2 ^ fracBits f = m % 2 ^ fracBits f := Nat.mul_add_mod_self_right _ _ _
  unfold quantaOf
  rw [hdiv, hmod]
  rcases Nat.lt_or_ge m (2 ^ fracBits f) with hm | hm
  · have hx : x = 0 := by
      by_contra hx; have := h2 (by omega); omega
    subst hx
    rw [Nat.div_eq_of_lt hm, Nat.mod_eq_of_lt hm]; simp
  · rcases Nat.lt_or_ge m (2 * 2 ^ fracBits f) with hm2 | hm2
    · have hd : m / 2 ^ fracBits f = 1 := by
        apply Nat.div_eq_of_lt_le <;> omega
      have hr : m % 2 ^ fracBits f = m - 2 ^ fracBits f := by
        rw [Nat.mod_eq_sub_mod hm, Nat.mod_eq_of_lt (by omega)]
      rw [hd, hr, if_neg (by omega), Nat.sub_add_cancel hm, Nat.add_sub_cancel]
    · have hm' : m = 2 * 2 ^ fracBits f := by omega
      subst hm'
      rw [Nat.mul_div_cancel _ hM, Nat.mul_mod_left, if_neg (by omega)]
      rw [show x + 2 - 1 = x + 1 by omega, pow_succ]; ring

/-- The exponent, the divisor, the quotient and the remainder of a rounding. -/
theorem roundMag_eq (f : Fmt) (num den : Nat) :
    roundMag f num den =
      let x := Nat.log2 (num / den) - fracBits f
      let q := num / (den * 2 ^ x)
      let r := num % (den * 2 ^ x)
      Nat.min (x * 2 ^ fracBits f + q +
        if decide (den * 2 ^ x < 2 * r) || (decide (2 * r = den * 2 ^ x) && q % 2 == 1) then 1 else 0)
        (expMax f * 2 ^ fracBits f) := by
  unfold roundMag; simp only [ilog2_eq_log2]

/-- The significand before rounding has at most one bit more than the fraction field, and its hidden bit where it is
scaled. -/
theorem significand_bounds (f : Fmt) (num : Nat) {den : Nat} :
    num / (den * 2 ^ (Nat.log2 (num / den) - fracBits f)) < 2 ^ (fracBits f + 1) ∧
    (0 < Nat.log2 (num / den) - fracBits f →
      2 ^ fracBits f ≤ num / (den * 2 ^ (Nat.log2 (num / den) - fracBits f))) := by
  rw [← Nat.div_div_eq_div_mul]
  set v := num / den
  constructor
  · rw [Nat.div_lt_iff_lt_mul (Nat.two_pow_pos _), ← pow_add]
    have : v < 2 ^ (Nat.log2 v + 1) := Nat.lt_log2_self
    exact lt_of_lt_of_le this (Nat.pow_le_pow_right (by omega) (by omega))
  · intro hx
    rw [Nat.le_div_iff_mul_le (Nat.two_pow_pos _), ← pow_add]
    have hv : v ≠ 0 := by
      intro h; rw [h] at hx; simp at hx
    have := Nat.log2_self_le hv
    refine le_trans (Nat.pow_le_pow_right (by omega) ?_) this
    omega

/-- What a rounding that does not overflow stands for: its significand, rounded, times its scale. -/
theorem quantaOf_roundMag (f : Fmt) (num den : Nat) (h : roundMag f num den < expMax f * 2 ^ fracBits f) :
    quantaOf f (roundMag f num den) =
      let x := Nat.log2 (num / den) - fracBits f
      let q := num / (den * 2 ^ x)
      let r := num % (den * 2 ^ x)
      (q + if decide (den * 2 ^ x < 2 * r) || (decide (2 * r = den * 2 ^ x) && q % 2 == 1) then 1 else 0) * 2 ^ x := by
  rw [roundMag_eq] at h ⊢
  simp only at h ⊢
  obtain ⟨hb1, hb2⟩ := significand_bounds f num (den := den)
  set x := Nat.log2 (num / den) - fracBits f
  set q := num / (den * 2 ^ x)
  set up := (if decide (den * 2 ^ x < 2 * (num % (den * 2 ^ x))) ||
    (decide (2 * (num % (den * 2 ^ x)) = den * 2 ^ x) && q % 2 == 1) then 1 else 0) with hup
  have hup1 : up ≤ 1 := by rw [hup]; split_ifs <;> omega
  have hmin : Nat.min (x * 2 ^ fracBits f + q + up) (expMax f * 2 ^ fracBits f) = x * 2 ^ fracBits f + q + up := by
    rcases Nat.le_total (x * 2 ^ fracBits f + q + up) (expMax f * 2 ^ fracBits f) with hle | hle
    · exact Nat.min_eq_left hle
    · exfalso; rw [show Nat.min _ _ = _ from Nat.min_eq_right hle] at h; omega
  rw [hmin, Nat.add_assoc]
  exact quantaOf_scaled f (by omega) (fun hx => le_trans (hb2 hx) (Nat.le_add_right _ _))

/-- A number of quanta with at most `fracBits + 1` significant bits and not too large is its own rounding. -/
theorem quantaOf_roundMag_exact (f : Fmt) {m x : Nat} (hm : m < 2 ^ (fracBits f + 1))
    (hsmall : roundMag f (m * 2 ^ x) 1 < expMax f * 2 ^ fracBits f) :
    quantaOf f (roundMag f (m * 2 ^ x) 1) = m * 2 ^ x := by
  rw [quantaOf_roundMag f _ _ hsmall]
  simp only [Nat.div_one, Nat.one_mul]
  set k := m * 2 ^ x with hk
  have hdvd : 2 ^ (Nat.log2 k - fracBits f) ∣ k := by
    rcases Nat.eq_zero_or_pos m with rfl | hpos
    · rw [hk, Nat.zero_mul]; exact dvd_zero _
    · have hm0 : m ≠ 0 := by omega
      have hlog : Nat.log2 k = Nat.log2 m + x := by
        have h2 : 2 ^ x ≤ k := by rw [hk]; exact Nat.le_mul_of_pos_left _ hpos
        have := log2_div_pow h2
        rw [hk, Nat.mul_div_cancel _ (Nat.two_pow_pos x), ← hk] at this
        omega
      have hlm : Nat.log2 m < fracBits f + 1 := (Nat.log2_lt hm0).2 hm
      exact Dvd.dvd.mul_left (pow_dvd_pow 2 (show Nat.log2 k - fracBits f ≤ x by omega)) m
  have hr : k % 2 ^ (Nat.log2 k - fracBits f) = 0 := Nat.mod_eq_zero_of_dvd hdvd
  have hD := Nat.two_pow_pos (Nat.log2 k - fracBits f)
  rw [hr]
  simp only [Nat.mul_zero, Nat.not_lt_zero, decide_false, Bool.false_or]
  rw [if_neg (by simp; omega), Nat.add_zero]
  exact Nat.div_mul_cancel hdvd

end Sys2Proof.Machine
end

