-- ==== Sys2Proof/Laws/Graph.lean ====
section
/-! SUPPORT. What PREPARE's run over the init records of one kind can do, said once: every record passes, or the first that
fails decides (45_graph.md R220, 60_exceptions.md R244). -/

namespace Sys2Proof.Machine

open Sys2Proof

variable {α β : Type} {check : BitVec 8 → α → Except CmdError β}

/-- Where every record passes, so does the run. -/
theorem checkEach_passes {rs : List α} : ∀ {u : Nat},
    (∀ (v : Nat) (r : α), rs[v]? = some r → ∃ b, check (BitVec.ofNat 8 (u + v)) r = .ok b) →
    ∃ bs, checkEach check u rs = .ok bs := by
  induction rs with
  | nil => intro u _; exact ⟨[], rfl⟩
  | cons r rest ih =>
    intro u h
    obtain ⟨b, hb⟩ := h 0 r rfl
    obtain ⟨bs, hbs⟩ := ih (u := u + 1) fun v x hx => by
      rw [Nat.add_assoc, Nat.add_comm 1 v]; exact h (v + 1) x (by simpa using hx)
    rw [Nat.add_zero] at hb
    exact ⟨b :: bs, by simp only [checkEach, hb, hbs]⟩

/-- A run that passes has one result for each record, the record's own. -/
theorem checkEach_ok {rs : List α} : ∀ {u : Nat} {bs : List β}, checkEach check u rs = .ok bs →
    bs.length = rs.length ∧
    ∀ (v : Nat) (r : α), rs[v]? = some r → ∃ b, bs[v]? = some b ∧ check (BitVec.ofNat 8 (u + v)) r = .ok b := by
  induction rs with
  | nil => intro u bs h; simp only [checkEach, Except.ok.injEq] at h; subst h; simp
  | cons r rest ih =>
    intro u bs h
    simp only [checkEach] at h
    split at h
    · simp at h
    · rename_i b hb
      split at h
      · simp at h
      · rename_i bs' hbs
        simp only [Except.ok.injEq] at h
        subst h
        obtain ⟨hl, hv⟩ := ih hbs
        refine ⟨by simp [hl], fun v x hx => ?_⟩
        cases v with
        | zero => simp only [List.getElem?_cons_zero, Option.some.injEq] at hx; subst hx; exact ⟨b, rfl, by simpa using hb⟩
        | succ v =>
          obtain ⟨c, hc, he⟩ := hv v x (by simpa using hx)
          exact ⟨c, by simpa using hc, by rw [show u + (v + 1) = u + 1 + v by omega]; exact he⟩

/-- The first record that fails gives the run's error. -/
theorem checkEach_first_error {rs : List α} : ∀ {u v : Nat} {r : α} {e : CmdError}, rs[v]? = some r →
    check (BitVec.ofNat 8 (u + v)) r = .error e →
    (∀ (w : Nat) (x : α), w < v → rs[w]? = some x → ∃ b, check (BitVec.ofNat 8 (u + w)) x = .ok b) →
    checkEach check u rs = .error e := by
  induction rs with
  | nil => intro u v r e h; simp at h
  | cons a rest ih =>
    intro u v r e hr he hb
    cases v with
    | zero =>
      simp only [List.getElem?_cons_zero, Option.some.injEq] at hr
      subst hr
      rw [Nat.add_zero] at he
      simp only [checkEach, he]
    | succ v =>
      obtain ⟨b, h0⟩ := hb 0 a (Nat.succ_pos v) rfl
      rw [Nat.add_zero] at h0
      have := ih (u := u + 1) (v := v) (r := r) (e := e) (by simpa using hr)
        (by rw [show u + 1 + v = u + (v + 1) by omega]; exact he) fun w x hw hx => by
          rw [show u + 1 + w = u + (w + 1) by omega]; exact hb (w + 1) x (by omega) (by simpa using hx)
      simp only [checkEach, h0, this]

variable {err : α → Option ErrCode}

/-- Where a check fails exactly as `err` says, a run over the records passes exactly where `err` names no error. -/
theorem checkEach_passes_iff
    (hk : ∀ u r, (err r = none → ∃ b, check u r = .ok b) ∧ ∀ c, err r = some c → check u r = .error { code := c, unit := u })
    (rs : List α) : (∃ bs, checkEach check 0 rs = .ok bs) ↔ ∀ r ∈ rs, err r = none := by
  constructor
  · rintro ⟨bs, h⟩ r hr
    obtain ⟨v, hv, rfl⟩ := List.getElem_of_mem hr
    obtain ⟨b, _, hb⟩ := (checkEach_ok h).2 v rs[v] (List.getElem?_eq_getElem hv)
    cases he : err rs[v] with
    | none => rfl
    | some c => rw [(hk _ _).2 c he] at hb; simp at hb
  · exact fun h => checkEach_passes fun v r hr => (hk _ r).1 (h r (List.mem_of_getElem? hr))

/-- Where a check fails exactly as `err` says, the first record `err` names an error for gives the run's error. -/
theorem checkEach_first_fails
    (hk : ∀ u r, (err r = none → ∃ b, check u r = .ok b) ∧ ∀ c, err r = some c → check u r = .error { code := c, unit := u })
    {rs : List α} {v : Nat} {r : α} {c : ErrCode} (hr : rs[v]? = some r) (he : err r = some c)
    (hp : ∀ x ∈ rs.take v, err x = none) : checkEach check 0 rs = .error { code := c, unit := BitVec.ofNat 8 v } :=
  checkEach_first_error hr (by rw [Nat.zero_add]; exact (hk _ r).2 c he) fun w x hw hx =>
    (hk _ x).1 (hp x (List.mem_iff_getElem?.2 ⟨w, by rw [List.getElem?_take_of_lt hw]; exact hx⟩))

/-! The check of one record fails exactly as its `…RecordError` says. -/

theorem initOsc_check (p : Params) (srW : Sample) (u : BitVec 8) (r : OscInit) :
    (oscRecordError p srW r = none → ∃ b, initOsc p srW u r = .ok b) ∧
    ∀ c, oscRecordError p srW r = some c → initOsc p srW u r = .error { code := c, unit := u } := by
  unfold oscRecordError initOsc oscFrequency oscInc f64
  dsimp only
  split_ifs <;> simp

theorem initFlt_check (p : Params) (srW : Sample) (u : BitVec 8) (r : FltInit) :
    (fltRecordError p srW r = none → ∃ b, initFlt p srW u r = .ok b) ∧
    ∀ c, fltRecordError p srW r = some c → initFlt p srW u r = .error { code := c, unit := u } := by
  unfold fltRecordError initFlt fltParams fltCheck sampleArg f64
  dsimp only
  cases finitePos p.fmt (toW p.fmt r.cutoff) && fpLt p.fmt (toW p.fmt r.cutoff) (fpDiv p.fmt srW (twoW p.fmt)) <;>
    cases finitePos p.fmt (toW p.fmt r.q) <;>
    cases coefsFinite p.fmt (fltCoef p srW (toW p.fmt r.cutoff) (toW p.fmt r.q)) <;> simp

/-- Whether a duration is legal does not depend on the unit; where it is not, the error is `CFG_ENVELOPE` for the unit. -/
theorem durSamples_check (sr64 sec : Word) (u : BitVec 8) :
    ((durSamples sr64 sec 0#8).isOk = true → ∃ n, durSamples sr64 sec u = .ok n) ∧
    ((durSamples sr64 sec 0#8).isOk = false → durSamples sr64 sec u = .error { code := .cfgEnvelope, unit := u }) := by
  unfold durSamples
  dsimp only
  split_ifs
  · simp [Except.isOk, Except.toBool]
  · cases fpVal .binary64 (fpMul .binary64 sec sr64) <;> dsimp only <;> (try split_ifs) <;>
      simp [Except.isOk, Except.toBool]

/-- Whether a delay length is legal does not depend on the unit; where it is not, the error is `CFG_DELAY_LENGTH` for the unit. -/
theorem dlyCap_check (m : Nat) (sr64 sec : Word) (u : BitVec 8) :
    ((dlyCap m sr64 sec 0#8).isOk = true → ∃ n, dlyCap m sr64 sec u = .ok n) ∧
    ((dlyCap m sr64 sec 0#8).isOk = false → dlyCap m sr64 sec u = .error { code := .cfgDelayLength, unit := u }) := by
  unfold dlyCap
  dsimp only
  split_ifs
  · simp [Except.isOk, Except.toBool]
  · cases fpVal .binary64 (fpMul .binary64 sec sr64) <;> dsimp only <;> (try split_ifs) <;>
      simp [Except.isOk, Except.toBool]

theorem initEnv_check (p : Params) (sr64 : Word) (u : BitVec 8) (r : EnvInit) :
    (envRecordError p sr64 r = none → ∃ b, initEnv p sr64 u r = .ok b) ∧
    ∀ c, envRecordError p sr64 r = some c → initEnv p sr64 u r = .error { code := c, unit := u } := by
  unfold envRecordError initEnv envParams sustainLevel f64
  dsimp only
  cases ha : (durSamples sr64 r.attackSec 0#8).isOk with
  | false => simp [(durSamples_check _ _ u).2 ha]
  | true =>
    obtain ⟨na, ea⟩ := (durSamples_check _ _ u).1 ha
    cases hd : (durSamples sr64 r.decaySec 0#8).isOk with
    | false => simp [ea, (durSamples_check _ _ u).2 hd]
    | true =>
      obtain ⟨nd, ed⟩ := (durSamples_check _ _ u).1 hd
      cases fpLe p.fmt posZero (toW p.fmt r.sustain) && fpLe p.fmt (toW p.fmt r.sustain) (oneW p.fmt) with
      | false => simp [ea, ed]
      | true =>
        cases hr : (durSamples sr64 r.releaseSec 0#8).isOk with
        | false => simp [ea, ed, (durSamples_check _ _ u).2 hr]
        | true =>
          obtain ⟨nr, er⟩ := (durSamples_check _ _ u).1 hr
          simp [ea, ed, er]

theorem initDly_check (p : Params) (sr64 : Word) (u : BitVec 8) (r : DlyInit) :
    (dlyRecordError p sr64 r = none → ∃ b, initDly p sr64 u r = .ok b) ∧
    ∀ c, dlyRecordError p sr64 r = some c → initDly p sr64 u r = .error { code := c, unit := u } := by
  unfold dlyRecordError initDly feedbackGain f64
  dsimp only
  cases hc : (dlyCap p.maxDelay sr64 r.delaySeconds 0#8).isOk with
  | false => simp [(dlyCap_check _ _ _ u).2 hc]
  | true =>
    obtain ⟨c, ec⟩ := (dlyCap_check _ _ _ u).1 hc
    cases fpLe p.fmt posZero (toW p.fmt r.feedback) && fpLt p.fmt (toW p.fmt r.feedback) (oneW p.fmt) <;> simp [ec]

/-- The committed delay lines are the new ones, each with the old line's RAM zeroed below its capacity (45_graph.md R220). -/
theorem commitDly_spec (new : List DlyUnit) : ∀ old : List DlyUnit, (commitDly old new).length = new.length ∧
    ∀ (v : Nat) (l : DlyUnit), new[v]? = some l →
      (commitDly old new)[v]? = some { l with dram := zeroBelow (old.getD v DlyUnit.reset).dram l.c } := by
  induction new with
  | nil => intro old; simp [commitDly]
  | cons x new ih =>
    intro old
    refine ⟨by simp [commitDly, (ih old.tail).1], fun v l h => ?_⟩
    cases v with
    | zero => simp only [List.getElem?_cons_zero, Option.some.injEq] at h; subst h; cases old <;> rfl
    | succ v =>
      have := (ih old.tail).2 v l (by simpa using h)
      cases old with
      | nil => simpa [commitDly] using this
      | cons y old => simpa [commitDly] using this

end Sys2Proof.Machine
end

