-- ==== Sys2Proof/Laws/Mem.lean ====
section
/-! SUPPORT. What a memory operation does, said once: reading after a write, a clear or a run of writes, and the canonical
form kept. -/

namespace Sys2Proof.Machine

open Sys2Proof

theorem risingFrom_mono {lo lo' : Nat} {m : Mem} (h : risingFrom lo m = true) (hl : lo' ≤ lo) : risingFrom lo' m = true := by
  cases m with
  | nil => rfl
  | cons e rest =>
    obtain ⟨k, v⟩ := e
    simp only [risingFrom, Bool.and_eq_true, decide_eq_true_eq] at h ⊢
    exact ⟨by omega, h.2⟩

theorem memLookup_of_rising {m : Mem} : ∀ {lo i : Nat}, risingFrom lo m = true → i < lo → memLookup m i = none := by
  induction m with
  | nil => intros; rfl
  | cons e rest ih =>
    intro lo i h hi
    obtain ⟨k, v⟩ := e
    simp only [risingFrom, Bool.and_eq_true, decide_eq_true_eq] at h
    have hk : ¬k = i := by omega
    simp only [memLookup, hk, if_false]
    exact ih h.2 (by omega)

theorem memLookup_insert_same (m : Mem) (i : Nat) (v : Word) : memLookup (memInsert m i v) i = some v := by
  induction m with
  | nil => simp [memInsert, memLookup]
  | cons e rest ih =>
    obtain ⟨k, x⟩ := e
    unfold memInsert
    split_ifs with h1 h2
    · simp [memLookup]
    · simp [memLookup]
    · have : ¬k = i := fun h => h2 h.symm
      simp [memLookup, this, ih]

theorem memLookup_insert_other (m : Mem) {i j : Nat} (v : Word) (h : j ≠ i) :
    memLookup (memInsert m i v) j = memLookup m j := by
  induction m with
  | nil => simp [memInsert, memLookup, h.symm]
  | cons e rest ih =>
    obtain ⟨k, x⟩ := e
    unfold memInsert
    split_ifs with h1 h2
    · simp [memLookup, h.symm]
    · subst h2; simp [memLookup, h.symm]
    · simp [memLookup, ih]

theorem memLookup_erase_other (m : Mem) {i j : Nat} (h : j ≠ i) : memLookup (memErase m i) j = memLookup m j := by
  induction m with
  | nil => rfl
  | cons e rest ih =>
    obtain ⟨k, x⟩ := e
    unfold memErase
    split_ifs with h1
    · subst h1; simp [memLookup, h.symm]
    · simp [memLookup, ih]

theorem memLookup_erase_same {m : Mem} {lo : Nat} (hr : risingFrom lo m = true) (i : Nat) :
    memLookup (memErase m i) i = none := by
  induction m generalizing lo with
  | nil => rfl
  | cons e rest ih =>
    obtain ⟨k, x⟩ := e
    simp only [risingFrom, Bool.and_eq_true, decide_eq_true_eq] at hr
    unfold memErase
    split_ifs with h1
    · exact memLookup_of_rising hr.2 (by omega)
    · simp [memLookup, h1, ih hr.2]

theorem wf_rising {sp : Space} {m : Mem} (h : Memory.wf sp m = true) : risingFrom 0 m = true := by
  simp only [Memory.wf, Bool.and_eq_true] at h; exact h.1

theorem wf_entries {sp : Space} {m : Mem} (h : Memory.wf sp m = true) : ∀ e ∈ m, unlisted sp ≠ some e.2 := by
  simp only [Memory.wf, Bool.and_eq_true, List.all_eq_true, decide_eq_true_eq] at h; exact h.2

theorem wf_intro {sp : Space} {m : Mem} (h1 : risingFrom 0 m = true) (h2 : ∀ e ∈ m, unlisted sp ≠ some e.2) :
    Memory.wf sp m = true := by
  simp only [Memory.wf, Bool.and_eq_true, List.all_eq_true, decide_eq_true_eq]; exact ⟨h1, h2⟩

/-- Reading a word just written gives the value written (20_memory.md R71). -/
theorem memRead_memWrite_same {sp : Space} {m : Mem} (h : Memory.wf sp m = true) (i : Nat) (v : Word) :
    memRead sp (memWrite sp m i v) i = some v := by
  unfold memWrite memRead
  split_ifs with hu
  · rw [memLookup_erase_same (wf_rising h)]; exact hu
  · rw [memLookup_insert_same]

/-- A write leaves every other word alone (20_memory.md R71). -/
theorem memRead_memWrite_other (sp : Space) (m : Mem) {i j : Nat} (v : Word) (h : j ≠ i) :
    memRead sp (memWrite sp m i v) j = memRead sp m j := by
  unfold memWrite memRead
  split_ifs
  · rw [memLookup_erase_other m h]
  · rw [memLookup_insert_other m v h]

theorem rising_insert {m : Mem} : ∀ {lo i : Nat} (v : Word), risingFrom lo m = true → lo ≤ i →
    risingFrom lo (memInsert m i v) = true := by
  induction m with
  | nil => intro lo i v _ hi; simp [memInsert, risingFrom, hi]
  | cons e rest ih =>
    intro lo i v h hi
    obtain ⟨k, x⟩ := e
    have h' := h
    simp only [risingFrom, Bool.and_eq_true, decide_eq_true_eq] at h
    unfold memInsert
    split_ifs with h1 h2
    · simp only [risingFrom, Bool.and_eq_true, decide_eq_true_eq]
      exact ⟨hi, by omega, h.2⟩
    · subst h2
      simp only [risingFrom, Bool.and_eq_true, decide_eq_true_eq]
      exact ⟨hi, h.2⟩
    · simp only [risingFrom, Bool.and_eq_true, decide_eq_true_eq]
      exact ⟨h.1, ih v h.2 (by omega)⟩

theorem rising_erase {m : Mem} : ∀ {lo : Nat} (i : Nat), risingFrom lo m = true → risingFrom lo (memErase m i) = true := by
  induction m with
  | nil => intros; rfl
  | cons e rest ih =>
    intro lo i h
    obtain ⟨k, x⟩ := e
    simp only [risingFrom, Bool.and_eq_true, decide_eq_true_eq] at h
    unfold memErase
    split_ifs with h1
    · exact risingFrom_mono h.2 (by omega)
    · simp only [risingFrom, Bool.and_eq_true, decide_eq_true_eq]
      exact ⟨h.1, ih i h.2⟩

theorem mem_insert {m : Mem} {i : Nat} {v : Word} {e : Nat × Word} (h : e ∈ memInsert m i v) : e = (i, v) ∨ e ∈ m := by
  induction m with
  | nil => simpa [memInsert] using h
  | cons a rest ih =>
    obtain ⟨k, x⟩ := a
    unfold memInsert at h
    split_ifs at h with h1 h2
    · simpa using h
    · rcases List.mem_cons.1 h with h | h
      · exact .inl h
      · exact .inr (List.mem_cons_of_mem _ h)
    · rcases List.mem_cons.1 h with h | h
      · exact .inr (by simp [h])
      · exact (ih h).imp id (List.mem_cons_of_mem _)

theorem mem_erase {m : Mem} {i : Nat} {e : Nat × Word} (h : e ∈ memErase m i) : e ∈ m := by
  induction m with
  | nil => simp [memErase] at h
  | cons a rest ih =>
    obtain ⟨k, x⟩ := a
    unfold memErase at h
    split_ifs at h
    · exact List.mem_cons_of_mem _ h
    · rcases List.mem_cons.1 h with h | h
      · simp [h]
      · exact List.mem_cons_of_mem _ (ih h)

/-- Every entry after a write is the word written or was there before. -/
theorem mem_memWrite {sp : Space} {m : Mem} {i : Nat} {v : Word} {e : Nat × Word} (h : e ∈ memWrite sp m i v) :
    e = (i, v) ∨ e ∈ m := by
  unfold memWrite at h
  split_ifs at h
  · exact .inr (mem_erase h)
  · exact mem_insert h

/-- A write keeps the canonical form. -/
theorem memWrite_wf {sp : Space} {m : Mem} (h : Memory.wf sp m = true) (i : Nat) (v : Word) :
    Memory.wf sp (memWrite sp m i v) = true := by
  refine wf_intro ?_ ?_
  · unfold memWrite
    split_ifs
    · exact rising_erase i (wf_rising h)
    · exact rising_insert v (wf_rising h) (Nat.zero_le i)
  · intro e he
    unfold memWrite at he
    split_ifs at he with hu
    · exact wf_entries h e (mem_erase he)
    · rcases mem_insert he with rfl | he
      · exact hu
      · exact wf_entries h e he

theorem rising_filter {m : Mem} (p : Nat × Word → Bool) : ∀ {lo : Nat}, risingFrom lo m = true →
    risingFrom lo (m.filter p) = true := by
  induction m with
  | nil => intros; rfl
  | cons e rest ih =>
    intro lo h
    obtain ⟨k, x⟩ := e
    simp only [risingFrom, Bool.and_eq_true, decide_eq_true_eq] at h
    rw [List.filter_cons]
    split_ifs
    · simp only [risingFrom, Bool.and_eq_true, decide_eq_true_eq]; exact ⟨h.1, ih h.2⟩
    · exact risingFrom_mono (ih h.2) (by omega)

/-- Zeroing the words below `c` keeps the canonical form. -/
theorem zeroBelow_wf {sp : Space} {m : Mem} (h : Memory.wf sp m = true) (c : Nat) : Memory.wf sp (zeroBelow m c) = true :=
  wf_intro (rising_filter _ (wf_rising h)) fun e he => wf_entries h e (List.mem_of_mem_filter he)

theorem memLookup_filter_key (m : Mem) (q : Nat → Bool) (i : Nat) :
    memLookup (m.filter fun e => q e.1) i = if q i then memLookup m i else none := by
  induction m with
  | nil => simp [memLookup]
  | cons e rest ih =>
    obtain ⟨k, x⟩ := e
    rw [List.filter_cons]
    by_cases hk : k = i
    · subst hk
      by_cases hq : q k = true
      · simp [hq, memLookup]
      · simp [hq, ih]
    · by_cases hq : q k = true
      · simp [hq, memLookup, hk, ih]
      · simp [hq, memLookup, hk, ih]

/-- After zeroing, the words below `c` read as +0 and the others as before (44_delay.md R194). -/
theorem memRead_zeroBelow (m : Mem) (c i : Nat) :
    memRead .dram (zeroBelow m c) i = if i < c then some 0#64 else memRead .dram m i := by
  unfold memRead zeroBelow
  rw [memLookup_filter_key m (fun k => decide (c ≤ k)) i]
  by_cases h : i < c
  · have : ¬c ≤ i := by omega
    simp [h, this, unlisted]
  · have : c ≤ i := by omega
    simp [h, this]

/-- A run of writes keeps the canonical form. -/
theorem memWriteFrom_wf {sp : Space} (vs : List Word) : ∀ {m : Mem} (i : Nat), Memory.wf sp m = true →
    Memory.wf sp (memWriteFrom sp m i vs) = true := by
  induction vs with
  | nil => intro m i h; exact h
  | cons v vs ih => intro m i h; exact ih (i + 1) (memWrite_wf h i v)

/-- A run of writes leaves the words outside it alone. -/
theorem memRead_memWriteFrom_other {sp : Space} (vs : List Word) : ∀ (m : Mem) {i j : Nat}, j < i ∨ i + vs.length ≤ j →
    memRead sp (memWriteFrom sp m i vs) j = memRead sp m j := by
  induction vs with
  | nil => intros; rfl
  | cons v vs ih =>
    intro m i j h
    simp only [List.length_cons] at h
    rw [memWriteFrom, ih _ (by omega), memRead_memWrite_other sp m v (by omega)]

/-- A word inside a run of writes reads as the value written to it. -/
theorem memRead_memWriteFrom_at {sp : Space} (vs : List Word) : ∀ {m : Mem} (i : Nat), Memory.wf sp m = true →
    ∀ (k : Nat) (v : Word), vs[k]? = some v → memRead sp (memWriteFrom sp m i vs) (i + k) = some v := by
  induction vs with
  | nil => intro m i _ k v h; simp at h
  | cons x vs ih =>
    intro m i hm k v h
    cases k with
    | zero =>
      simp only [List.getElem?_cons_zero, Option.some.injEq] at h
      subst h
      rw [memWriteFrom, memRead_memWriteFrom_other vs _ (by omega)]
      exact memRead_memWrite_same hm i x
    | succ k =>
      have := ih (i + 1) (memWrite_wf hm i x) k v (by simpa using h)
      rw [memWriteFrom, show i + (k + 1) = i + 1 + k by omega]
      exact this

/-- Every entry after a run of writes lies in the run or was there before. -/
theorem mem_memWriteFrom {sp : Space} (vs : List Word) : ∀ {m : Mem} {i : Nat} {e : Nat × Word},
    e ∈ memWriteFrom sp m i vs → (i ≤ e.1 ∧ e.1 < i + vs.length) ∨ e ∈ m := by
  induction vs with
  | nil => intro m i e h; exact .inr h
  | cons v vs ih =>
    intro m i e h
    simp only [List.length_cons]
    rcases ih h with h | h
    · exact .inl (by omega)
    · rcases mem_memWrite h with rfl | h
      · exact .inl (by constructor <;> simp)
      · exact .inr h

end Sys2Proof.Machine
end

