-- ==== Sys2Proof/Laws/State.lean ====
section
/-! SUPPORT. One lemma per field per update of State, each true by unfolding the update once. -/

namespace Sys2Proof.Machine

open Sys2Proof

@[simp] theorem setOsc_params (s : State) (u : Nat) (o : OscUnit) : (setOsc s u o).params = s.params := rfl
@[simp] theorem setOsc_arg0 (s : State) (u : Nat) (o : OscUnit) : (setOsc s u o).arg0 = s.arg0 := rfl
@[simp] theorem setOsc_arg1 (s : State) (u : Nat) (o : OscUnit) : (setOsc s u o).arg1 = s.arg1 := rfl
@[simp] theorem setOsc_arg2 (s : State) (u : Nat) (o : OscUnit) : (setOsc s u o).arg2 = s.arg2 := rfl
@[simp] theorem setOsc_arg3 (s : State) (u : Nat) (o : OscUnit) : (setOsc s u o).arg3 = s.arg3 := rfl
@[simp] theorem setOsc_result (s : State) (u : Nat) (o : OscUnit) : (setOsc s u o).result = s.result := rfl
@[simp] theorem setOsc_status (s : State) (u : Nat) (o : OscUnit) : (setOsc s u o).status = s.status := rfl
@[simp] theorem setOsc_errCmd (s : State) (u : Nat) (o : OscUnit) : (setOsc s u o).errCmd = s.errCmd := rfl
@[simp] theorem setOsc_sr64 (s : State) (u : Nat) (o : OscUnit) : (setOsc s u o).sr64 = s.sr64 := rfl
@[simp] theorem setOsc_srW (s : State) (u : Nat) (o : OscUnit) : (setOsc s u o).srW = s.srW := rfl
@[simp] theorem setOsc_maxBlk (s : State) (u : Nat) (o : OscUnit) : (setOsc s u o).maxBlk = s.maxBlk := rfl
@[simp] theorem setOsc_osc (s : State) (u : Nat) (o : OscUnit) : (setOsc s u o).osc = s.osc.set u o := rfl
@[simp] theorem setOsc_flt (s : State) (u : Nat) (o : OscUnit) : (setOsc s u o).flt = s.flt := rfl
@[simp] theorem setOsc_env (s : State) (u : Nat) (o : OscUnit) : (setOsc s u o).env = s.env := rfl
@[simp] theorem setOsc_dly (s : State) (u : Nat) (o : OscUnit) : (setOsc s u o).dly = s.dly := rfl
@[simp] theorem setOsc_outbuf (s : State) (u : Nat) (o : OscUnit) : (setOsc s u o).outbuf = s.outbuf := rfl
@[simp] theorem setOsc_scratch (s : State) (u : Nat) (o : OscUnit) : (setOsc s u o).scratch = s.scratch := rfl
@[simp] theorem setOsc_readData (s : State) (u : Nat) (o : OscUnit) : (setOsc s u o).readData = s.readData := rfl
@[simp] theorem setOsc_pending (s : State) (u : Nat) (o : OscUnit) : (setOsc s u o).pending = s.pending := rfl

@[simp] theorem setFlt_params (s : State) (u : Nat) (x : FltUnit) : (setFlt s u x).params = s.params := rfl
@[simp] theorem setFlt_arg0 (s : State) (u : Nat) (x : FltUnit) : (setFlt s u x).arg0 = s.arg0 := rfl
@[simp] theorem setFlt_arg1 (s : State) (u : Nat) (x : FltUnit) : (setFlt s u x).arg1 = s.arg1 := rfl
@[simp] theorem setFlt_arg2 (s : State) (u : Nat) (x : FltUnit) : (setFlt s u x).arg2 = s.arg2 := rfl
@[simp] theorem setFlt_arg3 (s : State) (u : Nat) (x : FltUnit) : (setFlt s u x).arg3 = s.arg3 := rfl
@[simp] theorem setFlt_result (s : State) (u : Nat) (x : FltUnit) : (setFlt s u x).result = s.result := rfl
@[simp] theorem setFlt_status (s : State) (u : Nat) (x : FltUnit) : (setFlt s u x).status = s.status := rfl
@[simp] theorem setFlt_errCmd (s : State) (u : Nat) (x : FltUnit) : (setFlt s u x).errCmd = s.errCmd := rfl
@[simp] theorem setFlt_sr64 (s : State) (u : Nat) (x : FltUnit) : (setFlt s u x).sr64 = s.sr64 := rfl
@[simp] theorem setFlt_srW (s : State) (u : Nat) (x : FltUnit) : (setFlt s u x).srW = s.srW := rfl
@[simp] theorem setFlt_maxBlk (s : State) (u : Nat) (x : FltUnit) : (setFlt s u x).maxBlk = s.maxBlk := rfl
@[simp] theorem setFlt_osc (s : State) (u : Nat) (x : FltUnit) : (setFlt s u x).osc = s.osc := rfl
@[simp] theorem setFlt_flt (s : State) (u : Nat) (x : FltUnit) : (setFlt s u x).flt = s.flt.set u x := rfl
@[simp] theorem setFlt_env (s : State) (u : Nat) (x : FltUnit) : (setFlt s u x).env = s.env := rfl
@[simp] theorem setFlt_dly (s : State) (u : Nat) (x : FltUnit) : (setFlt s u x).dly = s.dly := rfl
@[simp] theorem setFlt_outbuf (s : State) (u : Nat) (x : FltUnit) : (setFlt s u x).outbuf = s.outbuf := rfl
@[simp] theorem setFlt_scratch (s : State) (u : Nat) (x : FltUnit) : (setFlt s u x).scratch = s.scratch := rfl
@[simp] theorem setFlt_readData (s : State) (u : Nat) (x : FltUnit) : (setFlt s u x).readData = s.readData := rfl
@[simp] theorem setFlt_pending (s : State) (u : Nat) (x : FltUnit) : (setFlt s u x).pending = s.pending := rfl

@[simp] theorem setEnv_params (s : State) (u : Nat) (e : EnvUnit) : (setEnv s u e).params = s.params := rfl
@[simp] theorem setEnv_arg0 (s : State) (u : Nat) (e : EnvUnit) : (setEnv s u e).arg0 = s.arg0 := rfl
@[simp] theorem setEnv_arg1 (s : State) (u : Nat) (e : EnvUnit) : (setEnv s u e).arg1 = s.arg1 := rfl
@[simp] theorem setEnv_arg2 (s : State) (u : Nat) (e : EnvUnit) : (setEnv s u e).arg2 = s.arg2 := rfl
@[simp] theorem setEnv_arg3 (s : State) (u : Nat) (e : EnvUnit) : (setEnv s u e).arg3 = s.arg3 := rfl
@[simp] theorem setEnv_result (s : State) (u : Nat) (e : EnvUnit) : (setEnv s u e).result = s.result := rfl
@[simp] theorem setEnv_status (s : State) (u : Nat) (e : EnvUnit) : (setEnv s u e).status = s.status := rfl
@[simp] theorem setEnv_errCmd (s : State) (u : Nat) (e : EnvUnit) : (setEnv s u e).errCmd = s.errCmd := rfl
@[simp] theorem setEnv_sr64 (s : State) (u : Nat) (e : EnvUnit) : (setEnv s u e).sr64 = s.sr64 := rfl
@[simp] theorem setEnv_srW (s : State) (u : Nat) (e : EnvUnit) : (setEnv s u e).srW = s.srW := rfl
@[simp] theorem setEnv_maxBlk (s : State) (u : Nat) (e : EnvUnit) : (setEnv s u e).maxBlk = s.maxBlk := rfl
@[simp] theorem setEnv_osc (s : State) (u : Nat) (e : EnvUnit) : (setEnv s u e).osc = s.osc := rfl
@[simp] theorem setEnv_flt (s : State) (u : Nat) (e : EnvUnit) : (setEnv s u e).flt = s.flt := rfl
@[simp] theorem setEnv_env (s : State) (u : Nat) (e : EnvUnit) : (setEnv s u e).env = s.env.set u e := rfl
@[simp] theorem setEnv_dly (s : State) (u : Nat) (e : EnvUnit) : (setEnv s u e).dly = s.dly := rfl
@[simp] theorem setEnv_outbuf (s : State) (u : Nat) (e : EnvUnit) : (setEnv s u e).outbuf = s.outbuf := rfl
@[simp] theorem setEnv_scratch (s : State) (u : Nat) (e : EnvUnit) : (setEnv s u e).scratch = s.scratch := rfl
@[simp] theorem setEnv_readData (s : State) (u : Nat) (e : EnvUnit) : (setEnv s u e).readData = s.readData := rfl
@[simp] theorem setEnv_pending (s : State) (u : Nat) (e : EnvUnit) : (setEnv s u e).pending = s.pending := rfl

@[simp] theorem setDly_params (s : State) (u : Nat) (l : DlyUnit) : (setDly s u l).params = s.params := rfl
@[simp] theorem setDly_arg0 (s : State) (u : Nat) (l : DlyUnit) : (setDly s u l).arg0 = s.arg0 := rfl
@[simp] theorem setDly_arg1 (s : State) (u : Nat) (l : DlyUnit) : (setDly s u l).arg1 = s.arg1 := rfl
@[simp] theorem setDly_arg2 (s : State) (u : Nat) (l : DlyUnit) : (setDly s u l).arg2 = s.arg2 := rfl
@[simp] theorem setDly_arg3 (s : State) (u : Nat) (l : DlyUnit) : (setDly s u l).arg3 = s.arg3 := rfl
@[simp] theorem setDly_result (s : State) (u : Nat) (l : DlyUnit) : (setDly s u l).result = s.result := rfl
@[simp] theorem setDly_status (s : State) (u : Nat) (l : DlyUnit) : (setDly s u l).status = s.status := rfl
@[simp] theorem setDly_errCmd (s : State) (u : Nat) (l : DlyUnit) : (setDly s u l).errCmd = s.errCmd := rfl
@[simp] theorem setDly_sr64 (s : State) (u : Nat) (l : DlyUnit) : (setDly s u l).sr64 = s.sr64 := rfl
@[simp] theorem setDly_srW (s : State) (u : Nat) (l : DlyUnit) : (setDly s u l).srW = s.srW := rfl
@[simp] theorem setDly_maxBlk (s : State) (u : Nat) (l : DlyUnit) : (setDly s u l).maxBlk = s.maxBlk := rfl
@[simp] theorem setDly_osc (s : State) (u : Nat) (l : DlyUnit) : (setDly s u l).osc = s.osc := rfl
@[simp] theorem setDly_flt (s : State) (u : Nat) (l : DlyUnit) : (setDly s u l).flt = s.flt := rfl
@[simp] theorem setDly_env (s : State) (u : Nat) (l : DlyUnit) : (setDly s u l).env = s.env := rfl
@[simp] theorem setDly_dly (s : State) (u : Nat) (l : DlyUnit) : (setDly s u l).dly = s.dly.set u l := rfl
@[simp] theorem setDly_outbuf (s : State) (u : Nat) (l : DlyUnit) : (setDly s u l).outbuf = s.outbuf := rfl
@[simp] theorem setDly_scratch (s : State) (u : Nat) (l : DlyUnit) : (setDly s u l).scratch = s.scratch := rfl
@[simp] theorem setDly_readData (s : State) (u : Nat) (l : DlyUnit) : (setDly s u l).readData = s.readData := rfl
@[simp] theorem setDly_pending (s : State) (u : Nat) (l : DlyUnit) : (setDly s u l).pending = s.pending := rfl

@[simp] theorem setResult_params (s : State) (y : Sample) : (setResult s y).params = s.params := rfl
@[simp] theorem setResult_arg0 (s : State) (y : Sample) : (setResult s y).arg0 = s.arg0 := rfl
@[simp] theorem setResult_arg1 (s : State) (y : Sample) : (setResult s y).arg1 = s.arg1 := rfl
@[simp] theorem setResult_arg2 (s : State) (y : Sample) : (setResult s y).arg2 = s.arg2 := rfl
@[simp] theorem setResult_arg3 (s : State) (y : Sample) : (setResult s y).arg3 = s.arg3 := rfl
@[simp] theorem setResult_result (s : State) (y : Sample) : (setResult s y).result = to64 s.params.fmt y := rfl
@[simp] theorem setResult_status (s : State) (y : Sample) : (setResult s y).status = s.status := rfl
@[simp] theorem setResult_errCmd (s : State) (y : Sample) : (setResult s y).errCmd = s.errCmd := rfl
@[simp] theorem setResult_sr64 (s : State) (y : Sample) : (setResult s y).sr64 = s.sr64 := rfl
@[simp] theorem setResult_srW (s : State) (y : Sample) : (setResult s y).srW = s.srW := rfl
@[simp] theorem setResult_maxBlk (s : State) (y : Sample) : (setResult s y).maxBlk = s.maxBlk := rfl
@[simp] theorem setResult_osc (s : State) (y : Sample) : (setResult s y).osc = s.osc := rfl
@[simp] theorem setResult_flt (s : State) (y : Sample) : (setResult s y).flt = s.flt := rfl
@[simp] theorem setResult_env (s : State) (y : Sample) : (setResult s y).env = s.env := rfl
@[simp] theorem setResult_dly (s : State) (y : Sample) : (setResult s y).dly = s.dly := rfl
@[simp] theorem setResult_outbuf (s : State) (y : Sample) : (setResult s y).outbuf = s.outbuf := rfl
@[simp] theorem setResult_scratch (s : State) (y : Sample) : (setResult s y).scratch = s.scratch := rfl
@[simp] theorem setResult_readData (s : State) (y : Sample) : (setResult s y).readData = s.readData := rfl
@[simp] theorem setResult_pending (s : State) (y : Sample) : (setResult s y).pending = s.pending := rfl

@[simp] theorem setStatus_params (s : State) (st : Status) : (setStatus s st).params = s.params := rfl
@[simp] theorem setStatus_arg0 (s : State) (st : Status) : (setStatus s st).arg0 = s.arg0 := rfl
@[simp] theorem setStatus_arg1 (s : State) (st : Status) : (setStatus s st).arg1 = s.arg1 := rfl
@[simp] theorem setStatus_arg2 (s : State) (st : Status) : (setStatus s st).arg2 = s.arg2 := rfl
@[simp] theorem setStatus_arg3 (s : State) (st : Status) : (setStatus s st).arg3 = s.arg3 := rfl
@[simp] theorem setStatus_result (s : State) (st : Status) : (setStatus s st).result = s.result := rfl
@[simp] theorem setStatus_status (s : State) (st : Status) : (setStatus s st).status = st := rfl
@[simp] theorem setStatus_errCmd (s : State) (st : Status) : (setStatus s st).errCmd = s.errCmd := rfl
@[simp] theorem setStatus_sr64 (s : State) (st : Status) : (setStatus s st).sr64 = s.sr64 := rfl
@[simp] theorem setStatus_srW (s : State) (st : Status) : (setStatus s st).srW = s.srW := rfl
@[simp] theorem setStatus_maxBlk (s : State) (st : Status) : (setStatus s st).maxBlk = s.maxBlk := rfl
@[simp] theorem setStatus_osc (s : State) (st : Status) : (setStatus s st).osc = s.osc := rfl
@[simp] theorem setStatus_flt (s : State) (st : Status) : (setStatus s st).flt = s.flt := rfl
@[simp] theorem setStatus_env (s : State) (st : Status) : (setStatus s st).env = s.env := rfl
@[simp] theorem setStatus_dly (s : State) (st : Status) : (setStatus s st).dly = s.dly := rfl
@[simp] theorem setStatus_outbuf (s : State) (st : Status) : (setStatus s st).outbuf = s.outbuf := rfl
@[simp] theorem setStatus_scratch (s : State) (st : Status) : (setStatus s st).scratch = s.scratch := rfl
@[simp] theorem setStatus_readData (s : State) (st : Status) : (setStatus s st).readData = s.readData := rfl
@[simp] theorem setStatus_pending (s : State) (st : Status) : (setStatus s st).pending = s.pending := rfl

@[simp] theorem errorEntry_params (e : CmdError) (word : CmdWord) (b : Bool) (s : State) : (errorEntry e word b s).params = s.params := rfl
@[simp] theorem errorEntry_arg0 (e : CmdError) (word : CmdWord) (b : Bool) (s : State) : (errorEntry e word b s).arg0 = s.arg0 := rfl
@[simp] theorem errorEntry_arg1 (e : CmdError) (word : CmdWord) (b : Bool) (s : State) : (errorEntry e word b s).arg1 = s.arg1 := rfl
@[simp] theorem errorEntry_arg2 (e : CmdError) (word : CmdWord) (b : Bool) (s : State) : (errorEntry e word b s).arg2 = s.arg2 := rfl
@[simp] theorem errorEntry_arg3 (e : CmdError) (word : CmdWord) (b : Bool) (s : State) : (errorEntry e word b s).arg3 = s.arg3 := rfl
@[simp] theorem errorEntry_result (e : CmdError) (word : CmdWord) (b : Bool) (s : State) : (errorEntry e word b s).result = s.result := rfl
@[simp] theorem errorEntry_errCmd (e : CmdError) (word : CmdWord) (b : Bool) (s : State) : (errorEntry e word b s).errCmd = if s.status.fault then s.errCmd else word := rfl
@[simp] theorem errorEntry_sr64 (e : CmdError) (word : CmdWord) (b : Bool) (s : State) : (errorEntry e word b s).sr64 = s.sr64 := rfl
@[simp] theorem errorEntry_srW (e : CmdError) (word : CmdWord) (b : Bool) (s : State) : (errorEntry e word b s).srW = s.srW := rfl
@[simp] theorem errorEntry_maxBlk (e : CmdError) (word : CmdWord) (b : Bool) (s : State) : (errorEntry e word b s).maxBlk = s.maxBlk := rfl
@[simp] theorem errorEntry_osc (e : CmdError) (word : CmdWord) (b : Bool) (s : State) : (errorEntry e word b s).osc = s.osc := rfl
@[simp] theorem errorEntry_flt (e : CmdError) (word : CmdWord) (b : Bool) (s : State) : (errorEntry e word b s).flt = s.flt := rfl
@[simp] theorem errorEntry_env (e : CmdError) (word : CmdWord) (b : Bool) (s : State) : (errorEntry e word b s).env = s.env := rfl
@[simp] theorem errorEntry_dly (e : CmdError) (word : CmdWord) (b : Bool) (s : State) : (errorEntry e word b s).dly = s.dly := rfl
@[simp] theorem errorEntry_outbuf (e : CmdError) (word : CmdWord) (b : Bool) (s : State) : (errorEntry e word b s).outbuf = s.outbuf := rfl
@[simp] theorem errorEntry_scratch (e : CmdError) (word : CmdWord) (b : Bool) (s : State) : (errorEntry e word b s).scratch = s.scratch := rfl
@[simp] theorem errorEntry_readData (e : CmdError) (word : CmdWord) (b : Bool) (s : State) : (errorEntry e word b s).readData = s.readData := rfl
@[simp] theorem errorEntry_pending (e : CmdError) (word : CmdWord) (b : Bool) (s : State) : (errorEntry e word b s).pending = s.pending := rfl
@[simp] theorem errorEntry_prepared (e : CmdError) (word : CmdWord) (b : Bool) (s : State) : (errorEntry e word b s).status.prepared = if b then false else s.status.prepared := rfl
@[simp] theorem errorEntry_fault (e : CmdError) (word : CmdWord) (b : Bool) (s : State) : (errorEntry e word b s).status.fault = true := rfl
@[simp] theorem errorEntry_errCode (e : CmdError) (word : CmdWord) (b : Bool) (s : State) : (errorEntry e word b s).status.errCode = if s.status.fault then s.status.errCode else e.code := rfl
@[simp] theorem errorEntry_errUnit (e : CmdError) (word : CmdWord) (b : Bool) (s : State) : (errorEntry e word b s).status.errUnit = if s.status.fault then s.status.errUnit else e.unit := rfl

@[simp] theorem recover_params (s : State) : (recover s).params = s.params := rfl
@[simp] theorem recover_arg0 (s : State) : (recover s).arg0 = s.arg0 := rfl
@[simp] theorem recover_arg1 (s : State) : (recover s).arg1 = s.arg1 := rfl
@[simp] theorem recover_arg2 (s : State) : (recover s).arg2 = s.arg2 := rfl
@[simp] theorem recover_arg3 (s : State) : (recover s).arg3 = s.arg3 := rfl
@[simp] theorem recover_result (s : State) : (recover s).result = s.result := rfl
@[simp] theorem recover_status (s : State) : (recover s).status = { prepared := true, fault := false, errCode := .noError, errUnit := 0#8 } := rfl
@[simp] theorem recover_errCmd (s : State) : (recover s).errCmd = 0#32 := rfl
@[simp] theorem recover_sr64 (s : State) : (recover s).sr64 = s.sr64 := rfl
@[simp] theorem recover_srW (s : State) : (recover s).srW = s.srW := rfl
@[simp] theorem recover_maxBlk (s : State) : (recover s).maxBlk = s.maxBlk := rfl
@[simp] theorem recover_osc (s : State) : (recover s).osc = s.osc := rfl
@[simp] theorem recover_flt (s : State) : (recover s).flt = s.flt := rfl
@[simp] theorem recover_env (s : State) : (recover s).env = s.env := rfl
@[simp] theorem recover_dly (s : State) : (recover s).dly = s.dly := rfl
@[simp] theorem recover_outbuf (s : State) : (recover s).outbuf = s.outbuf := rfl
@[simp] theorem recover_scratch (s : State) : (recover s).scratch = s.scratch := rfl
@[simp] theorem recover_readData (s : State) : (recover s).readData = s.readData := rfl
@[simp] theorem recover_pending (s : State) : (recover s).pending = s.pending := rfl

@[simp] theorem commitPrepare_params (s : State) (r : Word) (w : Sample) (m : Nat) (us : Units) : (commitPrepare s r w m us).params = s.params := rfl
@[simp] theorem commitPrepare_arg0 (s : State) (r : Word) (w : Sample) (m : Nat) (us : Units) : (commitPrepare s r w m us).arg0 = s.arg0 := rfl
@[simp] theorem commitPrepare_arg1 (s : State) (r : Word) (w : Sample) (m : Nat) (us : Units) : (commitPrepare s r w m us).arg1 = s.arg1 := rfl
@[simp] theorem commitPrepare_arg2 (s : State) (r : Word) (w : Sample) (m : Nat) (us : Units) : (commitPrepare s r w m us).arg2 = s.arg2 := rfl
@[simp] theorem commitPrepare_arg3 (s : State) (r : Word) (w : Sample) (m : Nat) (us : Units) : (commitPrepare s r w m us).arg3 = s.arg3 := rfl
@[simp] theorem commitPrepare_result (s : State) (r : Word) (w : Sample) (m : Nat) (us : Units) : (commitPrepare s r w m us).result = s.result := rfl
@[simp] theorem commitPrepare_status (s : State) (r : Word) (w : Sample) (m : Nat) (us : Units) : (commitPrepare s r w m us).status = { prepared := true, fault := false, errCode := .noError, errUnit := 0#8 } := rfl
@[simp] theorem commitPrepare_errCmd (s : State) (r : Word) (w : Sample) (m : Nat) (us : Units) : (commitPrepare s r w m us).errCmd = 0#32 := rfl
@[simp] theorem commitPrepare_sr64 (s : State) (r : Word) (w : Sample) (m : Nat) (us : Units) : (commitPrepare s r w m us).sr64 = r := rfl
@[simp] theorem commitPrepare_srW (s : State) (r : Word) (w : Sample) (m : Nat) (us : Units) : (commitPrepare s r w m us).srW = w := rfl
@[simp] theorem commitPrepare_maxBlk (s : State) (r : Word) (w : Sample) (m : Nat) (us : Units) : (commitPrepare s r w m us).maxBlk = m := rfl
@[simp] theorem commitPrepare_osc (s : State) (r : Word) (w : Sample) (m : Nat) (us : Units) : (commitPrepare s r w m us).osc = us.osc := rfl
@[simp] theorem commitPrepare_flt (s : State) (r : Word) (w : Sample) (m : Nat) (us : Units) : (commitPrepare s r w m us).flt = us.flt := rfl
@[simp] theorem commitPrepare_env (s : State) (r : Word) (w : Sample) (m : Nat) (us : Units) : (commitPrepare s r w m us).env = us.env := rfl
@[simp] theorem commitPrepare_dly (s : State) (r : Word) (w : Sample) (m : Nat) (us : Units) : (commitPrepare s r w m us).dly = commitDly s.dly us.dly := rfl
@[simp] theorem commitPrepare_outbuf (s : State) (r : Word) (w : Sample) (m : Nat) (us : Units) : (commitPrepare s r w m us).outbuf = s.outbuf := rfl
@[simp] theorem commitPrepare_scratch (s : State) (r : Word) (w : Sample) (m : Nat) (us : Units) : (commitPrepare s r w m us).scratch = s.scratch := rfl
@[simp] theorem commitPrepare_readData (s : State) (r : Word) (w : Sample) (m : Nat) (us : Units) : (commitPrepare s r w m us).readData = s.readData := rfl
@[simp] theorem commitPrepare_pending (s : State) (r : Word) (w : Sample) (m : Nat) (us : Units) : (commitPrepare s r w m us).pending = s.pending := rfl

end Sys2Proof.Machine
end

