-- ==== Sys2Proof/Laws/Ops.lean ====
section
/-! SUPPORT. What each shared operation can do, said once: the execution cycle of a command, the host port and the step. -/

namespace Sys2Proof.Machine

open Sys2Proof

@[simp] theorem isPrepare_iff (i : Instr) : isPrepare i = true ↔ i = .prepare := by
  simp [isPrepare]

/-- Everything a command can do (40_command_common.md R101): be ignored, fail a common check, fail a check of its own, or
make its own writes. -/
theorem runCommand_next {i : Instr} {body : State → Except CmdError State} {s t : State}
    (h : runCommand i body s = .next t) :
    (ignored s i = true ∧ t = s) ∨
    (ignored s i = false ∧ ∃ e, (commonChecks s i = .error e ∨ (commonChecks s i = .ok () ∧ body s = .error e)) ∧
      t = errorEntry e (encode i) (isPrepare i) s) ∨
    (ignored s i = false ∧ commonChecks s i = .ok () ∧ body s = .ok t) := by
  unfold runCommand at h
  split at h
  · rename_i hg
    exact .inl ⟨hg, by simpa using h.symm⟩
  · rename_i hg
    have hg : ignored s i = false := by simpa using hg
    split at h
    · rename_i e he
      exact .inr (.inl ⟨hg, e, .inl he, by simpa [finish] using h.symm⟩)
    · rename_i u he
      cases hb : body s with
      | error e => exact .inr (.inl ⟨hg, e, .inr ⟨he, rfl⟩, by rw [hb] at h; simpa [finish] using h.symm⟩)
      | ok t' =>
        rw [hb] at h
        simp only [finish, Host.Outcome.next.injEq] at h
        exact .inr (.inr ⟨hg, he, by rw [h]⟩)

theorem ignored_of_ready {s : State} {i : Instr} (h : Ready s i) : ignored s i = false := by
  simp [ignored, h.noFault]

theorem commonChecks_of_ready {s : State} {i : Instr} (h : Ready s i) : commonChecks s i = .ok () := by
  simp [commonChecks, h.prepared, h.unitExists]

/-- A ready command makes its own checks and writes. -/
theorem runCommand_ready {i : Instr} {body : State → Except CmdError State} {s : State} (h : Ready s i) :
    runCommand i body s = .next (finish s i (body s)) := by
  simp [runCommand, ignored_of_ready h, commonChecks_of_ready h]

/-- PREPARE passes the gate and the common checks in every state (40_command_common.md R101, R102). -/
theorem runCommand_prepare (body : State → Except CmdError State) (s : State) :
    runCommand .prepare body s = .next (finish s .prepare (body s)) := by
  simp [runCommand, ignored, isPrepare, commonChecks, Instr.wf, Instr.target]

/-- A command always answers a next state: nothing stops the core (45_graph.md R232). -/
theorem runCommand_answers (i : Instr) (body : State → Except CmdError State) (s : State) :
    ∃ t, runCommand i body s = .next t := by
  unfold runCommand
  split
  · exact ⟨_, rfl⟩
  · split <;> exact ⟨_, rfl⟩

/-- Everything a step can do (log 11): wait, or take the next pending event. -/
theorem step_next {s t : State} (h : step s = .next t) :
    (s.pending = [] ∧ t = s) ∨ ∃ e rest, s.pending = e :: rest ∧ takeEvent e { s with pending := rest } = .next t := by
  unfold step at h
  split at h
  · rename_i hp; exact .inl ⟨hp, by simpa using h.symm⟩
  · rename_i e rest hp; exact .inr ⟨e, rest, hp, h⟩

/-- Everything a host write can do (20_memory.md R66): run a command, change one operand register, or nothing. -/
theorem hostWrite_next {a : Addr} {v : Word} {s t : State} (h : hostWrite a v s = .next t) :
    (hostWord s.params a = some .cmd ∧ execute (commandWord v) s = .next t) ∨
    (hostWord s.params a = some .arg0 ∧ t = { s with arg0 := v }) ∨
    (hostWord s.params a = some .arg1 ∧ t = { s with arg1 := v }) ∨
    (hostWord s.params a = some .arg2 ∧ t = { s with arg2 := v }) ∨
    (hostWord s.params a = some .arg3 ∧ t = { s with arg3 := v }) ∨ t = s := by
  unfold hostWrite at h
  split at h <;> simp_all

/-- Everything a host read can do (20_memory.md R66): return the word's value. -/
theorem hostRead_next {a : Addr} {s t : State} (h : hostRead a s = .next t) :
    ∃ r, hostWord s.params a = some r ∧ t = { s with readData := hostValue s r } := by
  unfold hostRead at h
  split at h
  · simp at h
  · rename_i r hr; exact ⟨r, hr, by simpa using h.symm⟩

/-- Everything the execution of a word can do (40_command_common.md R101): the error of an illegal word, or its command. -/
theorem execute_next {w : CmdWord} {s t : State} (h : execute w s = .next t) :
    (∃ e, decodeWord w = .error e ∧ t = illegalCommand w s) ∨ ∃ i, decodeWord w = .ok i ∧ exec i s = .next t := by
  unfold execute at h
  split at h
  · rename_i e he; exact .inl ⟨e, he, by simpa using h.symm⟩
  · rename_i i hi; exact .inr ⟨i, hi, h⟩

/-- What an illegal word does (30_encoding.md R86, 60_exceptions.md R246, R247). -/
theorem illegalCommand_eq (w : CmdWord) (s : State) :
    illegalCommand w s =
      if s.status.fault then s
      else { s with status := { prepared := s.status.prepared, fault := true, errCode := .prgIllegalCommand, errUnit := 0#8 },
                    errCmd := w } := by
  unfold illegalCommand errorEntry
  split <;> simp_all

/-- Everything an event can do (45_graph.md R230, 70_reset_and_hazards.md R270). -/
theorem takeEvent_next {e : Event} {s t : State} (h : takeEvent e s = .next t) :
    (∃ a v, e = .write a v ∧ hostWrite a v s = .next t) ∨ (∃ a, e = .read a ∧ hostRead a s = .next t) ∨
    (e = .powerOnReset ∧ t = { State.powerOn s.params with pending := s.pending }) := by
  cases e with
  | write a v => exact .inl ⟨a, v, rfl, h⟩
  | read a => exact .inr (.inl ⟨a, rfl, h⟩)
  | partialAccess a => simp [takeEvent] at h
  | powerOnReset => exact .inr (.inr ⟨rfl, by simpa [takeEvent] using h.symm⟩)

/-- The samples of a run of steps over inputs that follow one another (45_graph.md R226). -/
theorem runSamples_append {σ : Type} (step : σ → Sample → Sample × σ) (xs ys : List Sample) : ∀ st : σ,
    runSamples step st (xs ++ ys) =
      ((runSamples step st xs).1 ++ (runSamples step (runSamples step st xs).2 ys).1,
        (runSamples step (runSamples step st xs).2 ys).2) := by
  induction xs with
  | nil => intro st; rfl
  | cons x xs ih => intro st; simp only [List.cons_append, runSamples, ih]

theorem runSamples_length {σ : Type} (step : σ → Sample → Sample × σ) (xs : List Sample) : ∀ st : σ,
    (runSamples step st xs).1.length = xs.length := by
  induction xs with
  | nil => intro st; rfl
  | cons x xs ih => intro st; simp [runSamples, ih]

end Sys2Proof.Machine
end

