-- ==== Sys2Proof/Laws/PerInstr.lean ====
section
/-! SUPPORT. Statements about every instruction as syntax, one lemma per constructor. -/

namespace Sys2Proof.Laws.EncodeFields

open Sys2Proof

/-- The word of a command is `OP`, `U`, `IMM` in their places, and its opcode-table row is the one of its name
(30_encoding.md R81, R85, R90). -/
def Statement (i : Instr) : Prop :=
  opField (encode i) = opcodeOf i ∧ uField (encode i) = unitOf i ∧ immField (encode i) = immOf i ∧
    ∃ r ∈ opcodeTable, r.mnemonic = mnemonicOf i ∧ rowMatches r (encode i) = true

theorem word_toNat (a b : BitVec 8) (c : BitVec 16) :
    (a ++ b ++ c).toNat = a.toNat * 2 ^ 24 + b.toNat * 2 ^ 16 + c.toNat := by
  rw [BitVec.toNat_append, BitVec.toNat_append, ← Nat.shiftLeft_add_eq_or_of_lt b.isLt,
    ← Nat.shiftLeft_add_eq_or_of_lt c.isLt, Nat.shiftLeft_eq, Nat.shiftLeft_eq]
  omega

theorem fields (i : Instr) :
    opField (encode i) = opcodeOf i ∧ uField (encode i) = unitOf i ∧ immField (encode i) = immOf i := by
  have h := word_toNat (opcodeOf i) (unitOf i) (immOf i)
  have hu := (unitOf i).isLt
  have hi := (immOf i).isLt
  have ho := (opcodeOf i).isLt
  refine ⟨?_, ?_, ?_⟩ <;> apply BitVec.eq_of_toNat_eq <;>
    simp only [opField, uField, immField, encode, BitVec.extractLsb'_toNat, h, Nat.shiftRight_eq_div_pow] <;> omega

/-- The word of a unit command under the mask of its row. -/
theorem masked_unit {i : Instr} {op u : BitVec 8} {v : CmdWord} (h1 : opcodeOf i = op) (h2 : immOf i = 0#16)
    (hv : op ++ 0#8 ++ 0#16 = v) (h3 : unitOf i = u) : encode i &&& 0xFF00FFFF#32 = v := by
  rw [encode, h1, h2, h3, show (0xFF00FFFF#32 : BitVec 32) = 0xFF#8 ++ 0#8 ++ 0xFFFF#16 from rfl, BitVec.and_append,
    BitVec.and_append, ← hv]
  congr 2
  · exact BitVec.and_allOnes
  · exact BitVec.and_zero

/-- The word of a command whose row leaves `IMM` free under that row's mask. -/
theorem masked_wave {i : Instr} {op u : BitVec 8} {v : CmdWord} (h1 : opcodeOf i = op)
    (hv : op ++ 0#8 ++ 0#16 = v) (h3 : unitOf i = u) : encode i &&& 0xFF000000#32 = v := by
  rw [encode, h1, h3, show (0xFF000000#32 : BitVec 32) = 0xFF#8 ++ 0#8 ++ 0#16 from rfl, BitVec.and_append,
    BitVec.and_append, ← hv]
  congr 2
  · exact BitVec.and_allOnes
  · exact BitVec.and_zero
  · exact BitVec.and_zero

theorem prepare : Statement .prepare :=
  ⟨(fields _).1, (fields _).2.1, (fields _).2.2, ⟨"PREPARE", 0x01000000#32, 0xFFFFFFFF#32⟩, by decide, rfl,
    by decide⟩

theorem processBlock : Statement .processBlock :=
  ⟨(fields _).1, (fields _).2.1, (fields _).2.2, ⟨"PROCESS_BLOCK", 0x02000000#32, 0xFFFFFFFF#32⟩, by decide, rfl,
    by decide⟩

theorem oscSetFreq (u : BitVec 8) : Statement (.oscSetFreq u) :=
  ⟨(fields _).1, (fields _).2.1, (fields _).2.2, ⟨"OSC_SET_FREQ", 0x10000000#32, 0xFF00FFFF#32⟩, by decide, rfl,
    beq_iff_eq.2 (masked_unit (op := 0x10#8) (v := 0x10000000#32) rfl rfl (by decide) rfl)⟩

theorem oscSetWave (u : BitVec 8) (imm : BitVec 16) : Statement (.oscSetWave u imm) :=
  ⟨(fields _).1, (fields _).2.1, (fields _).2.2, ⟨"OSC_SET_WAVE", 0x11000000#32, 0xFF000000#32⟩, by decide, rfl,
    beq_iff_eq.2 (masked_wave (op := 0x11#8) (v := 0x11000000#32) rfl (by decide) rfl)⟩

theorem oscNext (u : BitVec 8) : Statement (.oscNext u) :=
  ⟨(fields _).1, (fields _).2.1, (fields _).2.2, ⟨"OSC_NEXT", 0x12000000#32, 0xFF00FFFF#32⟩, by decide, rfl,
    beq_iff_eq.2 (masked_unit (op := 0x12#8) (v := 0x12000000#32) rfl rfl (by decide) rfl)⟩

theorem fltSetParams (u : BitVec 8) : Statement (.fltSetParams u) :=
  ⟨(fields _).1, (fields _).2.1, (fields _).2.2, ⟨"FLT_SET_PARAMS", 0x20000000#32, 0xFF00FFFF#32⟩, by decide, rfl,
    beq_iff_eq.2 (masked_unit (op := 0x20#8) (v := 0x20000000#32) rfl rfl (by decide) rfl)⟩

theorem fltProcess (u : BitVec 8) : Statement (.fltProcess u) :=
  ⟨(fields _).1, (fields _).2.1, (fields _).2.2, ⟨"FLT_PROCESS", 0x21000000#32, 0xFF00FFFF#32⟩, by decide, rfl,
    beq_iff_eq.2 (masked_unit (op := 0x21#8) (v := 0x21000000#32) rfl rfl (by decide) rfl)⟩

theorem fltReset (u : BitVec 8) : Statement (.fltReset u) :=
  ⟨(fields _).1, (fields _).2.1, (fields _).2.2, ⟨"FLT_RESET", 0x22000000#32, 0xFF00FFFF#32⟩, by decide, rfl,
    beq_iff_eq.2 (masked_unit (op := 0x22#8) (v := 0x22000000#32) rfl rfl (by decide) rfl)⟩

theorem envSetParams (u : BitVec 8) : Statement (.envSetParams u) :=
  ⟨(fields _).1, (fields _).2.1, (fields _).2.2, ⟨"ENV_SET_PARAMS", 0x30000000#32, 0xFF00FFFF#32⟩, by decide, rfl,
    beq_iff_eq.2 (masked_unit (op := 0x30#8) (v := 0x30000000#32) rfl rfl (by decide) rfl)⟩

theorem envNoteOn (u : BitVec 8) : Statement (.envNoteOn u) :=
  ⟨(fields _).1, (fields _).2.1, (fields _).2.2, ⟨"ENV_NOTE_ON", 0x31000000#32, 0xFF00FFFF#32⟩, by decide, rfl,
    beq_iff_eq.2 (masked_unit (op := 0x31#8) (v := 0x31000000#32) rfl rfl (by decide) rfl)⟩

theorem envNoteOff (u : BitVec 8) : Statement (.envNoteOff u) :=
  ⟨(fields _).1, (fields _).2.1, (fields _).2.2, ⟨"ENV_NOTE_OFF", 0x32000000#32, 0xFF00FFFF#32⟩, by decide, rfl,
    beq_iff_eq.2 (masked_unit (op := 0x32#8) (v := 0x32000000#32) rfl rfl (by decide) rfl)⟩

theorem envNext (u : BitVec 8) : Statement (.envNext u) :=
  ⟨(fields _).1, (fields _).2.1, (fields _).2.2, ⟨"ENV_NEXT", 0x33000000#32, 0xFF00FFFF#32⟩, by decide, rfl,
    beq_iff_eq.2 (masked_unit (op := 0x33#8) (v := 0x33000000#32) rfl rfl (by decide) rfl)⟩

theorem dlySetDelay (u : BitVec 8) : Statement (.dlySetDelay u) :=
  ⟨(fields _).1, (fields _).2.1, (fields _).2.2, ⟨"DLY_SET_DELAY", 0x40000000#32, 0xFF00FFFF#32⟩, by decide, rfl,
    beq_iff_eq.2 (masked_unit (op := 0x40#8) (v := 0x40000000#32) rfl rfl (by decide) rfl)⟩

theorem dlySetFeedback (u : BitVec 8) : Statement (.dlySetFeedback u) :=
  ⟨(fields _).1, (fields _).2.1, (fields _).2.2, ⟨"DLY_SET_FEEDBACK", 0x41000000#32, 0xFF00FFFF#32⟩, by decide, rfl,
    beq_iff_eq.2 (masked_unit (op := 0x41#8) (v := 0x41000000#32) rfl rfl (by decide) rfl)⟩

theorem dlyProcess (u : BitVec 8) : Statement (.dlyProcess u) :=
  ⟨(fields _).1, (fields _).2.1, (fields _).2.2, ⟨"DLY_PROCESS", 0x42000000#32, 0xFF00FFFF#32⟩, by decide, rfl,
    beq_iff_eq.2 (masked_unit (op := 0x42#8) (v := 0x42000000#32) rfl rfl (by decide) rfl)⟩

theorem dlyReset (u : BitVec 8) : Statement (.dlyReset u) :=
  ⟨(fields _).1, (fields _).2.1, (fields _).2.2, ⟨"DLY_RESET", 0x43000000#32, 0xFF00FFFF#32⟩, by decide, rfl,
    beq_iff_eq.2 (masked_unit (op := 0x43#8) (v := 0x43000000#32) rfl rfl (by decide) rfl)⟩

end Sys2Proof.Laws.EncodeFields
end

