-- ==== Sys2Proof/Tests/Slice0.lean ====
section
/-! SUPPORT. The model's own tests: the well-formedness checks, decoding of words written out from 30_encoding.md, one-step
tests whose expected values are those of 95_test_vectors.md, and for every obligation with hypotheses a witness that meets
them. -/

namespace Sys2Proof.Tests

open Sys2Proof Sys2Proof.Machine

set_option Elab.async false

/-! ## Well-formedness: one ill-formed term for each check -/

theorem test_default_params_wf : Params.default.wf = true := by decide +kernel

theorem test_no_oscillator_refused :
    ({ Params.default with graph := { defaultGraph with oscInit := [] } } : Params).countsLegal = false ∧
    ({ Params.default with graph := { defaultGraph with oscInit := [] } } : Params).wf = false := by decide +kernel

theorem test_too_many_filters_refused :
    ({ Params.default with graph := { defaultGraph with fltInit := List.replicate 256 defaultFltInit } } : Params).wf =
      false := by decide +kernel

theorem test_block_capacity_zero_refused : ({ Params.default with maxBlock := 0 } : Params).wf = false := by decide +kernel

theorem test_block_capacity_too_large_refused :
    ({ Params.default with maxBlock := 2 ^ 20 + 1 } : Params).wf = false := by decide +kernel

theorem test_delay_capacity_too_large_refused :
    ({ Params.default with maxDelay := 2 ^ 32 } : Params).wf = false := by decide +kernel

theorem test_graph_without_groups_refused :
    ({ Params.default with graph := { defaultGraph with groups := [] } } : Params).wf = false := by decide +kernel

/-- A graph of one group with the given sources. -/
def oneGroup (sources : List Source) : Params :=
  { Params.default with
    graph := { defaultGraph with
      groups := [{ sources := sources, filter := none, env := none, outGain := 0x3FF0000000000000#64 }] } }

theorem test_group_without_sources_refused : (oneGroup []).wf = false := by decide +kernel

theorem test_missing_oscillator_refused :
    (oneGroup [{ osc := 5, gain := 0x3FF0000000000000#64 }]).namesExist = false ∧
    (oneGroup [{ osc := 5, gain := 0x3FF0000000000000#64 }]).wf = false := by decide +kernel

theorem test_missing_delay_refused :
    ({ Params.default with graph := { defaultGraph with delay := some 1 } } : Params).wf = false := by decide +kernel

theorem test_oscillator_named_twice_refused :
    (oneGroup [{ osc := 1, gain := 0#64 }, { osc := 1, gain := 0#64 }]).graph.noAliasing = false ∧
    (oneGroup [{ osc := 1, gain := 0#64 }, { osc := 1, gain := 0#64 }]).wf = false := by decide +kernel

theorem test_infinite_gain_refused :
    (oneGroup [{ osc := 0, gain := 0x7FF0000000000000#64 }]).graph.gainsFinite = false ∧
    (oneGroup [{ osc := 0, gain := 0x7FF0000000000000#64 }]).wf = false := by decide +kernel

theorem test_ill_formed_hardware_not_constructed : State.construct (oneGroup []) = none := by decide +kernel

theorem test_missing_unit_refused :
    (Instr.oscNext 5#8).wf Params.default = false ∧ (Instr.fltReset 2#8).wf Params.default = false ∧
    (Instr.envNext 255#8).wf Params.default = false ∧ (Instr.dlyReset 1#8).wf Params.default = false ∧
    (Instr.oscNext 4#8).wf Params.default = true := by decide +kernel

/-! ## Decoding: words written out from the fields of 30_encoding.md R81 and the opcodes of R85 -/

theorem test_decode_prepare : decodeWord 0b00000001000000000000000000000000#32 = .ok .prepare := by decide
theorem test_decode_process_block : decodeWord 0b00000010000000000000000000000000#32 = .ok .processBlock := by decide
theorem test_decode_osc_set_freq : decodeWord 0b00010000000000100000000000000000#32 = .ok (.oscSetFreq 2) := by decide
theorem test_decode_osc_set_wave : decodeWord 0b00010001000000110000000000000001#32 = .ok (.oscSetWave 3 1) := by decide
theorem test_decode_osc_next : decodeWord 0b00010010000000110000000000000000#32 = .ok (.oscNext 3) := by decide
theorem test_decode_flt_set_params : decodeWord 0b00100000000000010000000000000000#32 = .ok (.fltSetParams 1) := by decide
theorem test_decode_flt_process : decodeWord 0b00100001111111110000000000000000#32 = .ok (.fltProcess 255) := by decide
theorem test_decode_flt_reset : decodeWord 0b00100010000000010000000000000000#32 = .ok (.fltReset 1) := by decide
theorem test_decode_env_set_params : decodeWord 0b00110000000000010000000000000000#32 = .ok (.envSetParams 1) := by decide
theorem test_decode_env_note_on : decodeWord 0b00110001100000000000000000000000#32 = .ok (.envNoteOn 128) := by decide
theorem test_decode_env_note_off : decodeWord 0b00110010000000010000000000000000#32 = .ok (.envNoteOff 1) := by decide
theorem test_decode_env_next : decodeWord 0b00110011111111110000000000000000#32 = .ok (.envNext 255) := by decide
theorem test_decode_dly_set_delay : decodeWord 0b01000000000000010000000000000000#32 = .ok (.dlySetDelay 1) := by decide
theorem test_decode_dly_set_feedback :
    decodeWord 0b01000001000000010000000000000000#32 = .ok (.dlySetFeedback 1) := by decide
theorem test_decode_dly_process : decodeWord 0b01000010000000010000000000000000#32 = .ok (.dlyProcess 1) := by decide
theorem test_decode_dly_reset : decodeWord 0b01000011000000010000000000000000#32 = .ok (.dlyReset 1) := by decide

/-- The illegal words of V-ENC-1, each with its reason. -/
theorem test_decode_illegal :
    decodeWord 0x00000000#32 = .error (.reservedOpcode 0x00) ∧ decodeWord 0x13000000#32 = .error (.reservedOpcode 0x13) ∧
    decodeWord 0xFF000000#32 = .error (.reservedOpcode 0xFF) ∧ decodeWord 0x02010000#32 = .error (.unitOnHostCommand 1) ∧
    decodeWord 0x01000001#32 = .error (.immediateNotUsed 1) ∧ decodeWord 0x12000001#32 = .error (.immediateNotUsed 1) := by
  decide

/-- Bytes: the least significant first (20_memory.md R64); fewer than four are no word. -/
theorem test_decode_bytes :
    decodeBytes [0x00#8, 0x00#8, 0x03#8, 0x12#8, 0xAA#8] = .ok (.oscNext 3, [0xAA#8]) ∧
    decodeBytes [0x00#8, 0x00#8, 0x03#8] = .error .truncated := by decide

/-- The encodings of V-ENC-2. -/
theorem test_encode :
    encode (.oscNext 3) = 0x12030000#32 ∧ encode (.fltSetParams 1) = 0x20010000#32 ∧
    encode (.oscSetWave 2 1) = 0x11020001#32 ∧ encode (.oscSetWave 9 2) = 0x11090002#32 := by decide

/-- The host's two questions, on one row: the decoder gives the row's command, and the next step runs it (PREPARE with
`ARG0 = 0` is `CFG_SAMPLE_RATE`, 45_graph.md R220). -/
theorem test_table_word :
    decodeTableWord 32 0x01000000 = some .prepare ∧
    (match step (State.reset.withFetchWord 32 0x01000000) with
      | .next t => decide (statusWord t.status = 0x102#64 ∧ t.errCmd = 0x01000000#32)
      | .fault _ => false
      | .refused _ => false) = true := by decide +kernel

/-! ## A prepared core with small memories -/

/-- The default hardware with small memories. -/
def small : Params := { Params.default with maxBlock := 8, maxDelay := 16 }

/-- 440 Hz at 44100 (V-OSC-3). -/
def osc440 : OscUnit := { f := 0x407B800000000000#64, inc := 0x3FB00C6938F15E29#64, phase := 0#64, wave := .sine }

/-- A saw at 11025 Hz, SR_W 44100 (V-OSC-1). -/
def saw11025 : OscUnit := { f := 0x40C5888000000000#64, inc := 0x3FF921FB54442D18#64, phase := 0#64, wave := .saw }

/-- The filter of V-FLT-1 with history `x1 = 1`. -/
def flt1 : FltUnit :=
  { fc := 0x40C5888000000000#64, q := 0x3FE6A09E667F3BCC#64, b0 := 0x3FD2BEC333018866#64, b1 := 0x3FE2BEC333018866#64,
    b2 := 0x3FD2BEC333018866#64, a1 := 0xBC94AD57504A5270#64, a2 := 0x3FC5F619980C4336#64,
    x1 := 0x3FF0000000000000#64, x2 := 0#64, y1 := 0x3FD2BEC333018866#64, y2 := 0#64 }

/-- The envelope of V-ENV-2, in Idle. -/
def envIdle : EnvUnit :=
  { na := 4, nd := 2, nr := 4, s := 0x3FE0000000000000#64, stage := .idle, level := 0#64, n := 0, start := 0#64 }

/-- The same envelope in Sustain. -/
def envHeld : EnvUnit :=
  { envIdle with stage := .sustain, level := 0x3FE0000000000000#64, start := 0x3FF0000000000000#64 }

/-- The delay line of V-DLY-1 with a capacity of 4, after one input of 1. -/
def dly1 : DlyUnit := { c := 4, d := 3, g := 0x3FE0000000000000#64, w := 1, dram := [(0, 0x3FF0000000000000#64)] }

/-- A prepared core at 44100 Hz. -/
def base : State :=
  { State.powerOn small with
    status := { prepared := true, fault := false, errCode := .noError, errUnit := 0#8 }
    sr64 := 0x40E5888000000000#64, srW := 0x40E5888000000000#64, maxBlk := 4
    osc := [osc440, saw11025, osc440, osc440, osc440], flt := [flt1, flt1], env := [envIdle, envHeld], dly := [dly1] }

/-- The prepared core with `ARG0`. -/
def with0 (v : Word) : State := { base with arg0 := v }

/-- The prepared core after the error of V-ERR style: faulted. -/
def faulted : State :=
  { base with status := { base.status with fault := true, errCode := .prgBadUnit, errUnit := 7#8 }, errCmd := 0x12070000#32 }

/-- A command ends in a next state that passes a check. -/
def gives (o : Host.Outcome State Fault Refusal) (p : State → Bool) : Bool :=
  match o with
  | .next t => p t
  | .fault _ => false
  | .refused _ => false

/-- A command raises an error: `STATUS` and `ERRCMD` are as given and all else is kept. -/
def raises (i : Instr) (s : State) (status : Word) (word : CmdWord) : Bool :=
  gives (exec i s) fun t =>
    decide (statusWord t.status = status ∧ t.errCmd = word ∧ { t with status := s.status, errCmd := s.errCmd } = s)

/-! ## At most two one-step tests for each command; expected values from 95_test_vectors.md -/

/-- V-OSC-3 and 45_graph.md R220: PREPARE of the default hardware. -/
theorem test_prepare :
    gives (exec .prepare { State.reset with arg0 := 0x40E5888000000000#64, arg1 := 512#64 })
      (fun t => decide (statusWord t.status = 1#64 ∧ (oscAt t 0).inc = 0x3FB00C6938F15E29#64 ∧ (dlyAt t 0).c = 11025 ∧
        (envAt t 0).na = 441 ∧ (fltAt t 1).b0 = 0x3F0A574A2639DEE8#64)) = true := by decide +kernel

/-- V-ERR-10: a sample rate of 0; the core is unprepared. -/
theorem test_prepare_sample_rate : gives (exec .prepare base)
    (fun t => decide (statusWord t.status = 0x102#64 ∧ t.errCmd = 0x01000000#32 ∧ t.osc = base.osc)) = true := by
  decide +kernel

/-- Topology (a) of 45_graph.md R212 over one block of two samples of the sine of V-OSC-3. -/
theorem test_process_block : gives (exec .processBlock (with0 2#64))
    (fun t => decide (t.outbuf = [(0, 0#64), (1, 0x3FB009B8777F3581#64)] ∧ (oscAt t 1) = saw11025 ∧
      (oscAt t 0).phase = 0x3FC00C6938F15E29#64)) = true := by decide +kernel

/-- V-ERR-3: a block larger than `MAXBLK`. -/
theorem test_process_block_too_large :
    raises .processBlock (with0 5#64) 0x8403#64 0x02000000#32 = true := by decide +kernel

/-- V-OSC-1: 11025 Hz at 44100. -/
theorem test_osc_set_freq : gives (exec (.oscSetFreq 3) (with0 0x40C5888000000000#64))
    (fun t => decide (oscAt t 3 = { saw11025 with wave := .sine })) = true := by decide +kernel

/-- V-OSC-5: the smallest subnormal. -/
theorem test_osc_set_freq_underflow :
    raises (.oscSetFreq 0) (with0 1#64) 0x303#64 0x10000000#32 = true := by decide +kernel

theorem test_osc_set_wave : gives (exec (.oscSetWave 2 1) base)
    (fun t => decide (t = { base with osc := [osc440, saw11025, { osc440 with wave := .saw }, osc440, osc440] })) = true := by
  decide +kernel

/-- V-OSC-9. -/
theorem test_osc_set_wave_code :
    raises (.oscSetWave 0 0xFFFF) base 0x403#64 0x1100FFFF#32 = true := by decide +kernel

/-- V-OSC-3, row 1. -/
theorem test_osc_next_sine :
    gives (exec (.oscNext 0) { base with osc := [{ osc440 with phase := 0x3FB00C6938F15E29#64 }] })
      (fun t => decide (t.result = 0x3FB009B8777F3581#64 ∧ (oscAt t 0).phase = 0x3FC00C6938F15E29#64)) = true := by
  decide +kernel

/-- V-OSC-1: the first output of the saw, and the phase after it. -/
theorem test_osc_next_saw : gives (exec (.oscNext 1) base)
    (fun t => decide (t.result = 0xBFF0000000000000#64 ∧ (oscAt t 1).phase = 0x3FF921FB54442D18#64)) = true := by
  decide +kernel

/-- V-FLT-5. -/
theorem test_flt_set_params :
    gives (exec (.fltSetParams 1) { base with arg0 := 0x408F400000000000#64, arg1 := 0x3FE6A09E667F3BCC#64 })
      (fun t => decide (fltAt t 1 = { flt1 with
        fc := 0x408F400000000000#64, b0 := 0x3F72DBA46E18CD80#64, b1 := 0x3F82DBA46E18CD80#64,
        b2 := 0x3F72DBA46E18CD80#64, a1 := 0xBFFCC9195111671C#64, a2 := 0x3FEA290FC59394A5#64 })) = true := by
  decide +kernel

/-- V-FLT-6: a NaN cutoff and a zero Q; the cutoff is checked first. -/
theorem test_flt_set_params_order :
    raises (.fltSetParams 1) { base with arg0 := 0x7FF8000000000000#64, arg1 := 0#64 } 0x10503#64 0x20010000#32 = true := by
  decide +kernel

/-- V-FLT-2, the second output 0.5857864376269049. -/
theorem test_flt_process : gives (exec (.fltProcess 0) base)
    (fun t => decide (t.result = 0x3FE2BEC333018866#64 ∧ (fltAt t 0).x2 = 0x3FF0000000000000#64 ∧
      (fltAt t 0).y2 = 0x3FD2BEC333018866#64)) = true := by decide +kernel

/-- V-FLT-7: after a reset, an input of -0 gives +0; 42_biquad.md R144. -/
theorem test_flt_reset : gives (exec (.fltReset 0) base)
    (fun t => decide (fltAt t 0 = { flt1 with x1 := 0#64, x2 := 0#64, y1 := 0#64, y2 := 0#64 } ∧ fltAt t 1 = flt1)) =
      true := by decide +kernel

/-- V-ENV-8 and V-ENV-12: 0.01 s at 44100 is 441 samples; a sustain of -0 is stored as +0. -/
theorem test_env_set_params :
    gives (exec (.envSetParams 1)
        { base with arg0 := 0x3F847AE147AE147B#64, arg1 := 0#64, arg2 := 0x8000000000000000#64, arg3 := 0#64 })
      (fun t => decide (envAt t 1 = { envHeld with na := 441, nd := 0, s := 0#64, nr := 0, level := 0#64 })) = true := by
  decide +kernel

/-- V-ENV-12: a sustain level above 1. -/
theorem test_env_set_params_sustain :
    raises (.envSetParams 1) { base with arg2 := 0x3FF8000000000000#64 } 0x10703#64 0x30010000#32 = true := by
  decide +kernel

/-- V-ENV-2: the note-on. -/
theorem test_env_note_on : gives (exec (.envNoteOn 1) base)
    (fun t => decide (envAt t 1 = { envIdle with stage := .attack })) = true := by decide +kernel

/-- V-ENV-7: zero attack and decay go to Sustain at once. -/
theorem test_env_note_on_zero :
    gives (exec (.envNoteOn 0) { base with env := [{ envIdle with na := 0, nd := 0 }] })
      (fun t => decide ((envAt t 0).stage = .sustain ∧ (envAt t 0).level = 0x3FE0000000000000#64 ∧
        (envAt t 0).start = 0x3FF0000000000000#64)) = true := by decide +kernel

/-- V-ENV-3: the release from Sustain. -/
theorem test_env_note_off : gives (exec (.envNoteOff 1) base)
    (fun t => decide (envAt t 1 = { envHeld with stage := .release, start := 0x3FE0000000000000#64 })) = true := by
  decide +kernel

/-- V-ENV-1: a note-off in Idle. -/
theorem test_env_note_off_idle : gives (exec (.envNoteOff 0) base) (fun t => decide (t = base)) = true := by decide +kernel

/-- V-ENV-2: the third output 0.5, and the level 0.75 it leaves. -/
theorem test_env_next :
    gives (exec (.envNext 0) { base with env := [{ envIdle with stage := .attack, n := 2, level := 0x3FE0000000000000#64 }] })
      (fun t => decide (t.result = 0x3FE0000000000000#64 ∧ (envAt t 0).level = 0x3FE8000000000000#64 ∧
        (envAt t 0).n = 3)) = true := by decide +kernel

/-- V-ENV-14: a shortened ramp completes. -/
theorem test_env_next_completes :
    gives (exec (.envNext 0)
        { base with env := [{ envIdle with na := 2, stage := .attack, n := 3, level := 0x3FE8000000000000#64 }] })
      (fun t => decide (t.result = 0x3FE8000000000000#64 ∧ (envAt t 0).stage = .decay ∧ (envAt t 0).n = 0 ∧
        (envAt t 0).level = 0x3FF0000000000000#64)) = true := by decide +kernel

/-- V-DLY-4: `w = 3 mod 2`. -/
theorem test_dly_set_delay : gives (exec (.dlySetDelay 0) { with0 2#64 with dly := [{ dly1 with d := 4, w := 3 }] })
    (fun t => decide (dlyAt t 0 = { dly1 with d := 2, w := 1 })) = true := by decide +kernel

/-- V-DLY-6: one more than `C`. -/
theorem test_dly_set_delay_too_long : raises (.dlySetDelay 0) (with0 5#64) 0x903#64 0x40000000#32 = true := by
  decide +kernel

/-- V-DLY-5: -0 is stored as +0. -/
theorem test_dly_set_feedback : gives (exec (.dlySetFeedback 0) (with0 0x8000000000000000#64))
    (fun t => decide (dlyAt t 0 = { dly1 with g := 0#64 })) = true := by decide +kernel

/-- V-DLY-6: a gain that rounds to 1.0 in binary32. -/
theorem test_dly_set_feedback_binary32 :
    raises (.dlySetFeedback 0) { with0 0x3FEFFFFFFFFFFFFF#64 with params := { small with fmt := .binary32 } }
      0x803#64 0x41000000#32 = true := by decide +kernel

/-- V-DLY-1: the first echo, 0.5, written over the impulse. -/
theorem test_dly_process : gives (exec (.dlyProcess 0) { base with dly := [{ dly1 with w := 0 }] })
    (fun t => decide (t.result = 0x3FE0000000000000#64 ∧ dlyAt t 0 = { dly1 with dram := [(0, 0x3FE0000000000000#64)] })) =
      true := by decide +kernel

/-- V-DLY-1: index 2 wraps to 0, and a +0 output leaves no entry. -/
theorem test_dly_process_wraps : gives (exec (.dlyProcess 0) { base with dly := [{ dly1 with w := 2 }] })
    (fun t => decide (t.result = 0#64 ∧ dlyAt t 0 = { dly1 with w := 0 })) = true := by decide +kernel

/-- V-DLY-9; the word at index 4, above `C`, is kept (44_delay.md R194). -/
theorem test_dly_reset :
    gives (exec (.dlyReset 0) { base with dly := [{ dly1 with dram := [(0, 1#64), (3, 2#64), (4, 3#64)] }] })
      (fun t => decide (dlyAt t 0 = { dly1 with w := 0, dram := [(4, 3#64)] })) = true := by decide +kernel

/-! ## The host port -/

/-- V-ENC-1: bits 63:32 of a write to `CMD` are ignored; the command runs. -/
theorem test_write_cmd_high_bits : gives (step { base with pending := [.write 0#21 0xFFFFFFFF12010000#64] })
    (fun t => decide (t.result = 0xBFF0000000000000#64 ∧ t.pending = [])) = true := by decide +kernel

/-- The default `CONFIG` (10_state.md R28): 5, 2, 2, 1 units, binary64. -/
theorem test_config_word : configWord Params.default = 0x0000000101020205#64 := by decide +kernel

/-- V-ENC-1: a unit that does not exist; 60_exceptions.md R246. -/
theorem test_bad_unit : raises (.envNext 255) base 0xFF8203#64 0x33FF0000#32 = true := by decide +kernel

/-- The argument reduction constant is Machin's: `π/2 = 8 arctan(1/5) - 2 arctan(1/239)`, to its last bit. -/
def arctanInv (m : Nat) : Nat → Nat → Nat → Int
  | 0, _, _ => 0
  | fuel + 1, t, n => (t / n : Int) - arctanInv m fuel (t / (m * m)) (n + 2)

theorem test_half_pi :
    (8 * arctanInv 5 340 (2 ^ 1600 / 5) 1 - 2 * arctanInv 239 110 (2 ^ 1600 / 239) 1) / 2 ^ 100 = halfPi := by
  decide +kernel

/-! ## Witnesses: states and operands that meet the hypotheses of each obligation -/

theorem ready_base (i : Instr) (h : i.wf small = true) : Ready base i := ⟨rfl, rfl, h⟩

theorem ready_with0 (v : Word) (i : Instr) (h : i.wf small = true) : Ready (with0 v) i := ⟨rfl, rfl, h⟩

/-- Any state that is `base` but for its operands, its units and what is pending is ready for the same commands. -/
theorem ready_like {s : State} {i : Instr} (h1 : s.status = base.status) (h2 : s.params = small) (h : i.wf small = true) :
    Ready s i := ⟨by rw [h1]; rfl, by rw [h1]; rfl, by rw [h2]; exact h⟩

/-- The invariant of a state with `base`'s parameters, globals and flags, from what differs. -/
theorem inv_like {s : State} (hp : s.params = small) (hs : s.status = base.status) (he : s.errCmd = 0#32)
    (hr : s.sr64 = base.sr64 ∧ s.srW = base.srW ∧ s.maxBlk = 4) (hb : s.outbuf = [] ∧ s.scratch = base.scratch)
    (ho : s.osc = base.osc) (hf : s.flt.length = 2) (hn : s.env.length = 2) (hl : s.dly.length = 1)
    (henv : ∀ e ∈ s.env, EnvOk .binary64 e) (hdly : ∀ l ∈ s.dly, DlyOk .binary64 16 l ∧ MemOk .dram 16 l.dram) : Inv s where
  params := by rw [hp]; decide +kernel
  oscCount := by rw [hp, ho]; rfl
  fltCount := by rw [hp, hf]; rfl
  envCount := by rw [hp, hn]; rfl
  dlyCount := by rw [hp, hl]; rfl
  outbuf := by rw [hb.1]; exact ⟨rfl, by simp⟩
  dram := by rw [hp]; exact fun l h => (hdly l h).2
  scratchSrc := by
    rw [hb.2]; intro m hm
    have : m = [] := by revert m; decide +kernel
    subst this; exact ⟨rfl, by simp⟩
  scratchM := by rw [hb.2]; exact ⟨rfl, by simp [base, State.powerOn, Scratch.reset]⟩
  scratchG := by
    rw [hb.2]; intro m hm
    have : m = [] := by revert m; decide +kernel
    subst this; exact ⟨rfl, by simp⟩
  scratchO := by rw [hb.2]; exact ⟨rfl, by simp [base, State.powerOn, Scratch.reset]⟩
  status :=
    ⟨fun _ => by rw [hs, he]; exact ⟨rfl, rfl, rfl⟩, fun h => by rw [hs] at h; simp [base] at h, by rw [hs]; decide⟩
  blockSize := fun _ => by rw [hr.2.2, hp]; decide
  sampleRate := fun _ => by rw [hr.1, hr.2.1, hp]; refine ⟨?_, rfl, ?_⟩ <;> decide +kernel
  oscillators := fun _ => by
    rw [ho, hp]; intro o h
    have h : o = osc440 ∨ o = saw11025 := by revert o; decide +kernel
    rcases h with rfl | rfl <;> exact ⟨by decide +kernel, by decide +kernel⟩
  envelopes := fun _ => by rw [hp]; exact henv
  delays := fun _ => by rw [hp]; exact fun l h => (hdly l h).1

theorem env_ok_base : ∀ e ∈ base.env, EnvOk .binary64 e := by
  intro e h
  have h : e = envIdle ∨ e = envHeld := by simpa [base] using h
  rcases h with rfl | rfl
  · exact ⟨by decide +kernel, by decide, by decide, by decide⟩
  · exact ⟨by decide +kernel, by decide, by decide, by decide⟩

theorem dly_ok_base : ∀ l ∈ base.dly, DlyOk .binary64 16 l ∧ MemOk .dram 16 l.dram := by
  intro l h
  have h : l = dly1 := by simpa [base] using h
  subst h
  exact ⟨⟨by decide, by decide, by decide +kernel⟩, by decide +kernel, by decide⟩

theorem inv_base : Inv base :=
  inv_like rfl rfl rfl ⟨rfl, rfl, rfl⟩ ⟨rfl, rfl⟩ rfl rfl rfl rfl env_ok_base dly_ok_base

theorem inv_with0 (v : Word) : Inv (with0 v) :=
  inv_like rfl rfl rfl ⟨rfl, rfl, rfl⟩ ⟨rfl, rfl⟩ rfl rfl rfl rfl env_ok_base dly_ok_base

theorem inv_base_pending (v : Word) (es : List Event) : Inv { with0 v with pending := es } :=
  inv_like rfl rfl rfl ⟨rfl, rfl, rfl⟩ ⟨rfl, rfl⟩ rfl rfl rfl rfl env_ok_base dly_ok_base

/-- EncodeOfDecode: a legal word. -/
theorem witness_encode_of_decode : decodeWord 0x11FF8001#32 = .ok (.oscSetWave 0xFF 0x8001) := by decide

/-- IllegalWordsRaise: an illegal word of each kind and of each end of the opcode's range, and a core that is not faulted. -/
theorem witness_illegal_words :
    IllegalWord 0x00000000#32 ∧ IllegalWord 0x44000000#32 ∧ IllegalWord 0xFF000000#32 ∧ IllegalWord 0x01FF0000#32 ∧
    IllegalWord 0x02010000#32 ∧ IllegalWord 0x43000001#32 ∧ ¬IllegalWord 0x43FF0000#32 ∧ ¬IllegalWord 0x1100FFFF#32 ∧
    base.status.fault = false := by
  unfold IllegalWord
  refine ⟨?_, ?_, ?_, ?_, ?_, ?_, ?_, ?_, ?_⟩ <;> decide +kernel

/-- StepRunsDecodedCommand: the first and the last opcode, the second with high bits set. -/
theorem witness_step_runs_command :
    ({ base with pending := [.write cmdAddr 0x01000000#64] }).pending = .write cmdAddr 0x01000000#64 :: [] ∧
    decodeWord ((0x01000000#64).extractLsb' 0 32) = .ok .prepare ∧
    decodeWord ((0xFFFFFFFF43000000#64).extractLsb' 0 32) = .ok (.dlyReset 0) := by decide +kernel

/-- HostWritesOneOperand: each operand register, at both ends of a value's range. -/
theorem witness_host_writes :
    ({ base with pending := [.write 1#21 0#64] }).pending = .write 1#21 0#64 :: [] ∧
    ({ base with pending := [.write 2#21 (-1)] }).pending = .write 2#21 (-1) :: [] ∧
    ({ base with pending := [.write 3#21 0#64] }).pending = .write 3#21 0#64 :: [] ∧
    ({ base with pending := [.write 4#21 (-1)] }).pending = .write 4#21 (-1) :: [] := ⟨rfl, rfl, rfl, rfl⟩

/-- HostReadsMappedWords and ReadOnlyWritesAreIgnored: the ends of the two mapped ranges, and a word OUTBUF holds. -/
theorem witness_mapped_words :
    (0#21 : Addr).toNat ≤ 8 ∧ (8#21 : Addr).toNat ≤ 8 ∧ 5 ≤ (5#21 : Addr).toNat ∧
    0x100000 ≤ (0x100000#21 : Addr).toNat ∧ (0x100007#21 : Addr).toNat < 0x100000 + base.params.maxBlock ∧
    memRead .outbuf [(7, 3#64)] ((0x100007#21 : Addr).toNat - 0x100000) = some 3#64 ∧
    ({ base with pending := [.read 0x100007#21] }).pending = .read 0x100007#21 :: [] ∧
    ({ base with pending := [.write 0x100007#21 1#64] }).pending = .write 0x100007#21 1#64 :: [] := by decide +kernel

/-- RegisterFieldsAreInPlace. -/
theorem witness_register_fields : small.wf = true := by decide +kernel

/-- UnmappedAccessIsRefused: the ends of the unmapped ranges, a read, a write and a partial access. -/
theorem witness_unmapped :
    9 ≤ (9#21 : Addr).toNat ∧ (0x0FFFFF#21 : Addr).toNat ≤ 0x0FFFFF ∧
    0x100000 + base.params.maxBlock ≤ (0x100008#21 : Addr).toNat ∧
    0x100000 + base.params.maxBlock ≤ (0x1FFFFF#21 : Addr).toNat ∧
    ({ base with pending := [.read 9#21] }).pending = .read 9#21 :: [] ∧
    ({ base with pending := [.write 0x1FFFFF#21 0#64] }).pending = .write 0x1FFFFF#21 0#64 :: [] ∧
    ({ base with pending := [.partialAccess 1#21] }).pending = .partialAccess 1#21 :: [] := by decide +kernel

/-- PowerOnResetClears. -/
theorem witness_power_on_reset : ({ base with pending := [.powerOnReset] }).pending = .powerOnReset :: [] := rfl

/-- FaultedCoreIgnoresCommands: a legal and an illegal word that are not PREPARE. -/
theorem witness_faulted : faulted.status.fault = true ∧ decodeWord 0x12000000#32 ≠ .ok .prepare ∧
    decodeWord 0x01000001#32 ≠ .ok .prepare := by decide +kernel

/-- CommonChecksInOrder: each of its three cases; a unit index one past the last, the greatest index, and a kind of which there
are none. -/
theorem witness_common_checks :
    base.status.fault = false ∧ (∃ e, decodeWord 0x13000000#32 = .error e) ∧
    State.reset.status.fault = false ∧ State.reset.status.prepared = false ∧ decodeWord 0x12FF0000#32 = .ok (.oscNext 255) ∧
    base.status.prepared = true ∧ decodeWord 0x12050000#32 = .ok (.oscNext 5) ∧
    (Instr.oscNext 5#8).target = some (.osc, 5#8) ∧ base.params.count .osc ≤ (5#8 : BitVec 8).toNat ∧
    ({ small with graph := { defaultGraph with dlyInit := [] } } : Params).count .dly ≤ (0#8 : BitVec 8).toNat :=
  ⟨rfl, ⟨_, rfl⟩, rfl, rfl, by decide, rfl, by decide, rfl, by decide +kernel, by decide +kernel⟩

/-- ErrorsHaveNoPartialEffect and ErrorEntryRecordsTheFirstError: a first error, one of PREPARE, and both on a faulted core. -/
theorem witness_errors :
    gives (execute 0x12050000#32 base) (fun t => !base.status.fault && t.status.fault) = true ∧
    gives (execute 0x01000000#32 base) (fun t => !base.status.fault && t.status.fault) = true ∧
    gives (execute 0x12000000#32 faulted) (fun t => faulted.status.fault && t.status.fault) = true ∧
    gives (execute 0x01000000#32 faulted) (fun t => faulted.status.fault && t.status.fault) = true ∧
    decodeWord 0x12000000#32 ≠ .ok .prepare := by decide +kernel

/-- The faulted core of the default hardware, ready for a PREPARE that succeeds. -/
def faultedDefault : State :=
  { State.reset with
    arg0 := 0x40E5888000000000#64, arg1 := 512#64
    status := { prepared := true, fault := true, errCode := .prgBadUnit, errUnit := 7#8 }, errCmd := 0x12070000#32 }

/-- SuccessWritesNoFlags and OnlyPrepareOrResetClearsFault: a command that succeeds, and PREPARE and a reset that clear a fault. -/
theorem witness_success :
    gives (execute 0x12000000#32 base) (fun t => !t.status.fault) = true ∧
    gives (execute 0x01000000#32 faultedDefault) (fun t => !t.status.fault) = true ∧
    gives (step { faultedDefault with pending := [.write cmdAddr 0x01000000#64] })
      (fun t => faultedDefault.status.fault && !t.status.fault) = true ∧
    gives (step { faulted with pending := [.powerOnReset] }) (fun t => faulted.status.fault && !t.status.fault) = true := by
  decide +kernel

/-- CommandsKeepOperandsAndParameters, OutputsAndGlobalsHaveOneWriter, UnitCommandsTouchOneUnit, PhaseIsContinuous and
CoefficientsChangeOnlyBySetting: commands that meet each clause's exclusions and end in a next state. -/
theorem witness_frames :
    (∃ t, execute 0x30010000#32 base = .next t) ∧ (∃ t, exec (.envNoteOn 1) base = .next t) ∧
    (∃ t, exec .processBlock (with0 4#64) = .next t) ∧
    (∀ u, (Instr.envNoteOn 1#8) ≠ .oscNext u ∧ (Instr.envNoteOn 1#8) ≠ .fltProcess u ∧ (Instr.envNoteOn 1#8) ≠ .envNext u ∧
      (Instr.envNoteOn 1#8) ≠ .dlyProcess u) ∧
    (Instr.envNoteOn 1#8) ≠ .processBlock ∧ (Instr.envNoteOn 1#8) ≠ .prepare ∧
    (∀ u, (Instr.envNoteOn 1#8) ≠ .fltSetParams u) ∧ (Instr.envNoteOn 1#8).target = some (.env, 1#8) :=
  ⟨by rw [show execute 0x30010000#32 base = execEnvSetParams 1 base from rfl]; exact runCommand_answers _ _ _,
    by simp only [exec, execEnvNoteOn]; exact runCommand_answers _ _ _,
    by simp only [exec, execProcessBlock]; exact runCommand_answers _ _ _, by simp, by simp, by simp, by simp, rfl⟩

/-- RoundingIsNearestTiesToEven: just below and at the overflow threshold of each format. -/
theorem witness_rounding : ∀ f ∈ [Fmt.binary32, Fmt.binary64],
    0 < 3 ∧ 1 * ((2 ^ (fracBits f + 2) - 1) * 2 ^ (expMax f - 3)) ≤ (2 ^ (fracBits f + 2) - 1) * 2 ^ (expMax f - 3) ∧
    (2 ^ (fracBits f + 2) - 1) * 2 ^ (expMax f - 3) - 1 < 1 * ((2 ^ (fracBits f + 2) - 1) * 2 ^ (expMax f - 3)) := by
  decide +kernel

/-- RoundingIsNearestTiesToEven: operands of every kind it tells apart, a NaN, infinities of equal and of opposite sign, zeros of
both signs, a pair whose exact sum is 0; the smallest and the largest value; a narrowing conversion. -/
theorem witness_arithmetic :
    fpVal .binary64 0x7FF8000000000000#64 = .nan ∧ fpVal .binary32 0x7FC00000#64 = .nan ∧
    fpVal .binary64 0x7FF0000000000000#64 = .inf false ∧ fpVal .binary64 0xFFF0000000000000#64 = .inf true ∧
    fpVal .binary32 0#64 = .fin false 0 ∧ fpVal .binary32 0x80000000#64 = .fin true 0 ∧
    fpVal .binary32 0xBF800000#64 = .fin true (2 ^ 149) ∧ fpVal .binary32 0x3F800000#64 = .fin false (2 ^ 149) ∧
    signedQuanta true (2 ^ 149) + signedQuanta false (2 ^ 149) = 0 ∧ fpVal .binary64 1#64 = .fin false 1 ∧
    fpVal .binary64 0xFFEFFFFFFFFFFFFF#64 = .fin true ((2 ^ 53 - 1) * 2 ^ 2045) := by decide +kernel

/-- IEEE 754's special cases, from the standard: `-0 + -0 = -0`, `x - x = +0`, `-1 / +0 = -∞`, `1 - ∞ = -∞`; `2^-1074` narrows to
+0 and the largest binary64 value to an infinity. -/
theorem test_arithmetic_special_cases :
    fpAdd .binary32 0x80000000#64 0x80000000#64 = 0x80000000#64 ∧ fpSub .binary32 0x3F800000#64 0x3F800000#64 = 0#64 ∧
    fpDiv .binary32 0xBF800000#64 0#64 = 0xFF800000#64 ∧
    fpSub .binary64 0x3FF0000000000000#64 0x7FF0000000000000#64 = 0xFFF0000000000000#64 ∧ toW .binary32 1#64 = 0#64 ∧
    toW .binary32 0x7FEFFFFFFFFFFFFF#64 = 0x7F800000#64 := by decide +kernel

/-- FmodIsExact: the largest value by the smallest, and a negative dividend; a zero divisor, an infinite divisor and dividend, and
a NaN. -/
theorem witness_fmod :
    fpVal .binary32 0x80000000#64 = .fin true 0 ∧ fpVal .binary32 0xFF800000#64 = .inf true ∧
    fpVal .binary32 0x7FC00000#64 = .nan ∧
    fpVal .binary64 0x7FEFFFFFFFFFFFFF#64 = .fin false ((2 ^ 53 - 1) * 2 ^ 2045) ∧
    fpVal .binary64 1#64 = .fin false 1 ∧ fpVal .binary32 0xC0A00000#64 = .fin true (5 * 2 ^ 149) ∧
    fpVal .binary32 0x40400000#64 = .fin false (3 * 2 ^ 149) := by decide +kernel

/-- ConversionsRoundTrip: the smallest and the largest binary32 value, an infinity. -/
theorem witness_conversions :
    (0xFF800000#64 : Sample).toNat < 2 ^ 32 ∧ fpVal .binary32 1#64 = .fin false 1 ∧
    fpVal .binary32 0x7F7FFFFF#64 = .fin false ((2 ^ 24 - 1) * 2 ^ 253) ∧ fpVal .binary32 0xFF800000#64 = .inf true ∧
    fpVal .binary32 0xFF800000#64 ≠ .nan := by decide +kernel

/-- SineAndCosineProperties: the largest finite value, and an infinity. -/
theorem witness_trig :
    isFinite .binary32 0x7F7FFFFF#64 = true ∧ isFinite .binary64 0x7FEFFFFFFFFFFFFF#64 = true ∧
    isFinite .binary32 0x7F800000#64 = false ∧ isFinite .binary64 0xFFF0000000000000#64 = false := by decide +kernel

/-- DurationsRoundToNearestSample: a negative duration, an infinite product, and at 1000 Hz the two boundary durations of
V-ENV-11, whose products are `(2 ^ 33 - 2) / 2` and `(2 ^ 33 - 1) / 2` samples. -/
theorem witness_durations :
    ¬(isFinite .binary64 0xBF50624DD2F1A9FC#64 = true ∧ fpLe .binary64 posZero 0xBF50624DD2F1A9FC#64 = true) ∧
    isFinite .binary64 (fpMul .binary64 0x7FE1CCF385EBC8A0#64 0x408F400000000000#64) = false ∧
    isFinite .binary64 0x4150624DD2E147AE#64 = true ∧ fpLe .binary64 posZero 0x4150624DD2E147AE#64 = true ∧
    fpVal .binary64 (fpMul .binary64 0x4150624DD2E147AE#64 0x408F400000000000#64) = .fin false ((2 ^ 32 - 1) * 2 ^ 1074) ∧
    fpVal .binary64 (fpMul .binary64 0x4150624DD2E978D5#64 0x408F400000000000#64) = .fin false ((2 ^ 33 - 1) * 2 ^ 1073) := by
  decide +kernel

/-- CapacityRoundsUp: a length of 0, an infinite product, and the least length and 0.07 s of V-DLY-7. -/
theorem witness_capacity :
    ¬(isFinite .binary64 0#64 = true ∧ fpLt .binary64 posZero 0#64 = true) ∧
    isFinite .binary64 (fpMul .binary64 0x7FE1CCF385EBC8A0#64 0x408F400000000000#64) = false ∧
    isFinite .binary64 1#64 = true ∧ fpLt .binary64 posZero 1#64 = true ∧
    fpVal .binary64 (fpMul .binary64 1#64 0x408F400000000000#64) = .fin false 1000 ∧
    fpLt .binary64 posZero 0x3FB1EB851EB851EC#64 = true ∧
    dlyCap 3088 0x40E5888000000000#64 0x3FB1EB851EB851EC#64 0#8 = .ok 3088 ∧
    dlyCap 3087 0x40E5888000000000#64 0x3FB1EB851EB851EC#64 0#8 = .error { code := .cfgDelayLength, unit := 0#8 } := by
  decide +kernel

/-- OscSetFreqStoresFrequencyAndIncrement: the first and the last unit, a valid frequency and one whose increment underflows. -/
theorem witness_osc_set_freq :
    Ready (with0 0x40C5888000000000#64) (.oscSetFreq 0) ∧ Ready (with0 1#64) (.oscSetFreq 4) ∧
    finitePos .binary64 0x40C5888000000000#64 = true ∧
    finitePos .binary64 (oscInc .binary64 base.srW 0x40C5888000000000#64) = true ∧
    finitePos .binary64 (oscInc .binary64 base.srW 1#64) = false :=
  ⟨ready_with0 _ _ (by decide +kernel), ready_with0 _ _ (by decide +kernel), by decide +kernel, by decide +kernel,
    by decide +kernel⟩

/-- OscSetWaveSelectsByCode: the codes 0, 1, 2 and 65535. -/
theorem witness_osc_set_wave :
    Ready base (.oscSetWave 4 0) ∧ Ready base (.oscSetWave 4 1) ∧ Ready base (.oscSetWave 0 2) ∧ Ready base (.oscSetWave 0 0xFFFF) :=
  ⟨ready_base _ (by decide +kernel), ready_base _ (by decide +kernel), ready_base _ (by decide +kernel),
    ready_base _ (by decide +kernel)⟩

/-- OscNextOutputsThenAdvances: a sine and a saw. -/
theorem witness_osc_next : Ready base (.oscNext 0) ∧ Ready base (.oscNext 1) ∧ (oscAt base 0).wave = .sine ∧
    (oscAt base 1).wave = .saw :=
  ⟨ready_base _ (by decide +kernel), ready_base _ (by decide +kernel), rfl, rfl⟩

/-- FltSetParamsStoresCoefficients: V-FLT-6's greatest accepted cutoff, the Nyquist frequency, and a Q of 0. -/
theorem witness_flt_set_params :
    Ready base (.fltSetParams 1) ∧
    (fltParams small base.srW 0x40D5887FFFFFFFFF#64 0x3FE6A09E667F3BCC#64 1#8).isOk = true ∧
    fltCheck .binary64 base.srW 0x40D5888000000000#64 0x3FE6A09E667F3BCC#64 1#8 = .error { code := .cfgCutoff, unit := 1#8 } ∧
    fltCheck .binary64 base.srW 0x408F400000000000#64 0#64 1#8 = .error { code := .cfgQ, unit := 1#8 } :=
  ⟨ready_base _ (by decide +kernel), by decide +kernel, by decide +kernel, by decide +kernel⟩

/-- FltProcessAppliesRecursion and FltResetClearsHistory: the first and the last unit. -/
theorem witness_flt : Ready base (.fltProcess 0) ∧ Ready base (.fltProcess 1) ∧ Ready base (.fltReset 0) ∧ Ready base (.fltReset 1) :=
  ⟨ready_base _ (by decide +kernel), ready_base _ (by decide +kernel), ready_base _ (by decide +kernel),
    ready_base _ (by decide +kernel)⟩

/-- EnvSetParamsStoresParameters: four valid operands (sustain exactly 1), and an invalid one in each place. -/
theorem witness_env_set_params :
    Ready base (.envSetParams 1) ∧ durSamples base.sr64 0x3F847AE147AE147B#64 1#8 = .ok 441 ∧
    durSamples base.sr64 0#64 1#8 = .ok 0 ∧ fpLe .binary64 posZero (oneW .binary64) = true ∧
    fpLe .binary64 (oneW .binary64) (oneW .binary64) = true ∧
    (∃ x, durSamples base.sr64 0x7FF8000000000000#64 1#8 = .error x) ∧
    ¬fpLe .binary64 0x3FF0000000000001#64 (oneW .binary64) = true :=
  ⟨ready_base _ (by decide +kernel), by decide +kernel, by decide +kernel, by decide +kernel, by decide +kernel,
    ⟨{ code := .cfgEnvelope, unit := 1#8 }, by decide +kernel⟩, by decide +kernel⟩

/-- EnvNoteOnStartsAttack: `NA` of 1; `NA` of 0 with `ND` of 1; both 0. -/
theorem witness_env_note_on :
    Ready { base with env := [{ envIdle with na := 1 }, { envIdle with na := 0, nd := 1 }] } (.envNoteOn 0) ∧
    Ready { base with env := [{ envIdle with na := 0, nd := 0 }, { envIdle with na := 0, nd := 1 }] } (.envNoteOn 1) ∧
    0 < ({ envIdle with na := 1 } : EnvUnit).na ∧ 0 < ({ envIdle with na := 0, nd := 1 } : EnvUnit).nd ∧
    ({ envIdle with na := 0, nd := 0 } : EnvUnit).na = 0 ∧ ({ envIdle with na := 0, nd := 0 } : EnvUnit).nd = 0 :=
  ⟨ready_like rfl rfl (by decide +kernel), ready_like rfl rfl (by decide +kernel), by decide, by decide, rfl, rfl⟩

/-- EnvNoteOffStartsRelease: a sounding envelope with `NR` of 4 and of 0, and a silent one. -/
theorem witness_env_note_off :
    Ready base (.envNoteOff 1) ∧ (envAt base 1).stage = .sustain ∧ 0 < (envAt base 1).nr ∧ (envAt base 0).stage = .idle ∧
    Ready { base with env := [envIdle, { envHeld with nr := 0 }] } (.envNoteOff 1) :=
  ⟨ready_base _ (by decide +kernel), rfl, by decide, rfl, ready_like rfl rfl (by decide +kernel)⟩

/-- EnvNextAdvancesOneSample. -/
theorem witness_env_next : Ready base (.envNext 0) ∧ Ready base (.envNext 1) :=
  ⟨ready_base _ (by decide +kernel), ready_base _ (by decide +kernel)⟩

/-- AttackDecaySustainSequence with `ND = 0`. -/
theorem witness_attack_without_decay :
    Inv { base with env := [{ envIdle with nd := 0 }, envHeld] } ∧
    Ready { base with env := [{ envIdle with nd := 0 }, envHeld] } (.envNoteOn 0) ∧
    0 < ({ envIdle with nd := 0 } : EnvUnit).na ∧ ({ envIdle with nd := 0 } : EnvUnit).nd = 0 :=
  ⟨inv_like rfl rfl rfl ⟨rfl, rfl, rfl⟩ ⟨rfl, rfl⟩ rfl rfl rfl rfl (fun e h => by
      have h : e = { envIdle with nd := 0 } ∨ e = envHeld := by simpa using h
      rcases h with rfl | rfl <;> exact ⟨by decide +kernel, by decide, by decide, by decide⟩) dly_ok_base,
    ready_like rfl rfl (by decide +kernel), by decide, rfl⟩

/-- AttackDecaySustainSequence and ReleaseSequence. -/
theorem witness_envelope_sequences :
    Inv base ∧ Ready base (.envNoteOn 0) ∧ base.params.attackFromCurrent = false ∧ (envAt base 0).level = posZero ∧
    0 < (envAt base 0).na ∧ Ready base (.envNoteOff 1) ∧ (envAt base 1).stage = .sustain ∧ 0 < (envAt base 1).nr :=
  ⟨inv_base, ready_base _ (by decide +kernel), rfl, rfl, by decide, ready_base _ (by decide +kernel), rfl, by decide⟩

/-- DlySetDelayReducesIndex: `n` of 1, of `C`, of 0 and of `C + 1`. -/
theorem witness_dly_set_delay :
    Ready (with0 1#64) (.dlySetDelay 0) ∧ Ready (with0 4#64) (.dlySetDelay 0) ∧ Ready (with0 0#64) (.dlySetDelay 0) ∧
    Ready (with0 5#64) (.dlySetDelay 0) ∧ 1 ≤ (1#64 : Word).toNat ∧ (4#64 : Word).toNat ≤ (dlyAt base 0).c ∧
    (0#64 : Word).toNat = 0 ∧ (dlyAt base 0).c < (5#64 : Word).toNat :=
  ⟨ready_with0 _ _ (by decide +kernel), ready_with0 _ _ (by decide +kernel), ready_with0 _ _ (by decide +kernel),
    ready_with0 _ _ (by decide +kernel), by decide, by decide, rfl, by decide⟩

/-- DlySetFeedbackStoresGain: a gain of -0 and of the greatest value below 1, and a gain of 1. -/
theorem witness_dly_set_feedback :
    Ready (with0 0x8000000000000000#64) (.dlySetFeedback 0) ∧ fpLe .binary64 posZero 0x8000000000000000#64 = true ∧
    fpLt .binary64 0x3FEFFFFFFFFFFFFF#64 (oneW .binary64) = true ∧ fpLt .binary64 (oneW .binary64) (oneW .binary64) = false :=
  ⟨ready_with0 _ _ (by decide +kernel), by decide +kernel, by decide +kernel, by decide +kernel⟩

/-- DlyProcessReadsThenWrites and DlyResetZeroesBuffer. -/
theorem witness_dly :
    Ready base (.dlyProcess 0) ∧ Memory.wf .dram (dlyAt base 0).dram = true ∧ Ready base (.dlyReset 0) :=
  ⟨ready_base _ (by decide +kernel), by decide +kernel, ready_base _ (by decide +kernel)⟩

/-- DelayLineRecurrence. -/
theorem witness_delay_recurrence : Inv base ∧ Ready base (.dlyReset 0) ∧ ∃ s1, exec (.dlyReset 0) base = .next s1 :=
  ⟨inv_base, ready_base _ (by decide +kernel), by simp only [exec, execDlyReset]; exact runCommand_answers _ _ _⟩

/-- MixIsLinear: zeros of both signs, and infinities of both signs. -/
theorem witness_mix :
    (0x8000000000000000#64 : Sample).toNat < 2 ^ (signPos .binary64 + 1) ∧ fpVal .binary64 0x8000000000000000#64 ≠ .nan ∧
    (0xFFF0000000000000#64 : Sample).toNat < 2 ^ (signPos .binary64 + 1) ∧ fpVal .binary64 0xFFF0000000000000#64 ≠ .nan ∧
    (0xFF800000#64 : Sample).toNat < 2 ^ (signPos .binary32 + 1) ∧ fpVal .binary32 0xFF800000#64 ≠ .nan ∧
    fpVal .binary32 0#64 ≠ .nan := by decide +kernel

/-- PrepareCommits and DefaultPrepareSucceeds: the default hardware at 44100 Hz, from a faulted state; block sizes 1 and
`MAX_BLOCK` are both in range. -/
theorem witness_prepare :
    faultedDefault.params = Params.default ∧ faultedDefault.arg0 = 0x40E5888000000000#64 ∧ faultedDefault.arg1 = 512#64 ∧
    isFinite .binary64 faultedDefault.arg0 = true ∧ fpLt .binary64 posZero faultedDefault.arg0 = true ∧
    1 ≤ (1#64 : Word).toNat ∧ (0x100000#64 : Word).toNat ≤ faultedDefault.params.maxBlock ∧
    (prepareUnits Params.default 0x40E5888000000000#64 0x40E5888000000000#64).isOk = true := by decide +kernel

/-- A graph of a triggered envelope with zero attack, so that every clause of PrepareBuildsUnits about the trigger is met by one of
its three envelopes; every kind of unit has a record. -/
def triggered : Params :=
  { Params.default with
    graph := { defaultGraph with
      envInit := [defaultEnvInit, { defaultEnvInit with triggerOnPrepare := true },
        { defaultEnvInit with triggerOnPrepare := true, attackSec := 0#64 },
        { defaultEnvInit with triggerOnPrepare := true, attackSec := 0#64, decaySec := 0#64 }] } }

/-- PrepareBuildsUnits: parameters whose every record passes its check, and whose unit checks pass. -/
theorem witness_prepare_units :
    (prepareUnits triggered 0x40E5888000000000#64 0x40E5888000000000#64).isOk = true ∧
    (∀ r ∈ triggered.graph.oscInit, oscRecordError triggered 0x40E5888000000000#64 r = none) ∧
    (∀ r ∈ triggered.graph.fltInit, fltRecordError triggered 0x40E5888000000000#64 r = none) ∧
    (∀ r ∈ triggered.graph.envInit, envRecordError triggered 0x40E5888000000000#64 r = none) ∧
    (∀ r ∈ triggered.graph.dlyInit, dlyRecordError triggered 0x40E5888000000000#64 r = none) ∧
    triggered.graph.oscInit[4]? = some defaultOscInit ∧ triggered.graph.fltInit[1]? = some defaultFltInit ∧
    triggered.graph.envInit[0]? = some defaultEnvInit ∧ triggered.graph.dlyInit[0]? = some defaultDlyInit := by
  decide +kernel

/-- PrepareChecksInOrder, its first two clauses and the premises of the third: rate 0; a good rate with block size 0 and
`MAX_BLOCK + 1`; a good rate and size. -/
theorem witness_prepare_order :
    fpLt .binary64 posZero base.arg0 = false ∧ ¬1 ≤ (0#64 : Word).toNat ∧ ¬(9#64 : Word).toNat ≤ small.maxBlock ∧
    1 ≤ (8#64 : Word).toNat ∧ (8#64 : Word).toNat ≤ small.maxBlock ∧ isFinite .binary64 0x40E5888000000000#64 = true ∧
    fpLt .binary64 posZero 0x40E5888000000000#64 = true := by decide +kernel

/-- PrepareChecksInOrder, its third clause, at 44100 Hz: each code as the first error, at the first and at the last index, where the
records before it pass (`CFG_CUTOFF` at exactly the Nyquist frequency, `CFG_FEEDBACK` at exactly 1.0, and a capacity that fails
before a feedback that would). -/
theorem witness_first_failing_record :
    oscRecordError small base.srW { defaultOscInit with freq := 0#64 } = some .cfgFrequency ∧
    oscRecordError small base.srW defaultOscInit = none ∧
    fltRecordError small base.srW { defaultFltInit with cutoff := 0x40D5888000000000#64, q := 0#64 } = some .cfgCutoff ∧
    fltRecordError small base.srW { defaultFltInit with q := 0#64 } = some .cfgQ ∧
    fltRecordError small base.srW defaultFltInit = none ∧
    envRecordError small base.sr64 { defaultEnvInit with sustain := 0x3FF8000000000000#64 } = some .cfgEnvelope ∧
    envRecordError small base.sr64 { defaultEnvInit with releaseSec := 0xBFF0000000000000#64 } = some .cfgEnvelope ∧
    envRecordError small base.sr64 defaultEnvInit = none ∧
    dlyRecordError Params.default base.sr64 { defaultDlyInit with delaySeconds := 0#64, feedback := 0x3FF0000000000000#64 } =
      some .cfgDelayLength ∧
    dlyRecordError Params.default base.sr64 { defaultDlyInit with feedback := 0x3FF0000000000000#64 } = some .cfgFeedback ∧
    dlyRecordError small base.sr64 defaultDlyInit = some .cfgDelayLength := by decide +kernel

/-- 60_exceptions.md R244 on one hardware: filter 1 and envelope 0 are illegal, and PREPARE reports `CFG_Q` for unit 1. -/
theorem test_prepare_first_failing_record :
    gives (exec .prepare
        { base with
          arg0 := 0x40E5888000000000#64, arg1 := 8#64
          params := { small with graph := { defaultGraph with
            fltInit := [defaultFltInit, { defaultFltInit with q := 0#64 }]
            envInit := [{ defaultEnvInit with sustain := 0x3FF8000000000000#64 }] } } })
      (fun t => decide (statusWord t.status = 0x10602#64 ∧ t.errCmd = 0x01000000#32 ∧ t.osc = base.osc)) = true := by
  decide +kernel

/-- ProcessBlockWritesOutbuf: blocks of 0, of `MAXBLK`, and of one more. -/
theorem witness_process_block :
    Inv (with0 0#64) ∧ Inv (with0 4#64) ∧ Inv (with0 5#64) ∧ Ready (with0 0#64) .processBlock ∧
    Ready (with0 4#64) .processBlock ∧ Ready (with0 5#64) .processBlock ∧ (4#64 : Word).toNat ≤ base.maxBlk ∧
    base.maxBlk < (5#64 : Word).toNat :=
  ⟨inv_with0 _, inv_with0 _, inv_with0 _, ready_with0 _ _ rfl, ready_with0 _ _ rfl, ready_with0 _ _ rfl, by decide, by decide⟩

/-- OrderOfUnitsDoesNotMatter and StepKeepsInvariant, with a step that runs a command. -/
theorem witness_invariant_step : Inv { with0 2#64 with pending := [.write cmdAddr 0x02000000#64] } ∧
    gives (step { with0 2#64 with pending := [.write cmdAddr 0x02000000#64] }) (fun t => t.outbuf.length == 2) = true :=
  ⟨inv_base_pending _ _, by decide +kernel⟩

/-- BlockSizeDoesNotMatter: blocks of 3 and 1 in a core whose `MAXBLK` is 4. -/
theorem witness_block_size : Inv base ∧ Ready base .processBlock ∧ 3 + 1 ≤ base.maxBlk ∧
    ∃ s1 s2 t, exec .processBlock { base with arg0 := BitVec.ofNat 64 3 } = .next s1 ∧
      exec .processBlock { s1 with arg0 := BitVec.ofNat 64 1 } = .next s2 ∧
      exec .processBlock { base with arg0 := BitVec.ofNat 64 (3 + 1) } = .next t := by
  refine ⟨inv_base, ready_base _ rfl, by decide, ?_⟩
  have run : ∀ s : State, ∃ t, exec .processBlock s = .next t := by
    intro s; simp only [exec, execProcessBlock]; exact runCommand_answers _ _ _
  obtain ⟨s1, h1⟩ := run { base with arg0 := BitVec.ofNat 64 3 }
  obtain ⟨s2, h2⟩ := run { s1 with arg0 := BitVec.ofNat 64 1 }
  obtain ⟨t, h3⟩ := run { base with arg0 := BitVec.ofNat 64 (3 + 1) }
  exact ⟨s1, s2, t, h1, h2, h3⟩

/-- StepKeepsPhasesInRange: a step of a core whose phases are all in range. -/
theorem witness_phases : Inv { base with pending := [.write cmdAddr 0x12000000#64] } ∧
    PhasesOk { base with pending := [.write cmdAddr 0x12000000#64] } ∧
    gives (step { base with pending := [.write cmdAddr 0x12000000#64] }) (fun t => decide ((oscAt t 0).phase ≠ 0#64)) = true :=
  ⟨inv_base_pending 0#64 _, fun _ o h => by
    have h : o = osc440 ∨ o = saw11025 := by revert o; decide +kernel
    rcases h with rfl | rfl <;> exact ⟨0, by decide +kernel, by decide +kernel⟩, by decide +kernel⟩

/-- StepKeepsLevelsInRange: a step of a core whose levels are all in range. -/
theorem witness_levels : Inv { base with pending := [.write cmdAddr 0x33010000#64] } ∧
    LevelsOk { base with pending := [.write cmdAddr 0x33010000#64] } ∧
    gives (step { base with pending := [.write cmdAddr 0x33010000#64] }) (fun t => decide (t.result = 0x3FE0000000000000#64)) =
      true :=
  ⟨inv_base_pending 0#64 _, fun _ e h => by
    have h : e = envIdle ∨ e = envHeld := by simpa [base] using h
    rcases h with rfl | rfl <;> exact ⟨⟨by decide +kernel, by decide +kernel⟩, by decide +kernel, by decide +kernel⟩,
    by decide +kernel⟩

/-- PowerOnMeetsInvariant. -/
theorem witness_power_on : Params.default.wf = true := test_default_params_wf

end Sys2Proof.Tests
end

section
/-! PROOF. The encodings of a format and the values they stand for, both ways (00_scope.md R10). -/

namespace Sys2Proof.Machine

open Sys2Proof

/-- The sign bit of an encoding. -/
def signOf (f : Fmt) (w : Sample) : Bool := w.toNat / 2 ^ signPos f % 2 == 1

/-- The exponent and fraction fields of an encoding, as one number. -/
def magOf (f : Fmt) (w : Sample) : Nat := w.toNat % 2 ^ signPos f

/-- The magnitude's encoding of an infinity; those of finite values lie below it, those of NaNs above. -/
def infMag (f : Fmt) : Nat := expMax f * 2 ^ fracBits f

/-- The three kinds of encodings, told apart by the magnitude alone. -/
theorem fpVal_cases (f : Fmt) (w : Sample) :
    (magOf f w < infMag f ∧ fpVal f w = .fin (signOf f w) (quantaOf f (magOf f w))) ∨
    (magOf f w = infMag f ∧ fpVal f w = .inf (signOf f w)) ∨
    (infMag f < magOf f w ∧ fpVal f w = .nan) := by
  have hM := Nat.two_pow_pos (fracBits f)
  have hfrac : w.toNat % 2 ^ fracBits f = magOf f w % 2 ^ fracBits f :=
    (Nat.mod_mod_of_dvd _ (pow_dvd_pow 2 (Nat.le_add_right _ _))).symm
  have hex : w.toNat / 2 ^ fracBits f % 2 ^ expBits f = magOf f w / 2 ^ fracBits f := by
    rw [magOf, signPos, pow_add, Nat.mod_mul_right_div_self]
  have hle : magOf f w / 2 ^ fracBits f ≤ expMax f := by
    have := Nat.mod_lt (w.toNat / 2 ^ fracBits f) (Nat.two_pow_pos (expBits f))
    have := expMax_lt f
    omega
  have hsplit := Nat.div_add_mod' (magOf f w) (2 ^ fracBits f)
  have hval : fpVal f w =
      if magOf f w / 2 ^ fracBits f = expMax f then
        (if magOf f w % 2 ^ fracBits f = 0 then .inf (signOf f w) else .nan)
      else .fin (signOf f w) (quantaOf f (magOf f w)) := by
    simp only [fpVal, hfrac, hex, quantaOf, signOf]
    split_ifs <;> rfl
  rcases Nat.lt_or_eq_of_le hle with hlt | heq
  · have hfin : magOf f w < infMag f := (Nat.div_lt_iff_lt_mul hM).1 hlt
    exact .inl ⟨hfin, by rw [hval, if_neg (by omega)]⟩
  · rw [heq] at hsplit
    rw [hval, if_pos heq]
    by_cases h0 : magOf f w % 2 ^ fracBits f = 0
    · exact .inr (.inl ⟨by unfold infMag; omega, if_pos h0⟩)
    · exact .inr (.inr ⟨by unfold infMag; omega, if_neg h0⟩)

theorem fpVal_eq_fin {f : Fmt} {w : Sample} {s : Bool} {k : Nat} (h : fpVal f w = .fin s k) :
    magOf f w < infMag f ∧ signOf f w = s ∧ quantaOf f (magOf f w) = k := by
  rcases fpVal_cases f w with ⟨hm, hv⟩ | ⟨_, hv⟩ | ⟨_, hv⟩ <;> rw [h] at hv <;> cases hv
  exact ⟨hm, rfl, rfl⟩

theorem fpVal_eq_inf {f : Fmt} {w : Sample} {s : Bool} (h : fpVal f w = .inf s) :
    magOf f w = infMag f ∧ signOf f w = s := by
  rcases fpVal_cases f w with ⟨_, hv⟩ | ⟨hm, hv⟩ | ⟨_, hv⟩ <;> rw [h] at hv <;> cases hv
  exact ⟨hm, rfl⟩

/-- An encoding with nothing above its sign bit is its sign and its magnitude. -/
theorem withSign_signOf_magOf {f : Fmt} {w : Sample} (h : w.toNat < 2 ^ (signPos f + 1)) :
    withSign f (signOf f w) (magOf f w) = w := by
  have hS := Nat.two_pow_pos (signPos f)
  apply BitVec.eq_of_toNat_eq
  rw [withSign_toNat f _ (show magOf f w < 2 ^ signPos f from Nat.mod_lt _ hS)]
  have hsplit := Nat.mod_add_div w.toNat (2 ^ signPos f)
  have hlt : w.toNat / 2 ^ signPos f < 2 := by
    rw [Nat.div_lt_iff_lt_mul hS, Nat.mul_comm, ← pow_succ]; exact h
  unfold signOf magOf
  interval_cases hb : w.toNat / 2 ^ signPos f <;> simp at hsplit ⊢ <;> omega

/-! The numbers of quanta of the format's finite values. -/

/-- A number of quanta with at most `fracBits + 1` significant bits, scaled by an exponent the format has. -/
def IsQuanta (f : Fmt) (k : Nat) : Prop :=
  ∃ m x, m < 2 ^ (fracBits f + 1) ∧ x ≤ expMax f - 2 ∧ k = m * 2 ^ x

/-- Half a unit above the largest finite value, in quanta. -/
def overflowQuanta (f : Fmt) : Nat := (2 ^ (fracBits f + 2) - 1) * 2 ^ (expMax f - 3)

theorem isQuanta_quantaOf {f : Fmt} {mag : Nat} (h : mag < infMag f) : IsQuanta f (quantaOf f mag) := by
  have hM := Nat.two_pow_pos (fracBits f)
  have hfrac := Nat.mod_lt mag hM
  have hex : mag / 2 ^ fracBits f < expMax f := (Nat.div_lt_iff_lt_mul hM).2 h
  unfold quantaOf
  split_ifs
  · exact ⟨mag % 2 ^ fracBits f, 0, by rw [pow_succ]; omega, by omega, by simp⟩
  · exact ⟨mag % 2 ^ fracBits f + 2 ^ fracBits f, _, by rw [pow_succ]; omega, by omega, rfl⟩

theorem isQuanta_of_fpVal {f : Fmt} {w : Sample} {s : Bool} {k : Nat} (h : fpVal f w = .fin s k) : IsQuanta f k := by
  obtain ⟨hmag, -, hk⟩ := fpVal_eq_fin h
  exact hk ▸ isQuanta_quantaOf hmag

/-- Below each power of two the format's values may lie closer together, but from there on they are multiples of the unit. -/
theorem IsQuanta.dvd_or_lt {f : Fmt} {k : Nat} (h : IsQuanta f k) (x : Nat) :
    2 ^ x ∣ k ∨ 0 < x ∧ k < 2 ^ fracBits f * 2 ^ x := by
  obtain ⟨m, y, hm, -, rfl⟩ := h
  rcases Nat.lt_or_ge y x with hyx | hxy
  · refine .inr ⟨by omega, ?_⟩
    calc m * 2 ^ y < 2 ^ (fracBits f + 1) * 2 ^ y := Nat.mul_lt_mul_of_pos_right hm (Nat.two_pow_pos y)
      _ = 2 ^ fracBits f * 2 ^ (y + 1) := by rw [← pow_add, ← pow_add]; congr 1; omega
      _ ≤ 2 ^ fracBits f * 2 ^ x := Nat.mul_le_mul_left _ (Nat.pow_le_pow_right (by omega) hyx)
  · exact .inl ((pow_dvd_pow 2 hxy).mul_left m)

theorem expMax_ge_three (f : Fmt) : 3 ≤ expMax f := by cases f <;> decide

theorem IsQuanta.lt_overflow {f : Fmt} {k : Nat} (h : IsQuanta f k) : k < overflowQuanta f := by
  obtain ⟨m, x, hm, hx, rfl⟩ := h
  have he := expMax_ge_three f
  have hD := Nat.two_pow_pos (expMax f - 3)
  calc m * 2 ^ x ≤ m * 2 ^ (expMax f - 2) := Nat.mul_le_mul_left _ (Nat.pow_le_pow_right (by omega) hx)
    _ = 2 * m * 2 ^ (expMax f - 3) := by
      rw [show expMax f - 2 = expMax f - 3 + 1 by omega, pow_succ]; ring
    _ < overflowQuanta f := Nat.mul_lt_mul_of_pos_right (by rw [pow_succ] at hm ⊢; omega) hD

/-- The remainder of two values of the format is one: it is a multiple of the finer operand's unit and is not above that
operand. -/
theorem IsQuanta.mod {f : Fmt} {j k : Nat} (hj : IsQuanta f j) (hk : IsQuanta f k) (hk0 : k ≠ 0) : IsQuanta f (j % k) := by
  have hlt : j % k < k := Nat.mod_lt _ (by omega)
  have hle : j % k ≤ j := Nat.mod_le j k
  obtain ⟨m, x, hm, hx, rfl⟩ := hj
  obtain ⟨n, y, hn, hy, rfl⟩ := hk
  rcases Nat.le_total x y with hxy | hyx
  · obtain ⟨c, hc⟩ : 2 ^ x ∣ m * 2 ^ x % (n * 2 ^ y) :=
      (Nat.dvd_mod_iff ((pow_dvd_pow 2 hxy).mul_left n)).2 (Dvd.intro_left m rfl)
    rw [hc, Nat.mul_comm (2 ^ x) c] at hle ⊢
    exact ⟨c, x, lt_of_le_of_lt (Nat.le_of_mul_le_mul_right hle (Nat.two_pow_pos x)) hm, hx, rfl⟩
  · obtain ⟨c, hc⟩ : 2 ^ y ∣ m * 2 ^ x % (n * 2 ^ y) :=
      (Nat.dvd_mod_iff (Dvd.intro_left n rfl)).2 ((pow_dvd_pow 2 hyx).mul_left m)
    rw [hc, Nat.mul_comm (2 ^ y) c] at hlt ⊢
    exact ⟨c, y, (Nat.lt_of_mul_lt_mul_right hlt).trans hn, hy, rfl⟩

end Sys2Proof.Machine
end

section
/-! PROOF. What one rounding does: to nearest, ties to even, and exact where it can be (00_scope.md R10, R12). -/

namespace Sys2Proof.Machine

open Sys2Proof

/-- `m` is `n / d` rounded to a whole number, to nearest, and even where `n / d` lies half-way. -/
def NearestEven (n d m : Nat) : Prop :=
  2 * n ≤ 2 * (m * d) + d ∧ 2 * (m * d) ≤ 2 * n + d ∧
    (2 * n = 2 * (m * d) + d ∨ 2 * (m * d) = 2 * n + d → m % 2 = 0)

/-- The rounding decision of `roundMag`. -/
theorem nearestEven_roundUp (n : Nat) {d : Nat} (hd : 0 < d) :
    NearestEven n d
      (n / d + if decide (d < 2 * (n % d)) || (decide (2 * (n % d) = d) && n / d % 2 == 1) then 1 else 0) := by
  have hsplit := Nat.div_add_mod' n d
  have hr := Nat.mod_lt n hd
  unfold NearestEven
  split_ifs with hup
  · simp only [Bool.or_eq_true, Bool.and_eq_true, decide_eq_true_eq, beq_iff_eq] at hup
    rw [Nat.add_mul, Nat.one_mul]
    omega
  · simp only [Bool.or_eq_true, Bool.and_eq_true, decide_eq_true_eq, beq_iff_eq] at hup
    rw [Nat.add_zero]
    omega

/-- No multiple of the unit is nearer than the one rounded to, and where another is as near the one rounded to is even. -/
theorem NearestEven.nearest {n d m : Nat} (h : NearestEven n d m) (hd : 0 < d) (c : Nat) :
    ((n : Int) - (m * d : Nat)).natAbs ≤ ((n : Int) - (c * d : Nat)).natAbs ∧
    (c ≠ m → ((n : Int) - (m * d : Nat)).natAbs = ((n : Int) - (c * d : Nat)).natAbs → m % 2 = 0) := by
  obtain ⟨hle, hge, htie⟩ := h
  rcases Nat.lt_trichotomy c m with hlt | rfl | hgt
  · have := Nat.mul_le_mul_right d (Nat.succ_le_of_lt hlt)
    rw [Nat.succ_mul] at this
    omega
  · omega
  · have := Nat.mul_le_mul_right d (Nat.succ_le_of_lt hgt)
    rw [Nat.succ_mul] at this
    omega

/-- A number below `a` units, where `a` units do not exceed `n`, is farther from `n` than the multiple rounded to. -/
theorem NearestEven.farther_below {n d m : Nat} (h : NearestEven n d m) (hd : 0 < d) {a k : Nat} (han : a * d ≤ n)
    (hk : k < a * d) : ((n : Int) - (m * d : Nat)).natAbs < ((n : Int) - k).natAbs := by
  obtain ⟨hle, hge, -⟩ := h
  rcases Nat.lt_trichotomy m a with hlt | rfl | hgt
  · have := Nat.mul_le_mul_right d (Nat.succ_le_of_lt hlt)
    rw [Nat.succ_mul] at this
    omega
  · omega
  · have := Nat.mul_le_mul_right d (Nat.succ_le_of_lt hgt)
    rw [Nat.succ_mul] at this
    omega

/-- What `roundMag` finds: a unit `2 ^ x` with the ratio's leading bit at most at the hidden bit's place, and exactly there
where `x > 0`, and the multiple `m` of that unit which the ratio rounds to. -/
structure Rounding (f : Fmt) (num den x m : Nat) : Prop where
  nearest : NearestEven num (den * 2 ^ x) m
  lt : num < 2 ^ (fracBits f + 1) * (den * 2 ^ x)
  ge : 0 < x → 2 ^ fracBits f * (den * 2 ^ x) ≤ num
  le_two : m ≤ 2 ^ (fracBits f + 1)
  hidden : 0 < x → 2 ^ fracBits f ≤ m
  eq_min : roundMag f num den = Nat.min (x * 2 ^ fracBits f + m) (infMag f)

theorem infMag_le (f : Fmt) : infMag f ≤ 2 ^ signPos f := by
  rw [← infMag_lt f]; exact Nat.le_add_right _ _

theorem exists_rounding (f : Fmt) (num : Nat) {den : Nat} (hden : 0 < den) : ∃ x m, Rounding f num den x m := by
  obtain ⟨hlt, hge⟩ := significand_bounds f num (den := den)
  have hd : 0 < den * 2 ^ (Nat.log2 (num / den) - fracBits f) := Nat.mul_pos hden (Nat.two_pow_pos _)
  refine ⟨_, _, nearestEven_roundUp num hd, (Nat.div_lt_iff_lt_mul hd).1 hlt,
    fun hx => (Nat.le_div_iff_mul_le hd).1 (hge hx), ?_, fun hx => (hge hx).trans (Nat.le_add_right _ _), ?_⟩
  · split_ifs <;> omega
  · simp only [roundMag_eq, infMag, Nat.add_assoc]

section
variable {f : Fmt} {num den x m : Nat}

/-- A rounding overflows exactly from half a unit above the largest finite value on. -/
theorem Rounding.lt_infMag_iff (h : Rounding f num den x m) (hden : 0 < den) :
    x * 2 ^ fracBits f + m < infMag f ↔ num < den * overflowQuanta f := by
  obtain ⟨⟨hle, hge, htie⟩, hlt, hlead, hm2, hhid, -⟩ := h
  have he := expMax_ge_three f
  have hM := Nat.two_pow_pos (fracBits f)
  have hD : 0 < den * 2 ^ (expMax f - 3) := Nat.mul_pos hden (Nat.two_pow_pos _)
  have hunit : ∀ y z, y ≤ z → den * 2 ^ y ≤ den * 2 ^ z := fun y z hyz =>
    Nat.mul_le_mul_left _ (Nat.pow_le_pow_right (by omega) hyz)
  have hover : den * overflowQuanta f + den * 2 ^ (expMax f - 3) = 4 * (2 ^ fracBits f * (den * 2 ^ (expMax f - 3))) := by
    obtain ⟨a, ha⟩ : ∃ a, 2 ^ (fracBits f + 2) = a + 1 := ⟨_, (Nat.sub_add_cancel (Nat.two_pow_pos _)).symm⟩
    have h4 : a + 1 = 4 * 2 ^ fracBits f := by rw [← ha, pow_add]; ring
    rw [overflowQuanta, ha, Nat.add_sub_cancel]
    linear_combination den * 2 ^ (expMax f - 3) * h4
  rw [infMag]
  rcases Nat.lt_trichotomy x (expMax f - 2) with hx | rfl | hx
  · -- a finer unit than the largest values have: far below the threshold
    have h3 := Nat.mul_le_mul_right (2 ^ fracBits f) (show x + 3 ≤ expMax f by omega)
    have hnum := hlt.trans_le (Nat.mul_le_mul_left _ (hunit x (expMax f - 3) (by omega)))
    have hMD := Nat.mul_le_mul_right (den * 2 ^ (expMax f - 3)) (Nat.succ_le_of_lt hM)
    rw [pow_succ, Nat.mul_assoc, Nat.mul_left_comm] at hnum
    rw [Nat.add_mul] at h3
    rw [pow_succ] at hm2
    exact iff_of_true (by omega) (by omega)
  · -- the unit of the largest values: the threshold is the tie above them
    have h2 : (expMax f - 2) * 2 ^ fracBits f + 2 * 2 ^ fracBits f = expMax f * 2 ^ fracBits f := by
      rw [← Nat.add_mul, Nat.sub_add_cancel (by omega)]
    have hd : den * 2 ^ (expMax f - 2) = 2 * (den * 2 ^ (expMax f - 3)) := by
      rw [show expMax f - 2 = expMax f - 3 + 1 by omega, pow_succ]; ring
    rw [hd, Nat.mul_left_comm m] at hle hge htie
    constructor
    · intro hm
      rcases Nat.lt_or_eq_of_le (show m + 1 ≤ 2 * 2 ^ fracBits f by omega) with hlt | heq
      · have := Nat.mul_le_mul_right (den * 2 ^ (expMax f - 3)) (Nat.succ_le_of_lt hlt)
        rw [Nat.succ_mul, Nat.add_mul, Nat.mul_assoc] at this
        omega
      · have := congrArg (· * (den * 2 ^ (expMax f - 3))) heq
        simp only [Nat.add_mul, Nat.mul_assoc] at this
        omega
    · intro hnum
      by_contra hm
      have := Nat.mul_le_mul_right (den * 2 ^ (expMax f - 3)) (show 2 * 2 ^ fracBits f ≤ m by omega)
      rw [Nat.mul_assoc] at this
      omega
  · -- a coarser unit: past the threshold
    have h1 := Nat.mul_le_mul_right (2 ^ fracBits f) (show expMax f ≤ x + 1 by omega)
    have hnum := (Nat.mul_le_mul_left (2 ^ fracBits f) (hunit (expMax f - 3 + 2) x (by omega))).trans (hlead (by omega))
    have hd : den * 2 ^ (expMax f - 3 + 2) = 4 * (den * 2 ^ (expMax f - 3)) := by rw [pow_add]; ring
    rw [hd, Nat.mul_left_comm] at hnum
    have := hhid (by omega)
    exact iff_of_false (by rw [Nat.succ_mul] at h1; omega) (by omega)

/-- The value of a rounding that does not overflow. -/
theorem Rounding.fpVal_roundW (h : Rounding f num den x m) (hlt : x * 2 ^ fracBits f + m < infMag f) (neg : Bool) :
    fpVal f (roundW f neg num den) = .fin neg (m * 2 ^ x) := by
  rw [roundW, h.eq_min, show Nat.min _ _ = _ from Nat.min_eq_left hlt.le, fpVal_withSign f neg hlt,
    quantaOf_scaled f h.le_two h.hidden]

/-- The encoding of a rounding that does not overflow is even where its significand is. -/
theorem Rounding.encoding_even (h : Rounding f num den x m) (hlt : x * 2 ^ fracBits f + m < infMag f) (neg : Bool)
    (hm : m % 2 = 0) : (roundW f neg num den).toNat % 2 = 0 := by
  have hS : 2 ∣ 2 ^ signPos f := dvd_pow_self 2 (by have := fracBits_pos f; unfold signPos; omega)
  have hM : 2 ∣ x * 2 ^ fracBits f := (dvd_pow_self 2 (fracBits_pos f).ne').mul_left x
  have hlt' : x * 2 ^ fracBits f + m < 2 ^ signPos f := hlt.trans_le (infMag_le f)
  rw [roundW, h.eq_min, show Nat.min _ _ = _ from Nat.min_eq_left hlt.le, withSign_toNat f neg hlt']
  split_ifs <;> omega

/-- No value of the format is nearer to the ratio than the one it rounds to; where another is as near, the significand is
even. -/
theorem Rounding.nearest_value (h : Rounding f num den x m) (hden : 0 < den) {k : Nat} (hk : IsQuanta f k) :
    ((num : Int) - (m * 2 ^ x : Nat) * den).natAbs ≤ ((num : Int) - k * den).natAbs ∧
    (k ≠ m * 2 ^ x → ((num : Int) - (m * 2 ^ x : Nat) * den).natAbs = ((num : Int) - k * den).natAbs → m % 2 = 0) := by
  have hd : 0 < den * 2 ^ x := Nat.mul_pos hden (Nat.two_pow_pos x)
  have hunits : ∀ c : Nat, ((c * 2 ^ x : Nat) : Int) * den = (c * (den * 2 ^ x) : Nat) := by
    intro c; push_cast; ring
  rw [hunits]
  rcases hk.dvd_or_lt x with ⟨c, rfl⟩ | ⟨hx, hlt⟩
  · rw [Nat.mul_comm (2 ^ x) c, hunits]
    obtain ⟨hle, htie⟩ := h.nearest.nearest hd c
    exact ⟨hle, fun hne => htie fun hc => hne (by rw [hc])⟩
  · have hbelow : k * den < 2 ^ fracBits f * (den * 2 ^ x) := by
      calc k * den < 2 ^ fracBits f * 2 ^ x * den := Nat.mul_lt_mul_of_pos_right hlt hden
        _ = 2 ^ fracBits f * (den * 2 ^ x) := by ring
    have hfar := h.nearest.farther_below hd (h.ge hx) hbelow
    rw [Nat.cast_mul k den] at hfar
    exact ⟨hfar.le, fun _ heq => absurd heq hfar.ne⟩

end

/-! What `roundW` and `roundMag` do, without the unit and the significand. -/

theorem roundW_eq_fpInf {f : Fmt} {num den : Nat} (hden : 0 < den) (h : den * overflowQuanta f ≤ num) (neg : Bool) :
    roundW f neg num den = fpInf f neg := by
  obtain ⟨x, m, hr⟩ := exists_rounding f num hden
  have hge : infMag f ≤ x * 2 ^ fracBits f + m := not_lt.1 fun hlt => absurd ((hr.lt_infMag_iff hden).1 hlt) (by omega)
  rw [roundW, hr.eq_min, show Nat.min _ _ = _ from Nat.min_eq_right hge]
  rfl

theorem roundMag_lt_infMag {f : Fmt} {num den : Nat} (hden : 0 < den) (h : num < den * overflowQuanta f) :
    roundMag f num den < infMag f := by
  obtain ⟨x, m, hr⟩ := exists_rounding f num hden
  rw [hr.eq_min]
  exact (Nat.min_le_left _ _).trans_lt ((hr.lt_infMag_iff hden).2 h)

/-- Rounding is exact on what the format holds. -/
theorem fpVal_roundW_of_isQuanta {f : Fmt} {k : Nat} (h : IsQuanta f k) (neg : Bool) :
    fpVal f (roundW f neg k 1) = .fin neg k := by
  have hlt : roundMag f k 1 < infMag f := roundMag_lt_infMag Nat.one_pos (by rw [Nat.one_mul]; exact h.lt_overflow)
  obtain ⟨m, x, hm, -, rfl⟩ := h
  rw [roundW, fpVal_withSign f neg hlt, quantaOf_roundMag_exact f hm hlt]

/-- Rounding depends on the ratio only. -/
theorem roundMag_mul_right (f : Fmt) (num den : Nat) {c : Nat} (hc : 0 < c) :
    roundMag f (num * c) (den * c) = roundMag f num den := by
  have hd : ∀ x, den * c * 2 ^ x = den * 2 ^ x * c := fun x => Nat.mul_right_comm _ _ _
  simp only [roundMag_eq, Nat.mul_div_mul_right _ _ hc, hd, Nat.mul_mod_mul_right, ← Nat.mul_assoc 2,
    Nat.mul_lt_mul_right hc, Nat.mul_left_inj hc.ne']

theorem roundMag_mul_self (f : Fmt) (k : Nat) {c : Nat} (hc : 0 < c) : roundMag f (k * c) c = roundMag f k 1 := by
  simpa only [Nat.one_mul] using roundMag_mul_right f k 1 hc

/-- The leading bit of a scaled significand gives its scale back. -/
theorem log2_scaled {p m y : Nat} (hm : m < 2 ^ (p + 1)) (hy : 0 < y → 2 ^ p ≤ m) :
    Nat.log2 (m * 2 ^ y) - p = y := by
  rcases Nat.eq_zero_or_pos y with rfl | hpos
  · rcases Nat.eq_zero_or_pos m with rfl | hm0
    · simp
    · have := (Nat.log2_lt hm0.ne').2 hm
      rw [pow_zero, Nat.mul_one]; omega
  · have hlog : Nat.log2 (m * 2 ^ y) = p + y := by
      have hm0 := (Nat.two_pow_pos p).trans_le (hy hpos)
      refine (Nat.log2_eq_iff (Nat.mul_pos hm0 (Nat.two_pow_pos y)).ne').2 ⟨?_, ?_⟩
      · rw [pow_add]; exact Nat.mul_le_mul_right _ (hy hpos)
      · rw [Nat.add_right_comm, pow_add]; exact Nat.mul_lt_mul_of_pos_right hm (Nat.two_pow_pos y)
    omega

theorem roundMag_scaled {f : Fmt} {m y : Nat} (hm : m < 2 ^ (fracBits f + 1)) (hy : 0 < y → 2 ^ fracBits f ≤ m) :
    roundMag f (m * 2 ^ y) 1 = Nat.min (y * 2 ^ fracBits f + m) (infMag f) := by
  simp only [roundMag_eq, Nat.div_one, log2_scaled hm hy, Nat.one_mul, Nat.mul_mod_left,
    Nat.mul_div_cancel _ (Nat.two_pow_pos y), infMag]
  rw [if_neg (by simp [(Nat.two_pow_pos y).ne]), Nat.add_zero]

/-- The encoding of a finite magnitude is the rounding of its own quanta. -/
theorem roundMag_quantaOf {f : Fmt} {mag : Nat} (h : mag < infMag f) : roundMag f (quantaOf f mag) 1 = mag := by
  have hfrac := Nat.mod_lt mag (Nat.two_pow_pos (fracBits f))
  have hsplit := Nat.div_add_mod' mag (2 ^ fracBits f)
  have hpow : 2 ^ (fracBits f + 1) = 2 * 2 ^ fracBits f := by rw [pow_succ, Nat.mul_comm]
  have hscaled : ∀ {m y}, m < 2 ^ (fracBits f + 1) → (0 < y → 2 ^ fracBits f ≤ m) → y * 2 ^ fracBits f + m = mag →
      roundMag f (m * 2 ^ y) 1 = mag := fun hm hy heq => by
    rw [roundMag_scaled hm hy, heq]; exact Nat.min_eq_left h.le
  unfold quantaOf
  split_ifs with hex
  · rw [hex] at hsplit
    simpa only [pow_zero, Nat.mul_one] using hscaled (y := 0) (by omega) (by omega) (by omega)
  · have hex' := Nat.sub_add_cancel (Nat.one_le_iff_ne_zero.2 hex)
    rw [← hex', Nat.add_mul] at hsplit
    exact hscaled (by omega) (by omega) (by omega)

theorem roundW_zero (f : Fmt) (neg : Bool) : roundW f neg 0 1 = withSign f neg 0 := by simp [roundW, roundMag_eq]

end Sys2Proof.Machine
end

section
/-! PROOF. The operations and comparisons on the values of their operands (00_scope.md R10, R12). -/

namespace Sys2Proof.Machine

open Sys2Proof

section
variable {f : Fmt} {a b : Sample} {s t : Bool} {j k : Nat}

theorem signedQuanta_not (s : Bool) (k : Nat) : signedQuanta (!s) k = -signedQuanta s k := by
  cases s <;> simp [signedQuanta]

theorem signedQuanta_add (s : Bool) (j k : Nat) : signedQuanta s j + signedQuanta s k = signedQuanta s (j + k) := by
  cases s <;> simp [signedQuanta]; omega

theorem signedQuanta_sub (s : Bool) {j k : Nat} (h : k ≤ j) :
    signedQuanta s j - signedQuanta s k = signedQuanta s (j - k) := by
  cases s <;> simp [signedQuanta, h]; omega

/-- Signed quanta as a sign and a magnitude. -/
theorem signedQuanta_facts (s : Bool) {n : Nat} (hn : n ≠ 0) :
    signedQuanta s n ≠ 0 ∧ decide (signedQuanta s n < 0) = s ∧ (signedQuanta s n).natAbs = n := by
  cases s <;> simp [signedQuanta, hn]; omega

/-- An exact signed number of quanta rounded once, with a sign for 0: what `addVals` does with finite values (`addVals_fin`). -/
def roundQuanta (f : Fmt) (zeroSign : Bool) (z : Int) : Sample :=
  if z = 0 then withSign f zeroSign 0 else roundW f (decide (z < 0)) z.natAbs 1

theorem roundQuanta_zero (f : Fmt) (zs : Bool) : roundQuanta f zs 0 = withSign f zs 0 := if_pos rfl

theorem roundQuanta_signedQuanta (f : Fmt) (zs s : Bool) {n : Nat} (hn : n ≠ 0) :
    roundQuanta f zs (signedQuanta s n) = roundW f s n 1 := by
  obtain ⟨hne, hsign, habs⟩ := signedQuanta_facts s hn
  rw [roundQuanta, if_neg hne, hsign, habs]

/-- The sum of finite values is their exact sum, rounded once. -/
theorem addVals_fin (f : Fmt) (nan : Sample) (s t : Bool) (j k : Nat) :
    addVals f nan (.fin s j) (.fin t k) = roundQuanta f (s && t) (signedQuanta s j + signedQuanta t k) := by
  simp only [addVals]
  split_ifs with hst hjk hlt
  · subst hst
    rw [signedQuanta_add, Bool.and_self]
    rcases Nat.eq_zero_or_pos (j + k) with h0 | hpos
    · rw [h0, roundW_zero, show signedQuanta s 0 = 0 by cases s <;> rfl, roundQuanta_zero]
    · rw [roundQuanta_signedQuanta f s s hpos.ne']
  all_goals
    obtain rfl : t = !s := Bool.eq_not_of_ne (Ne.symm hst)
    rw [signedQuanta_not, ← sub_eq_add_neg]
  · rw [hjk, sub_self, roundQuanta_zero, Bool.and_not_self]
    cases f <;> rfl
  · rw [signedQuanta_sub s hlt.le, roundQuanta_signedQuanta f _ s (by omega)]
  · rw [← neg_sub, signedQuanta_sub s (by omega), ← signedQuanta_not, roundQuanta_signedQuanta f _ _ (by omega)]

theorem fpAdd_fin (ha : fpVal f a = .fin s j) (hb : fpVal f b = .fin t k) :
    fpAdd f a b = roundQuanta f (s && t) (signedQuanta s j + signedQuanta t k) := by
  rw [fpAdd, ha, hb, addVals_fin]

theorem fpSub_fin (ha : fpVal f a = .fin s j) (hb : fpVal f b = .fin t k) :
    fpSub f a b = roundQuanta f (s && !t) (signedQuanta s j - signedQuanta t k) := by
  rw [fpSub, ha, hb, negVal, addVals_fin, signedQuanta_not, ← sub_eq_add_neg]

/-! A NaN operand. -/

theorem addVals_nan_right (f : Fmt) (nan : Sample) (v : FpVal) : addVals f nan v .nan = nan := by cases v <;> rfl

theorem valLt_nan_right (v : FpVal) : valLt v .nan = false := by cases v <;> rfl

theorem valEq_nan_right (v : FpVal) : valEq v .nan = false := by cases v <;> rfl

theorem operations_of_nan (h : fpVal f a = .nan ∨ fpVal f b = .nan) :
    fpVal f (fpAdd f a b) = .nan ∧ fpVal f (fpSub f a b) = .nan ∧ fpVal f (fpMul f a b) = .nan ∧
    fpVal f (fpDiv f a b) = .nan ∧ fpVal f (fpMod f a b) = .nan := by
  rcases h with h | h
  · simp [fpAdd, fpSub, fpMul, fpDiv, fpMod, h, addVals]
  · simp only [fpAdd, fpSub, fpMul, fpDiv, fpMod, h, negVal, addVals_nan_right, fpVal_nanW]
    cases fpVal f a <;> simp

theorem comparisons_of_nan (h : fpVal f a = .nan ∨ fpVal f b = .nan) :
    fpLt f a b = false ∧ fpLe f a b = false ∧ fpEq f a b = false := by
  rcases h with h | h
  · simp [fpLe, fpLt, fpEq, h, valLt, valEq]
  · simp [fpLe, fpLt, fpEq, h, valLt_nan_right, valEq_nan_right]

/-! Finite operands. -/

theorem fpMul_fin (ha : fpVal f a = .fin s j) (hb : fpVal f b = .fin t k) :
    fpMul f a b = roundW f (s != t) (j * k) (2 ^ quantum f) := by
  simp only [fpMul, ha, hb]

theorem fpDiv_fin (ha : fpVal f a = .fin s j) (hb : fpVal f b = .fin t k) :
    (k ≠ 0 → fpDiv f a b = roundW f (s != t) (j * 2 ^ quantum f) k) ∧
    (k = 0 → j ≠ 0 → fpDiv f a b = fpInf f (s != t)) ∧
    (k = 0 → j = 0 → fpVal f (fpDiv f a b) = .nan) := by
  simp only [fpDiv, ha, hb]
  refine ⟨fun hk => if_neg hk, fun hk hj => ?_, fun hk hj => ?_⟩
  · rw [if_pos hk, if_neg hj]
  · rw [if_pos hk, if_pos hj, fpVal_nanW]

theorem comparisons_fin (ha : fpVal f a = .fin s j) (hb : fpVal f b = .fin t k) :
    (fpLt f a b = true ↔ signedQuanta s j < signedQuanta t k) ∧
    (fpLe f a b = true ↔ signedQuanta s j ≤ signedQuanta t k) ∧
    (fpEq f a b = true ↔ signedQuanta s j = signedQuanta t k) := by
  simp [fpLe, fpLt, fpEq, ha, hb, valLt, valEq, le_iff_lt_or_eq]

/-! Infinite operands. -/

theorem operations_inf_inf (ha : fpVal f a = .inf s) (hb : fpVal f b = .inf t) :
    (s = t → fpAdd f a b = fpInf f s ∧ fpVal f (fpSub f a b) = .nan) ∧
    (s ≠ t → fpVal f (fpAdd f a b) = .nan ∧ fpSub f a b = fpInf f s) ∧
    fpMul f a b = fpInf f (s != t) ∧ fpVal f (fpDiv f a b) = .nan := by
  simp only [fpAdd, fpSub, fpMul, fpDiv, ha, hb, negVal, addVals, fpVal_nanW, and_true]
  cases s <;> cases t <;> simp

theorem comparisons_inf_inf (ha : fpVal f a = .inf s) (hb : fpVal f b = .inf t) :
    (fpLt f a b = true ↔ s = true ∧ t = false) ∧ (fpLe f a b = true ↔ s = true ∨ t = false) ∧
    (fpEq f a b = true ↔ s = t) := by
  simp only [fpLe, fpLt, fpEq, ha, hb, valLt, valEq]
  cases s <;> cases t <;> simp

theorem operations_inf_fin (ha : fpVal f a = .inf s) (hb : fpVal f b = .fin t k) :
    fpAdd f a b = fpInf f s ∧ fpSub f a b = fpInf f s ∧ fpDiv f a b = fpInf f (s != t) ∧
    (k ≠ 0 → fpMul f a b = fpInf f (s != t)) ∧ (k = 0 → fpVal f (fpMul f a b) = .nan) := by
  simp only [fpAdd, fpSub, fpMul, fpDiv, ha, hb, negVal, addVals, true_and]
  exact ⟨fun hk => if_neg hk, fun hk => by rw [if_pos hk, fpVal_nanW]⟩

theorem comparisons_inf_fin (ha : fpVal f a = .inf s) (hb : fpVal f b = .fin t k) :
    fpLt f a b = s ∧ fpLe f a b = s ∧ fpEq f a b = false := by
  simp [fpLe, fpLt, fpEq, ha, hb, valLt, valEq]

theorem operations_fin_inf (ha : fpVal f a = .fin s j) (hb : fpVal f b = .inf t) :
    fpAdd f a b = fpInf f t ∧ fpSub f a b = fpInf f (!t) ∧ fpDiv f a b = withSign f (s != t) 0 ∧
    (j ≠ 0 → fpMul f a b = fpInf f (s != t)) ∧ (j = 0 → fpVal f (fpMul f a b) = .nan) := by
  simp only [fpAdd, fpSub, fpMul, fpDiv, ha, hb, negVal, addVals, true_and]
  exact ⟨fun hj => if_neg hj, fun hj => by rw [if_pos hj, fpVal_nanW]⟩

theorem comparisons_fin_inf (ha : fpVal f a = .fin s j) (hb : fpVal f b = .inf t) :
    fpLt f a b = !t ∧ fpLe f a b = !t ∧ fpEq f a b = false := by
  simp [fpLe, fpLt, fpEq, ha, hb, valLt, valEq]

end

/-! Conversions. -/

theorem toW_binary32_fin {v : Word} {s : Bool} {k : Nat} (h : fpVal .binary64 v = .fin s k) :
    toW .binary32 v = roundW .binary32 s k (2 ^ 925) := by
  simp only [toW, h, quantum]

theorem toW_binary32_inf {v : Word} {s : Bool} (h : fpVal .binary64 v = .inf s) :
    toW .binary32 v = fpInf .binary32 s := by
  simp only [toW, h]

theorem toW_binary32_nan {v : Word} (h : fpVal .binary64 v = .nan) : fpVal .binary32 (toW .binary32 v) = .nan := by
  simp only [toW, h, fpVal_nanW]

theorem to64_binary32_fin {v : Sample} {s : Bool} {k : Nat} (h : fpVal .binary32 v = .fin s k) :
    to64 .binary32 v = roundW .binary64 s (k * 2 ^ 925) 1 := by
  simp only [to64, h, quantum]

theorem to64_binary32_inf {v : Sample} {s : Bool} (h : fpVal .binary32 v = .inf s) :
    to64 .binary32 v = fpInf .binary64 s := by
  simp only [to64, h]

/-- A number of quanta of binary32 is one of binary64, in that format's finer quanta. -/
theorem isQuanta_binary64_of_binary32 {k : Nat} (h : IsQuanta .binary32 k) : IsQuanta .binary64 (k * 2 ^ 925) := by
  obtain ⟨m, x, hm, hx, rfl⟩ := h
  have hm' : m < 2 ^ 24 := hm
  have hx' : x ≤ 253 := hx
  refine ⟨m, x + 925, show m < 2 ^ 53 by omega, show x + 925 ≤ 2045 by omega, ?_⟩
  rw [pow_add, Nat.mul_assoc]

theorem fpVal_to64_fin {v : Sample} {s : Bool} {k : Nat} (h : fpVal .binary32 v = .fin s k) :
    fpVal .binary64 (to64 .binary32 v) = .fin s (k * 2 ^ 925) := by
  rw [to64_binary32_fin h, fpVal_roundW_of_isQuanta (isQuanta_binary64_of_binary32 (isQuanta_of_fpVal h))]

theorem fpVal_to64_inf {v : Sample} {s : Bool} (h : fpVal .binary32 v = .inf s) :
    fpVal .binary64 (to64 .binary32 v) = .inf s := by
  rw [to64_binary32_inf h, fpVal_fpInf]

/-- Widening loses nothing: narrowing takes it back to the same bits. -/
theorem toW_to64 {v : Sample} (hv : v.toNat < 2 ^ 32) (h : fpVal .binary32 v ≠ .nan) :
    toW .binary32 (to64 .binary32 v) = v := by
  have henc : withSign .binary32 (signOf .binary32 v) (magOf .binary32 v) = v := withSign_signOf_magOf hv
  cases hval : fpVal .binary32 v with
  | nan => exact absurd hval h
  | inf s =>
    obtain ⟨hmag, hs⟩ := fpVal_eq_inf hval
    rw [toW_binary32_inf (fpVal_to64_inf hval), ← henc, hmag, hs]
    rfl
  | fin s k =>
    obtain ⟨hmag, hs, hk⟩ := fpVal_eq_fin hval
    rw [toW_binary32_fin (fpVal_to64_fin hval), roundW, roundMag_mul_self _ _ (Nat.two_pow_pos _), ← hk,
      roundMag_quantaOf hmag, ← hs, henc]

/-! Sine and cosine. -/

/-- What is kept to [-1, 1] is in it. -/
theorem inUnitRange_mem (f : Fmt) (v : Sample) :
    fpLe f (fpNeg f (oneW f)) (inUnitRange f v) = true ∧ fpLe f (inUnitRange f v) (oneW f) = true := by
  unfold inUnitRange
  split_ifs with h
  · exact Bool.and_eq_true_iff.1 h
  · cases f <;> decide +kernel

theorem oneW_mem (f : Fmt) : fpLe f (fpNeg f (oneW f)) (oneW f) = true ∧ fpLe f (oneW f) (oneW f) = true := by
  cases f <;> decide +kernel

theorem posZero_mem (f : Fmt) : fpLe f (fpNeg f (oneW f)) posZero = true ∧ fpLe f posZero (oneW f) = true := by
  cases f <;> decide +kernel

theorem trigAnswer_mem (t : TrigMode) (f : Fmt) (rounded : Option Sample) (drawn : Sample) :
    fpLe f (fpNeg f (oneW f)) (trigAnswer t f rounded drawn) = true ∧
    fpLe f (trigAnswer t f rounded drawn) (oneW f) = true := by
  cases t <;> exact inUnitRange_mem f _

theorem isFinite_iff {f : Fmt} {x : Sample} : isFinite f x = true ↔ ∃ s k, fpVal f x = .fin s k := by
  unfold isFinite
  cases fpVal f x <;> simp

theorem sinW_mem {f : Fmt} {x : Sample} (t : TrigMode) (h : isFinite f x = true) :
    fpLe f (fpNeg f (oneW f)) (sinW t f x) = true ∧ fpLe f (sinW t f x) (oneW f) = true := by
  obtain ⟨s, k, hx⟩ := isFinite_iff.1 h
  simp only [sinW, hx]
  split_ifs
  · exact posZero_mem f
  · exact trigAnswer_mem t f _ _

theorem cosW_mem {f : Fmt} {x : Sample} (t : TrigMode) (h : isFinite f x = true) :
    fpLe f (fpNeg f (oneW f)) (cosW t f x) = true ∧ fpLe f (cosW t f x) (oneW f) = true := by
  obtain ⟨s, k, hx⟩ := isFinite_iff.1 h
  simp only [cosW, hx]
  split_ifs
  · exact oneW_mem f
  · exact trigAnswer_mem t f _ _

theorem trig_nan {f : Fmt} {x : Sample} (t : TrigMode) (h : isFinite f x = false) :
    fpVal f (sinW t f x) = .nan ∧ fpVal f (cosW t f x) = .nan := by
  unfold sinW cosW
  cases hx : fpVal f x with
  | fin s k => rw [isFinite_iff.2 ⟨s, k, hx⟩] at h; cases h
  | nan => exact ⟨fpVal_nanW f _ _ _, fpVal_nanW f _ _ _⟩
  | inf s => exact ⟨fpVal_nanW f _ _ _, fpVal_nanW f _ _ _⟩

end Sys2Proof.Machine
end

section
/-! PROOF. The obligations of 00_scope.md. -/

namespace Sys2Proof.Machine

open Sys2Proof

/-- A rounding that does not overflow is the nearest value, and even where another is as near (00_scope.md R12). -/
theorem roundW_nearest {f : Fmt} {num den : Nat} (hden : 0 < den) (h : num < den * overflowQuanta f) (neg : Bool) :
    ∃ k, fpVal f (roundW f neg num den) = .fin neg k ∧
      ∀ (w : Sample) (neg' : Bool) (k' : Nat), fpVal f w = .fin neg' k' →
        ((num : Int) - k * den).natAbs ≤ ((num : Int) - k' * den).natAbs ∧
        (k' ≠ k → ((num : Int) - k * den).natAbs = ((num : Int) - k' * den).natAbs →
          (roundW f neg num den).toNat % 2 = 0) := by
  obtain ⟨x, m, hr⟩ := exists_rounding f num hden
  have hfin := (hr.lt_infMag_iff hden).2 h
  refine ⟨m * 2 ^ x, hr.fpVal_roundW hfin neg, fun w neg' k' hw => ?_⟩
  obtain ⟨hle, htie⟩ := hr.nearest_value hden (isQuanta_of_fpVal hw)
  exact ⟨hle, fun hne heq => hr.encoding_even hfin neg (htie hne heq)⟩

/-- Settles O24: the rounding lemmas, then each operation by the kinds of its operands. -/
theorem roundingIsNearestTiesToEven : Obligations.RoundingIsNearestTiesToEven := by
  refine ⟨fun f neg num den hden => ⟨fun h => roundW_eq_fpInf hden h neg, fun h => roundW_nearest hden h neg⟩,
    fun f a b => ⟨fun h => ?_, fun s j t k ha hb => ?_, fun s t ha hb => ?_, fun s t k ha hb => ?_, fun s j t ha hb => ?_⟩,
    fun f n => rfl, fun v => ⟨fun s k => toW_binary32_fin, fun s => toW_binary32_inf, toW_binary32_nan⟩⟩
  · obtain ⟨hadd, hsub, hmul, hdiv, -⟩ := operations_of_nan h
    exact ⟨hadd, hsub, hmul, hdiv, comparisons_of_nan h⟩
  · obtain ⟨hdiv, hdivZero, hzeroDivZero⟩ := fpDiv_fin ha hb
    exact ⟨fpAdd_fin ha hb, fpSub_fin ha hb, fpMul_fin ha hb, hdiv, hdivZero, hzeroDivZero, comparisons_fin ha hb⟩
  · obtain ⟨hsame, hopp, hmul, hdiv⟩ := operations_inf_inf ha hb
    exact ⟨hsame, hopp, hmul, hdiv, comparisons_inf_inf ha hb⟩
  · obtain ⟨hadd, hsub, hdiv, hmul, hmulZero⟩ := operations_inf_fin ha hb
    exact ⟨hadd, hsub, hdiv, hmul, hmulZero, comparisons_inf_fin ha hb⟩
  · obtain ⟨hadd, hsub, hdiv, hmul, hmulZero⟩ := operations_fin_inf ha hb
    exact ⟨hadd, hsub, hdiv, hmul, hmulZero, comparisons_fin_inf ha hb⟩

/-- The remainder of finite values is itself a value of the format, so rounding leaves it as it is (00_scope.md R10). -/
theorem fpVal_fpMod_fin {f : Fmt} {a b : Sample} {s t : Bool} {j k : Nat} (ha : fpVal f a = .fin s j)
    (hb : fpVal f b = .fin t k) (hk : k ≠ 0) : fpVal f (fpMod f a b) = .fin s (j % k) := by
  simp only [fpMod, ha, hb, if_neg hk]
  exact fpVal_roundW_of_isQuanta ((isQuanta_of_fpVal ha).mod (isQuanta_of_fpVal hb) hk) s

/-- Settles O25: a finite remainder is a value of the format (`IsQuanta.mod`), so its rounding is exact. -/
theorem fmodIsExact : Obligations.FmodIsExact := by
  refine fun f a b => ⟨fun s j t k ha hb => ⟨fpVal_fpMod_fin ha hb, fun hk => ?_⟩, fun s j t ha hb => ?_, fun s ha => ?_,
    fun h => ?_⟩
  · simp only [fpMod, ha, hb, if_pos hk, fpVal_nanW]
  · simp only [fpMod, ha, hb]
  · simp only [fpMod, ha, fpVal_nanW]
  · obtain ⟨-, -, -, -, hmod⟩ := operations_of_nan h
    exact hmod

/-- Settles O26: binary32 values are binary64 values, and narrowing rounds the same ratio again (`toW_to64`). -/
theorem conversionsRoundTrip : Obligations.ConversionsRoundTrip :=
  ⟨fun _ => ⟨rfl, rfl⟩, fun _ hv => ⟨fun _ _ => fpVal_to64_fin, fun _ => fpVal_to64_inf, toW_to64 hv⟩⟩

/-- Settles O27: `inUnitRange` keeps the answer in [-1, 1] whatever is computed or drawn. -/
theorem sineAndCosineProperties : Obligations.SineAndCosineProperties := by
  refine fun t f => ⟨?_, ?_, fun x => ⟨fun h => ⟨sinW_mem t h, cosW_mem t h⟩, trig_nan t⟩⟩
  · simp [sinW]
  · simp [cosW]

end Sys2Proof.Machine
end

section
/-! PROOF. What a legal command does where it passes its checks, one rule per command, and the errors it can raise
(40_command_common.md R101 to R103, 60_exceptions.md R241). -/

namespace Sys2Proof.Machine

open Sys2Proof

/-- The state a command leaves where it passes the common checks and its own. -/
inductive Effect (s : State) : Instr → State → Prop
  | prepare {us : Units} (hsr : finitePos .binary64 s.arg0 = true)
      (hsrW : finitePos s.params.fmt (toW s.params.fmt s.arg0) = true)
      (hmbs : 1 ≤ u64 s.arg1 ∧ u64 s.arg1 ≤ s.params.maxBlock)
      (hus : prepareUnits s.params s.arg0 (toW s.params.fmt s.arg0) = .ok us) :
      Effect s .prepare (commitPrepare s s.arg0 (toW s.params.fmt s.arg0) (u64 s.arg1) us)
  | processBlock (hbs : u64 s.arg0 ≤ s.maxBlk) : Effect s .processBlock (blockResult s (u64 s.arg0))
  | oscSetFreq {u : BitVec 8} {fW incW : Sample} (hfreq : oscFrequency s.params.fmt s.srW s.arg0 u = .ok (fW, incW)) :
      Effect s (.oscSetFreq u) (setOsc s u.toNat { oscAt s u.toNat with f := fW, inc := incW })
  | oscSetWave {u : BitVec 8} {imm : BitVec 16} {w : Waveform} (hwave : waveOfCode imm = some w) :
      Effect s (.oscSetWave u imm) (setOsc s u.toNat { oscAt s u.toNat with wave := w })
  | oscNext {u : BitVec 8} :
      Effect s (.oscNext u)
        (setResult (setOsc s u.toNat (oscStep s.params (oscAt s u.toNat)).2) (oscStep s.params (oscAt s u.toNat)).1)
  | fltSetParams {u : BitVec 8} {fcW qW : Sample} {c : Coefs}
      (hparams : fltParams s.params s.srW s.arg0 s.arg1 u = .ok (fcW, qW, c)) :
      Effect s (.fltSetParams u) (setFlt s u.toNat (withCoefs (fltAt s u.toNat) fcW qW c))
  | fltProcess {u : BitVec 8} :
      Effect s (.fltProcess u)
        (setResult (setFlt s u.toNat (fltStep s.params.fmt (fltAt s u.toNat) (sampleArg s.params s.arg0)).2)
          (fltStep s.params.fmt (fltAt s u.toNat) (sampleArg s.params s.arg0)).1)
  | fltReset {u : BitVec 8} : Effect s (.fltReset u) (setFlt s u.toNat (clearHistory (fltAt s u.toNat)))
  | envSetParams {u : BitVec 8} {q : EnvParams}
      (hparams : envParams s.params.fmt s.sr64 s.arg0 s.arg1 s.arg2 s.arg3 u = .ok q) :
      Effect s (.envSetParams u) (setEnv s u.toNat (withEnvParams (envAt s u.toNat) q))
  | envNoteOn {u : BitVec 8} : Effect s (.envNoteOn u) (setEnv s u.toNat (enterAttack s.params (envAt s u.toNat)))
  | envNoteOff {u : BitVec 8} : Effect s (.envNoteOff u) (setEnv s u.toNat (noteOff (envAt s u.toNat)))
  | envNext {u : BitVec 8} :
      Effect s (.envNext u)
        (setResult (setEnv s u.toNat (envStep s.params.fmt (envAt s u.toNat)).2) (envStep s.params.fmt (envAt s u.toNat)).1)
  | dlySetDelay {u : BitVec 8} (hn : 1 ≤ u64 s.arg0 ∧ u64 s.arg0 ≤ (dlyAt s u.toNat).c) :
      Effect s (.dlySetDelay u) (setDly s u.toNat (withDelay (dlyAt s u.toNat) (u64 s.arg0)))
  | dlySetFeedback {u : BitVec 8} {gW : Sample} (hgain : feedbackGain s.params.fmt s.arg0 u = .ok gW) :
      Effect s (.dlySetFeedback u) (setDly s u.toNat { dlyAt s u.toNat with g := gW })
  | dlyProcess {u : BitVec 8} :
      Effect s (.dlyProcess u)
        (setResult (setDly s u.toNat (dlyStep s.params.fmt (dlyAt s u.toNat) (sampleArg s.params s.arg0)).2)
          (dlyStep s.params.fmt (dlyAt s u.toNat) (sampleArg s.params s.arg0)).1)
  | dlyReset {u : BitVec 8} : Effect s (.dlyReset u) (setDly s u.toNat (clearLine (dlyAt s u.toNat)))

/-- A code that an error records: neither "no error" nor the reserved `PRG_MIX_LENGTH` (60_exceptions.md R241). -/
def RaisedCode (c : ErrCode) : Prop := c ≠ .noError ∧ c ≠ .prgMixLength

/-! The errors of the checks. -/

theorem oscFrequency_error {f : Fmt} {srW : Sample} {freq : Word} {u : BitVec 8} {e : CmdError}
    (h : oscFrequency f srW freq u = .error e) : RaisedCode e.code := by
  simp only [oscFrequency] at h
  split_ifs at h
  cases h; simp [RaisedCode]

theorem fltParams_error {p : Params} {srW : Sample} {cutoff q : Word} {u : BitVec 8} {e : CmdError}
    (h : fltParams p srW cutoff q u = .error e) : RaisedCode e.code := by
  simp only [fltParams, fltCheck] at h
  split_ifs at h <;> cases h <;> simp [RaisedCode]

theorem durSamples_error {sr64 sec : Word} {u : BitVec 8} {e : CmdError} (h : durSamples sr64 sec u = .error e) :
    RaisedCode e.code := by
  cases hok : (durSamples sr64 sec 0#8).isOk with
  | true => obtain ⟨n, hn⟩ := (durSamples_check sr64 sec u).1 hok; rw [hn] at h; cases h
  | false => rw [(durSamples_check sr64 sec u).2 hok] at h; cases h; simp [RaisedCode]

theorem sustainLevel_error {f : Fmt} {v : Word} {u : BitVec 8} {e : CmdError} (h : sustainLevel f v u = .error e) :
    RaisedCode e.code := by
  simp only [sustainLevel] at h
  split_ifs at h
  cases h; simp [RaisedCode]

theorem envParams_error {f : Fmt} {sr64 a d s r : Word} {u : BitVec 8} {e : CmdError}
    (h : envParams f sr64 a d s r u = .error e) : RaisedCode e.code := by
  unfold envParams at h
  split at h
  · next he => cases h; exact durSamples_error he
  · split at h
    · next he => cases h; exact durSamples_error he
    · split at h
      · next he => cases h; exact sustainLevel_error he
      · split at h
        · next he => cases h; exact durSamples_error he
        · cases h

theorem dlyCap_error {m : Nat} {sr64 sec : Word} {u : BitVec 8} {e : CmdError} (h : dlyCap m sr64 sec u = .error e) :
    RaisedCode e.code := by
  cases hok : (dlyCap m sr64 sec 0#8).isOk with
  | true => obtain ⟨n, hn⟩ := (dlyCap_check m sr64 sec u).1 hok; rw [hn] at h; cases h
  | false => rw [(dlyCap_check m sr64 sec u).2 hok] at h; cases h; simp [RaisedCode]

theorem feedbackGain_error {f : Fmt} {v : Word} {u : BitVec 8} {e : CmdError} (h : feedbackGain f v u = .error e) :
    RaisedCode e.code := by
  simp only [feedbackGain] at h
  split_ifs at h
  cases h; simp [RaisedCode]

/-- An error of a run over the init records is the error of one record's check. -/
theorem checkEach_error {α β : Type} {check : BitVec 8 → α → Except CmdError β} {rs : List α} :
    ∀ {u : Nat} {e : CmdError}, checkEach check u rs = .error e → ∃ v r, check v r = .error e := by
  induction rs with
  | nil => intro u e h; cases h
  | cons r rest ih =>
    intro u e h
    simp only [checkEach] at h
    split at h
    · next he => cases h; exact ⟨_, _, he⟩
    · split at h
      · next he => cases h; exact ih he
      · cases h

theorem initOsc_error {p : Params} {srW : Sample} {u : BitVec 8} {r : OscInit} {e : CmdError}
    (h : initOsc p srW u r = .error e) : RaisedCode e.code := by
  unfold initOsc at h
  split at h
  · next he => cases h; exact oscFrequency_error he
  · cases h

theorem initFlt_error {p : Params} {srW : Sample} {u : BitVec 8} {r : FltInit} {e : CmdError}
    (h : initFlt p srW u r = .error e) : RaisedCode e.code := by
  unfold initFlt at h
  split at h
  · next he => cases h; exact fltParams_error he
  · cases h

theorem initEnv_error {p : Params} {sr64 : Word} {u : BitVec 8} {r : EnvInit} {e : CmdError}
    (h : initEnv p sr64 u r = .error e) : RaisedCode e.code := by
  unfold initEnv at h
  split at h
  · next he => cases h; exact envParams_error he
  · cases h

theorem initDly_error {p : Params} {sr64 : Word} {u : BitVec 8} {r : DlyInit} {e : CmdError}
    (h : initDly p sr64 u r = .error e) : RaisedCode e.code := by
  unfold initDly at h
  split at h
  · next he => cases h; exact dlyCap_error he
  · split at h
    · next he => cases h; exact feedbackGain_error he
    · cases h

theorem prepareUnits_error {p : Params} {sr64 : Word} {srW : Sample} {e : CmdError}
    (h : prepareUnits p sr64 srW = .error e) : RaisedCode e.code := by
  unfold prepareUnits at h
  split at h
  · next he => cases h; obtain ⟨_, _, hr⟩ := checkEach_error he; exact initOsc_error hr
  · split at h
    · next he => cases h; obtain ⟨_, _, hr⟩ := checkEach_error he; exact initFlt_error hr
    · split at h
      · next he => cases h; obtain ⟨_, _, hr⟩ := checkEach_error he; exact initEnv_error hr
      · split at h
        · next he => cases h; obtain ⟨_, _, hr⟩ := checkEach_error he; exact initDly_error hr
        · cases h

/-- The units PREPARE builds are the results of its four runs over the init records. -/
theorem prepareUnits_ok {p : Params} {sr64 : Word} {srW : Sample} {us : Units} (h : prepareUnits p sr64 srW = .ok us) :
    checkEach (initOsc p srW) 0 p.graph.oscInit = .ok us.osc ∧ checkEach (initFlt p srW) 0 p.graph.fltInit = .ok us.flt ∧
    checkEach (initEnv p sr64) 0 p.graph.envInit = .ok us.env ∧ checkEach (initDly p sr64) 0 p.graph.dlyInit = .ok us.dly := by
  unfold prepareUnits at h
  split at h
  · cases h
  · next osc hosc =>
    split at h
    · cases h
    · next flt hflt =>
      split at h
      · cases h
      · next env henv =>
        split at h
        · cases h
        · next dly hdly => cases h; exact ⟨hosc, hflt, henv, hdly⟩

theorem commonChecks_error {s : State} {i : Instr} {e : CmdError} (h : commonChecks s i = .error e) :
    RaisedCode e.code := by
  unfold commonChecks at h
  split_ifs at h <;> cases h <;> simp [RaisedCode]

/-- A command other than PREPARE passes the common checks in a prepared core only (40_command_common.md R102). -/
theorem prepared_of_commonChecks {s : State} {i : Instr} (h : commonChecks s i = .ok ()) (hi : i ≠ .prepare) :
    s.status.prepared = true := by
  unfold commonChecks at h
  split_ifs at h with hp
  simpa [isPrepare, hi] using hp

/-! Every command by its rule. -/

/-- A body answers as a command may: an error with a code that can be raised, or the command's effect. -/
def Answers (s : State) (i : Instr) : Except CmdError State → Prop
  | .error e => RaisedCode e.code
  | .ok t => Effect s i t

@[simp] theorem answers_error (s : State) (i : Instr) (e : CmdError) : Answers s i (.error e) ↔ RaisedCode e.code := .rfl
@[simp] theorem answers_ok (s : State) (i : Instr) (t : State) : Answers s i (.ok t) ↔ Effect s i t := .rfl

theorem prepareBody_answers (s : State) : Answers s .prepare (prepareBody s) := by
  simp only [prepareBody, f64]
  by_cases hsr : finitePos .binary64 s.arg0 = true
  · by_cases hsrW : finitePos s.params.fmt (toW s.params.fmt s.arg0) = true
    · by_cases hmbs : 1 ≤ u64 s.arg1 ∧ u64 s.arg1 ≤ s.params.maxBlock
      · cases hus : prepareUnits s.params s.arg0 (toW s.params.fmt s.arg0) with
        | error e => simpa [hsr, hsrW, hmbs, hus] using prepareUnits_error hus
        | ok us => simpa [hsr, hsrW, hmbs, hus] using Effect.prepare hsr hsrW hmbs hus
      · simp [hsr, hsrW, hmbs, RaisedCode]
    · simp [hsr, hsrW, RaisedCode]
  · simp [hsr, RaisedCode]

/-- Everything the execution of a legal word can do: nothing, an error, or the command's effect, which only PREPARE has in an
unprepared core. -/
inductive Executes (s : State) (i : Instr) (t : State) : Prop
  | ignored (h : t = s)
  | error {e : CmdError} (hcode : RaisedCode e.code) (h : t = errorEntry e (encode i) (isPrepare i) s)
  | effect (hprepared : i ≠ .prepare → s.status.prepared = true) (h : Effect s i t)

theorem executes_of_runCommand {i : Instr} {body : State → Except CmdError State} {s t : State}
    (hbody : Answers s i (body s)) (h : runCommand i body s = .next t) : Executes s i t := by
  rcases runCommand_next h with ⟨-, rfl⟩ | ⟨-, e, hc | ⟨-, hb⟩, rfl⟩ | ⟨-, hc, hb⟩
  · exact .ignored rfl
  · exact .error (commonChecks_error hc) rfl
  · rw [hb] at hbody; exact .error hbody rfl
  · rw [hb] at hbody; exact .effect (prepared_of_commonChecks hc) hbody

theorem exec_next {i : Instr} {s t : State} (h : exec i s = .next t) : Executes s i t := by
  cases i with
  | prepare => exact executes_of_runCommand (prepareBody_answers s) h
  | processBlock =>
    unfold exec execProcessBlock at h
    refine executes_of_runCommand ?_ h
    split_ifs with hbs
    · simp [RaisedCode]
    · exact .processBlock (not_lt.1 hbs)
  | oscSetFreq u =>
    unfold exec execOscSetFreq at h
    refine executes_of_runCommand ?_ h
    cases hfreq : oscFrequency s.params.fmt s.srW s.arg0 u with
    | error e => exact oscFrequency_error hfreq
    | ok r => exact .oscSetFreq hfreq
  | oscSetWave u imm =>
    unfold exec execOscSetWave at h
    refine executes_of_runCommand ?_ h
    cases hwave : waveOfCode imm with
    | none => simp [RaisedCode]
    | some w => exact .oscSetWave hwave
  | oscNext u =>
    unfold exec execOscNext at h
    exact executes_of_runCommand (by exact Effect.oscNext) h
  | fltSetParams u =>
    unfold exec execFltSetParams at h
    refine executes_of_runCommand ?_ h
    cases hparams : fltParams s.params s.srW s.arg0 s.arg1 u with
    | error e => exact fltParams_error hparams
    | ok r => exact .fltSetParams hparams
  | fltProcess u =>
    unfold exec execFltProcess at h
    exact executes_of_runCommand (by exact Effect.fltProcess) h
  | fltReset u =>
    unfold exec execFltReset at h
    exact executes_of_runCommand (by exact Effect.fltReset) h
  | envSetParams u =>
    unfold exec execEnvSetParams at h
    refine executes_of_runCommand ?_ h
    cases hparams : envParams s.params.fmt s.sr64 s.arg0 s.arg1 s.arg2 s.arg3 u with
    | error e => exact envParams_error hparams
    | ok q => exact .envSetParams hparams
  | envNoteOn u =>
    unfold exec execEnvNoteOn at h
    exact executes_of_runCommand (by exact Effect.envNoteOn) h
  | envNoteOff u =>
    unfold exec execEnvNoteOff at h
    exact executes_of_runCommand (by exact Effect.envNoteOff) h
  | envNext u =>
    unfold exec execEnvNext at h
    exact executes_of_runCommand (by exact Effect.envNext) h
  | dlySetDelay u =>
    unfold exec execDlySetDelay at h
    refine executes_of_runCommand ?_ h
    dsimp only
    split_ifs with hn
    · exact .dlySetDelay hn
    · simp [RaisedCode]
  | dlySetFeedback u =>
    unfold exec execDlySetFeedback at h
    refine executes_of_runCommand ?_ h
    cases hgain : feedbackGain s.params.fmt s.arg0 u with
    | error e => exact feedbackGain_error hgain
    | ok gW => exact .dlySetFeedback hgain
  | dlyProcess u =>
    unfold exec execDlyProcess at h
    exact executes_of_runCommand (by exact Effect.dlyProcess) h
  | dlyReset u =>
    unfold exec execDlyReset at h
    exact executes_of_runCommand (by exact Effect.dlyReset) h

end Sys2Proof.Machine
end

section
/-! PROOF. What PROCESS_BLOCK's run and a step keep: a property that each unit's block, each error and each command's effect keeps
(45_graph.md R224, 40_command_common.md R100). -/

namespace Sys2Proof.Machine

open Sys2Proof

/-- What holds of a unit and is kept by one sample holds after any number of samples. -/
theorem runSamples_keeps {σ : Type} {step : σ → Sample → Sample × σ} {Q : σ → Prop}
    (hstep : ∀ st x, Q st → Q (step st x).2) (xs : List Sample) : ∀ {st : σ}, Q st → Q (runSamples step st xs).2 := by
  induction xs with
  | nil => exact fun h => h
  | cons x xs ih => exact fun h => ih (hstep _ x h)

theorem mix_length_le (f : Fmt) (bs : Nat) (streams : List (Word × List Sample)) : (mix f bs streams).length ≤ bs := by
  unfold mix
  generalize hacc : List.replicate bs posZero = acc
  replace hacc : acc.length ≤ bs := by simp [← hacc]
  induction streams generalizing acc with
  | nil => exact hacc
  | cons gb streams ih => exact ih _ (by rw [List.length_zipWith]; omega)

theorem runSources_length (bs : Nat) (srcs : List Source) :
    ∀ s : State, ∀ gb ∈ (runSources bs s srcs).1, gb.2.length ≤ bs := by
  induction srcs with
  | nil => intro s gb h; simp [runSources] at h
  | cons src rest ih =>
    intro s gb h
    simp only [runSources, List.mem_cons] at h
    rcases h with rfl | h
    · exact (runSamples_length _ _ _).le.trans (by simp)
    · exact ih _ gb h

theorem runFilter_length (s : State) (name : Option Nat) (xs : List Sample) : (runFilter s name xs).1.length = xs.length := by
  cases name with
  | none => rfl
  | some u => simp only [runFilter, fltBlock, runSamples_length]

theorem runEnvelope_length (s : State) (name : Option Nat) (xs : List Sample) :
    (runEnvelope s name xs).1.length = xs.length := by
  cases name with
  | none => rfl
  | some u => simp only [runEnvelope, envBlock, runSamples_length]

theorem runDelay_length (s : State) (name : Option Nat) (xs : List Sample) : (runDelay s name xs).1.length = xs.length := by
  cases name with
  | none => rfl
  | some u => simp only [runDelay, dlyBlock, runSamples_length]

theorem runGraph_length_le (s : State) (bs : Nat) : (runGraph s bs).1.length ≤ bs :=
  (runDelay_length _ _ _).le.trans (mix_length_le _ _ _)

/-- A property of states that the block of each unit keeps, and the samples stored in the scratch buffers. -/
structure KeptByBlock (bs : Nat) (P : State → Prop) : Prop where
  osc : ∀ s u, P s → P (setOsc s u (oscBlock s.params (oscAt s u) bs).2)
  flt : ∀ s u xs, P s → P (setFlt s u (fltBlock s.params.fmt (fltAt s u) xs).2)
  env : ∀ s u xs, P s → P (setEnv s u (envBlock s.params.fmt (envAt s u) xs).2)
  dly : ∀ s u xs, P s → P (setDly s u (dlyBlock s.params.fmt (dlyAt s u) xs).2)
  scratch : ∀ s j srcs ys, (∀ xs ∈ srcs, xs.length ≤ bs) → ys.length ≤ bs → P s →
    P { s with scratch := storeGroup s.scratch j srcs ys }

section
variable {bs : Nat} {P : State → Prop}

theorem KeptByBlock.runSources (hP : KeptByBlock bs P) (srcs : List Source) :
    ∀ {s : State}, P s → P (runSources bs s srcs).2 := by
  induction srcs with
  | nil => exact fun h => h
  | cons src rest ih => exact fun h => ih (hP.osc _ src.osc h)

theorem KeptByBlock.runFilter (hP : KeptByBlock bs P) {s : State} (h : P s) (name : Option Nat) (xs : List Sample) :
    P (runFilter s name xs).2 := by
  cases name with
  | none => exact h
  | some u => exact hP.flt s u xs h

theorem KeptByBlock.runEnvelope (hP : KeptByBlock bs P) {s : State} (h : P s) (name : Option Nat) (xs : List Sample) :
    P (runEnvelope s name xs).2 := by
  cases name with
  | none => exact h
  | some u => exact hP.env s u xs h

theorem KeptByBlock.runDelay (hP : KeptByBlock bs P) {s : State} (h : P s) (name : Option Nat) (xs : List Sample) :
    P (runDelay s name xs).2 := by
  cases name with
  | none => exact h
  | some u => exact hP.dly s u xs h

theorem KeptByBlock.runGroup (hP : KeptByBlock bs P) {s : State} (h : P s) (j : Nat) (gr : Group) :
    P (runGroup bs j s gr).2 := by
  refine hP.scratch _ j _ _ (fun xs hxs => ?_) ?_ (hP.runEnvelope (hP.runFilter (hP.runSources gr.sources h) _ _) _ _)
  · obtain ⟨gb, hgb, rfl⟩ := List.mem_map.1 hxs
    exact runSources_length bs gr.sources s gb hgb
  · exact (runEnvelope_length _ _ _).le.trans ((runFilter_length _ _ _).le.trans (mix_length_le _ _ _))

theorem KeptByBlock.runGroups (hP : KeptByBlock bs P) (grs : List Group) :
    ∀ (j : Nat) {s : State}, P s → P (runGroups bs j s grs).2 := by
  induction grs with
  | nil => exact fun _ _ h => h
  | cons gr rest ih => exact fun j _ h => ih (j + 1) (hP.runGroup h j gr)

/-- What the block of each unit keeps, the run of the whole graph keeps. -/
theorem KeptByBlock.runGraph (hP : KeptByBlock bs P) {s : State} (h : P s) : P (runGraph s bs).2 :=
  hP.runDelay (hP.runGroups _ 0 h) _ _

end

/-- A state that differs from `s` in its units, its OUTBUF and its scratch buffers at most. -/
def SameRegisters (s t : State) : Prop :=
  ∃ osc flt env dly outbuf scratch,
    t = { s with osc := osc, flt := flt, env := env, dly := dly, outbuf := outbuf, scratch := scratch }

theorem sameRegisters_keptByBlock (s : State) (bs : Nat) : KeptByBlock bs (SameRegisters s) where
  osc := by rintro _ u ⟨_, _, _, _, _, _, rfl⟩; exact ⟨_, _, _, _, _, _, rfl⟩
  flt := by rintro _ u xs ⟨_, _, _, _, _, _, rfl⟩; exact ⟨_, _, _, _, _, _, rfl⟩
  env := by rintro _ u xs ⟨_, _, _, _, _, _, rfl⟩; exact ⟨_, _, _, _, _, _, rfl⟩
  dly := by rintro _ u xs ⟨_, _, _, _, _, _, rfl⟩; exact ⟨_, _, _, _, _, _, rfl⟩
  scratch := by rintro _ j srcs ys - - ⟨_, _, _, _, _, _, rfl⟩; exact ⟨_, _, _, _, _, _, rfl⟩

/-- PROCESS_BLOCK writes no register (45_graph.md R224). -/
theorem sameRegisters_blockResult (s : State) (bs : Nat) : SameRegisters s (blockResult s bs) := by
  obtain ⟨osc, flt, env, dly, outbuf, scratch, ht⟩ :=
    (sameRegisters_keptByBlock s bs).runGraph ⟨s.osc, s.flt, s.env, s.dly, s.outbuf, s.scratch, rfl⟩
  simp only [blockResult, ht]
  exact ⟨_, _, _, _, _, _, rfl⟩

/-- No error prepares a core. -/
theorem prepared_of_errorEntry {e : CmdError} {word : CmdWord} {b : Bool} {s : State}
    (h : (errorEntry e word b s).status.prepared = true) : s.status.prepared = true := by
  cases b
  · exact h
  · cases h

/-- What every error and every command's effect keeps, the execution of any word keeps. -/
theorem execute_keeps {P : State → Prop}
    (herror : ∀ s e word b, RaisedCode e.code → P s → P (errorEntry e word b s))
    (heffect : ∀ s i t, P s → (i ≠ .prepare → s.status.prepared = true) → Effect s i t → P t)
    {w : CmdWord} {s t : State} (hs : P s) (h : execute w s = .next t) : P t := by
  rcases execute_next h with ⟨-, -, rfl⟩ | ⟨i, -, h⟩
  · unfold illegalCommand
    split_ifs
    · exact hs
    · exact herror s _ w false (by simp [RaisedCode]) hs
  · cases exec_next h with
    | ignored h => exact h ▸ hs
    | error hcode h => exact h ▸ herror s _ _ _ hcode hs
    | effect hprepared h => exact heffect s i t hs hprepared h

/-- What the host's own writes, a power-on reset and the execution of any word keep, every step keeps. -/
theorem step_keeps {P : State → Prop}
    (hport : ∀ s a0 a1 a2 a3 d es, P s →
      P { s with arg0 := a0, arg1 := a1, arg2 := a2, arg3 := a3, readData := d, pending := es })
    (hreset : ∀ s, P s → P (State.powerOn s.params))
    (hexecute : ∀ w s t, P s → execute w s = .next t → P t)
    {s t : State} (hs : P s) (h : step s = .next t) : P t := by
  rcases step_next h with ⟨-, rfl⟩ | ⟨e, rest, -, h⟩
  · exact hs
  · have hs' : P { s with pending := rest } := hport s s.arg0 s.arg1 s.arg2 s.arg3 s.readData rest hs
    rcases takeEvent_next h with ⟨a, v, -, h⟩ | ⟨a, -, h⟩ | ⟨-, rfl⟩
    · rcases hostWrite_next h with ⟨-, h⟩ | ⟨-, rfl⟩ | ⟨-, rfl⟩ | ⟨-, rfl⟩ | ⟨-, rfl⟩ | rfl
      · exact hexecute _ _ t hs' h
      · exact hport s v s.arg1 s.arg2 s.arg3 s.readData rest hs
      · exact hport s s.arg0 v s.arg2 s.arg3 s.readData rest hs
      · exact hport s s.arg0 s.arg1 v s.arg3 s.readData rest hs
      · exact hport s s.arg0 s.arg1 s.arg2 v s.readData rest hs
      · exact hs'
    · obtain ⟨r, -, rfl⟩ := hostRead_next h
      exact hport s s.arg0 s.arg1 s.arg2 s.arg3 _ rest hs
    · exact hport _ 0#64 0#64 0#64 0#64 0#64 rest (hreset s hs)

end Sys2Proof.Machine
end

section
/-! PROOF. What each command leaves unchanged (10_state.md R44), and the obligations on registers, the host port and reset. -/

namespace Sys2Proof.Machine

open Sys2Proof

/-- The operand registers, the parameters and the model's own fields are those of `s`. -/
structure SameOperands (s t : State) : Prop where
  arg0 : t.arg0 = s.arg0
  arg1 : t.arg1 = s.arg1
  arg2 : t.arg2 = s.arg2
  arg3 : t.arg3 = s.arg3
  params : t.params = s.params
  readData : t.readData = s.readData
  pending : t.pending = s.pending

theorem Effect.sameOperands {s t : State} {i : Instr} (h : Effect s i t) : SameOperands s t := by
  cases h with
  | processBlock =>
    obtain ⟨_, _, _, _, _, _, h⟩ := sameRegisters_blockResult s (u64 s.arg0)
    rw [h]
    exact ⟨rfl, rfl, rfl, rfl, rfl, rfl, rfl⟩
  | _ => exact ⟨rfl, rfl, rfl, rfl, rfl, rfl, rfl⟩

/-- Settles O20: neither an error nor any command's effect writes them. -/
theorem commandsKeepOperandsAndParameters : Obligations.CommandsKeepOperandsAndParameters := by
  intro w s t h
  obtain ⟨h0, h1, h2, h3, hp, hd, hes⟩ : SameOperands s t :=
    execute_keeps (P := SameOperands s) (fun _ _ _ _ _ ⟨h0, h1, h2, h3, hp, hd, hes⟩ => ⟨h0, h1, h2, h3, hp, hd, hes⟩)
      (fun a i b ⟨h0, h1, h2, h3, hp, hd, hes⟩ _ heff =>
        have ⟨k0, k1, k2, k3, kp, kd, kes⟩ := heff.sameOperands
        ⟨k0.trans h0, k1.trans h1, k2.trans h2, k3.trans h3, kp.trans hp, kd.trans hd, kes.trans hes⟩)
      ⟨rfl, rfl, rfl, rfl, rfl, rfl, rfl⟩ h
  exact ⟨h0, h1, h2, h3, hp, hd, hes⟩

/-- Settles O21: each command's effect names what it writes; PROCESS_BLOCK keeps the registers. -/
theorem outputsAndGlobalsHaveOneWriter : Obligations.OutputsAndGlobalsHaveOneWriter := by
  intro i s t h
  cases exec_next h with
  | ignored h => subst h; exact ⟨fun _ => rfl, fun _ => ⟨rfl, rfl⟩, fun _ => ⟨rfl, rfl, rfl⟩⟩
  | error _ h => subst h; exact ⟨fun _ => rfl, fun _ => ⟨rfl, rfl⟩, fun _ => ⟨rfl, rfl, rfl⟩⟩
  | effect _ h =>
    cases h with
    | prepare => exact ⟨fun _ => rfl, fun _ => ⟨rfl, rfl⟩, fun h => absurd rfl h⟩
    | processBlock =>
      obtain ⟨_, _, _, _, _, _, h⟩ := sameRegisters_blockResult s (u64 s.arg0)
      rw [h]
      exact ⟨fun _ => rfl, fun h => absurd rfl h, fun _ => ⟨rfl, rfl, rfl⟩⟩
    | oscNext | fltProcess | envNext | dlyProcess =>
      exact ⟨fun h => by simp at h, fun _ => ⟨rfl, rfl⟩, fun _ => ⟨rfl, rfl, rfl⟩⟩
    | _ => exact ⟨fun _ => rfl, fun _ => ⟨rfl, rfl⟩, fun _ => ⟨rfl, rfl, rfl⟩⟩

/-- Settles O22: a unit command's effect replaces one entry of one list of units. -/
theorem unitCommandsTouchOneUnit : Obligations.UnitCommandsTouchOneUnit := by
  intro i k u s t htarget h
  cases exec_next h with
  | ignored h => subst h; exact ⟨fun _ _ => rfl, fun _ _ => rfl, fun _ _ => rfl, fun _ _ => rfl⟩
  | error _ h => subst h; exact ⟨fun _ _ => rfl, fun _ _ => rfl, fun _ _ => rfl, fun _ _ => rfl⟩
  | effect _ h =>
    cases h with
    | prepare | processBlock => cases htarget
    | oscSetFreq | oscSetWave | oscNext =>
      cases htarget
      exact ⟨fun _ hv => List.getElem?_set_ne (hv.resolve_left (· rfl)).symm, fun _ _ => rfl, fun _ _ => rfl, fun _ _ => rfl⟩
    | fltSetParams | fltProcess | fltReset =>
      cases htarget
      exact ⟨fun _ _ => rfl, fun _ hv => List.getElem?_set_ne (hv.resolve_left (· rfl)).symm, fun _ _ => rfl, fun _ _ => rfl⟩
    | envSetParams | envNoteOn | envNoteOff | envNext =>
      cases htarget
      exact ⟨fun _ _ => rfl, fun _ _ => rfl, fun _ hv => List.getElem?_set_ne (hv.resolve_left (· rfl)).symm, fun _ _ => rfl⟩
    | dlySetDelay | dlySetFeedback | dlyProcess | dlyReset =>
      cases htarget
      exact ⟨fun _ _ => rfl, fun _ _ => rfl, fun _ _ => rfl, fun _ hv => List.getElem?_set_ne (hv.resolve_left (· rfl)).symm⟩

/-- A filter's parameters and coefficients (10_state.md R33). -/
def filterSettings (x : FltUnit) : Sample × Sample × Sample × Sample × Sample × Sample × Sample :=
  (x.fc, x.q, x.b0, x.b1, x.b2, x.a1, x.a2)

/-- The filters of `t` have the settings of those of `s`. -/
def SameSettings (s t : State) : Prop := t.flt.map filterSettings = s.flt.map filterSettings

theorem sameSettings_setFlt {s t : State} (h : SameSettings s t) {u : Nat} {x : FltUnit}
    (hx : filterSettings x = filterSettings (fltAt t u)) : SameSettings s (setFlt t u x) := by
  have hset : (t.flt.set u x).map filterSettings = t.flt.map filterSettings := by
    rw [List.map_set, hx]
    refine List.ext_getElem? fun v => ?_
    rcases eq_or_ne u v with rfl | hv
    · rcases lt_or_ge u t.flt.length with hu | hu
      · simp [fltAt, hu]
      · simp [hu]
    · rw [List.getElem?_set_ne hv]
  exact hset.trans h

theorem filterSettings_fltBlock (f : Fmt) (x : FltUnit) (xs : List Sample) :
    filterSettings (fltBlock f x xs).2 = filterSettings x :=
  runSamples_keeps (Q := fun y => filterSettings y = filterSettings x) (fun _ _ h => h) xs rfl

theorem sameSettings_keptByBlock (s : State) (bs : Nat) : KeptByBlock bs (SameSettings s) where
  osc _ _ h := h
  flt _ _ _ h := sameSettings_setFlt h (filterSettings_fltBlock _ _ _)
  env _ _ _ h := h
  dly _ _ _ h := h
  scratch _ _ _ _ _ _ h := h

theorem Effect.sameSettings {s t : State} {i : Instr} (h : Effect s i t) (hprepare : i ≠ .prepare)
    (hset : ∀ u, i ≠ .fltSetParams u) : SameSettings s t := by
  cases h with
  | prepare => exact absurd rfl hprepare
  | fltSetParams => exact absurd rfl (hset _)
  | processBlock => exact (sameSettings_keptByBlock s (u64 s.arg0)).runGraph rfl
  | fltProcess => exact sameSettings_setFlt rfl rfl
  | fltReset => exact sameSettings_setFlt rfl rfl
  | _ => rfl

/-- Settles O37: FLT_PROCESS, FLT_RESET and a block's samples write a filter's history only. -/
theorem coefficientsChangeOnlyBySetting : Obligations.CoefficientsChangeOnlyBySetting := by
  intro i s t h hprepare hset v
  have hsame : SameSettings s t := by
    cases exec_next h with
    | ignored h => exact h ▸ rfl
    | error _ h => exact h ▸ rfl
    | effect _ h => exact h.sameSettings hprepare hset
  have hv : (t.flt.map filterSettings)[v]? = (s.flt.map filterSettings)[v]? := congrArg (·[v]?) hsame
  rw [List.getElem?_map, List.getElem?_map] at hv
  exact hv

/-! The host port and reset. -/

theorem hostWord_cmdAddr (p : Params) : hostWord p cmdAddr = some .cmd := rfl

/-- Settles O6: address 0 is `CMD`. -/
theorem stepRunsDecodedCommand : Obligations.StepRunsDecodedCommand := by
  intro s v rest i hpending hdecode
  simp only [step, hpending, takeEvent, hostWrite, hostWord_cmdAddr, execute, commandWord, hdecode]

/-- Settles O7: addresses 1 to 4 are the operand registers. -/
theorem hostWritesOneOperand : Obligations.HostWritesOneOperand := by
  intro s v rest
  refine ⟨fun h => ?_, fun h => ?_, fun h => ?_, fun h => ?_⟩ <;> simp only [step, h] <;> rfl

theorem statusWord_reset : statusWord Status.reset = 0#64 := by decide

/-- Settles O12: by the definition of the power-on state. -/
theorem powerOnResetClears : Obligations.PowerOnResetClears := by
  refine ⟨fun p => ⟨statusWord_reset, rfl, rfl, rfl, rfl, rfl, rfl⟩, rfl, fun s rest h => ?_⟩
  simp only [step, h, takeEvent]

end Sys2Proof.Machine
end

section
/-! PROOF. The fields of the registers the host reads as words (10_state.md R26 to R28). -/

namespace Sys2Proof.Machine

open Sys2Proof

theorem toNat_append_eq {m n : Nat} (a : BitVec m) (b : BitVec n) : (a ++ b).toNat = a.toNat * 2 ^ n + b.toNat := by
  rw [BitVec.toNat_append, ← Nat.shiftLeft_add_eq_or_of_lt b.isLt, Nat.shiftLeft_eq]

@[simp] theorem flagBit_toNat (b : Bool) : (flagBit b).toNat = b.toNat := by cases b <;> rfl

/-- `STATUS` as a number, each field at its place. -/
theorem statusWord_toNat (st : Status) :
    (statusWord st).toNat =
      st.prepared.toNat + 2 * st.fault.toNat + 2 ^ 8 * (errCodeByte st.errCode).toNat + 2 ^ 16 * st.errUnit.toNat := by
  change (0#40 ++ st.errUnit ++ errCodeByte st.errCode ++ 0#6 ++ flagBit st.fault ++ flagBit st.prepared).toNat = _
  simp only [toNat_append_eq, flagBit_toNat, BitVec.toNat_ofNat]
  omega

/-- `CONFIG` as a number, each field at its place; `wf` keeps the counts within their 8 bits. -/
theorem configWord_toNat {p : Params} (h : p.countsLegal = true) :
    (configWord p).toNat =
      p.nosc + 2 ^ 8 * p.nflt + 2 ^ 16 * p.nenv + 2 ^ 24 * p.ndly + 2 ^ 32 * (p.fmt == .binary64).toNat +
        2 ^ 33 * (p.sawMode == .raw).toNat + 2 ^ 34 * p.attackFromCurrent.toNat := by
  simp only [Params.countsLegal, Bool.and_eq_true, decide_eq_true_eq] at h
  change (0#29 ++ flagBit p.attackFromCurrent ++ flagBit (p.sawMode == .raw) ++ flagBit (p.fmt == .binary64)
    ++ BitVec.ofNat 8 p.ndly ++ BitVec.ofNat 8 p.nenv ++ BitVec.ofNat 8 p.nflt ++ BitVec.ofNat 8 p.nosc).toNat = _
  simp only [toNat_append_eq, flagBit_toNat, BitVec.toNat_ofNat]
  omega

theorem getLsbD_eq_of_toNat {n i : Nat} {w : BitVec n} {b : Bool} (h : w.toNat / 2 ^ i % 2 = b.toNat) :
    w.getLsbD i = b := by
  rw [BitVec.getLsbD, Nat.testBit_eq_decide_div_mod_eq, h]
  cases b <;> rfl

theorem toNat_extractLsb' {n : Nat} (w : BitVec n) (start len : Nat) :
    (w.extractLsb' start len).toNat = w.toNat / 2 ^ start % 2 ^ len := by
  rw [BitVec.extractLsb'_toNat, Nat.shiftRight_eq_div_pow]

theorem extractLsb'_eq_of_toNat {n start len : Nat} {w : BitVec n} {v : BitVec len}
    (h : w.toNat / 2 ^ start % 2 ^ len = v.toNat) : w.extractLsb' start len = v :=
  BitVec.eq_of_toNat_eq ((toNat_extractLsb' w start len).trans h)

theorem extractLsb'_eq_zero {n start len : Nat} {w : BitVec n} (h : w.toNat / 2 ^ start % 2 ^ len = 0) :
    w.extractLsb' start len = 0#len :=
  extractLsb'_eq_of_toNat (h.trans (by simp))

theorem statusWord_fields (st : Status) :
    (statusWord st).getLsbD 0 = st.prepared ∧ (statusWord st).getLsbD 1 = st.fault ∧
    (statusWord st).extractLsb' 2 6 = 0#6 ∧ (statusWord st).extractLsb' 8 8 = errCodeByte st.errCode ∧
    (statusWord st).extractLsb' 16 8 = st.errUnit ∧ (statusWord st).extractLsb' 24 40 = 0#40 := by
  have hw := statusWord_toNat st
  have hp := st.prepared.toNat_le
  have hf := st.fault.toNat_le
  have hc := (errCodeByte st.errCode).isLt
  have hu := st.errUnit.isLt
  exact ⟨getLsbD_eq_of_toNat (by omega), getLsbD_eq_of_toNat (by omega), extractLsb'_eq_zero (by omega),
    extractLsb'_eq_of_toNat (by omega), extractLsb'_eq_of_toNat (by omega), extractLsb'_eq_zero (by omega)⟩

theorem errCmdWord_fields (c : CmdWord) :
    (errCmdWord c).extractLsb' 0 32 = c ∧ (errCmdWord c).extractLsb' 32 32 = 0#32 := by
  have hw : (errCmdWord c).toNat = c.toNat := BitVec.toNat_setWidth_of_le (by decide)
  have hc := c.isLt
  exact ⟨extractLsb'_eq_of_toNat (by omega), extractLsb'_eq_zero (by omega)⟩

theorem configWord_fields {p : Params} (h : p.wf = true) :
    ((configWord p).extractLsb' 0 8).toNat = p.nosc ∧ ((configWord p).extractLsb' 8 8).toNat = p.nflt ∧
    ((configWord p).extractLsb' 16 8).toNat = p.nenv ∧ ((configWord p).extractLsb' 24 8).toNat = p.ndly ∧
    (configWord p).getLsbD 32 = (p.fmt == .binary64) ∧ (configWord p).getLsbD 33 = (p.sawMode == .raw) ∧
    (configWord p).getLsbD 34 = p.attackFromCurrent ∧ (configWord p).extractLsb' 35 29 = 0#29 := by
  simp only [Params.wf, Bool.and_eq_true] at h
  obtain ⟨⟨⟨⟨⟨hcounts, -⟩, -⟩, -⟩, -⟩, -⟩ := h
  have hw := configWord_toNat hcounts
  simp only [Params.countsLegal, Bool.and_eq_true, decide_eq_true_eq] at hcounts
  have hfmt := (p.fmt == .binary64).toNat_le
  have hsaw := (p.sawMode == .raw).toNat_le
  have hattack := p.attackFromCurrent.toNat_le
  simp only [toNat_extractLsb']
  exact ⟨by omega, by omega, by omega, by omega, getLsbD_eq_of_toNat (by omega), getLsbD_eq_of_toNat (by omega),
    getLsbD_eq_of_toNat (by omega), extractLsb'_eq_zero (by omega)⟩

/-- Settles O9: each word as a number, its fields at their places. -/
theorem registerFieldsAreInPlace : Obligations.RegisterFieldsAreInPlace := by
  refine ⟨statusWord_fields, errCmdWord_fields, fun p h => ?_⟩
  obtain ⟨hosc, hflt, henv, hdly, hfmt, hsaw, hattack, hzero⟩ := configWord_fields h
  exact ⟨hosc, hflt, henv, hdly, by rw [hfmt, beq_iff_eq], by rw [hsaw, beq_iff_eq], hattack, hzero⟩

end Sys2Proof.Machine
end

section
/-! PROOF. What each unit's operations keep of the invariant: memories, oscillators, envelopes, delay lines (10_state.md R31, R35,
R37; 20_memory.md R67). -/

namespace Sys2Proof.Machine

open Sys2Proof

/-- Replacing an entry of a list keeps what holds of every entry, where it holds of the new one if it did of the old. -/
theorem forall_mem_set {α : Type} {Q : α → Prop} {l : List α} {u : Nat} {d y : α} (h : ∀ x ∈ l, Q x)
    (hy : Q (l.getD u d) → Q y) : ∀ x ∈ l.set u y, Q x := by
  intro x hx
  rcases lt_or_ge u l.length with hu | hu
  · rcases List.mem_or_eq_of_mem_set hx with hx | rfl
    · exact h x hx
    · exact hy (h _ (by rw [List.getD_eq_getElem _ _ hu]; exact List.getElem_mem hu))
  · rw [List.set_eq_of_length_le hu] at hx
    exact h x hx

/-- A result of a run over the init records is the result of one record's check. -/
theorem mem_of_checkEach_ok {α β : Type} {check : BitVec 8 → α → Except CmdError β} {rs : List α} {n : Nat}
    {bs : List β} (h : checkEach check n rs = .ok bs) {b : β} (hb : b ∈ bs) : ∃ u r, check u r = .ok b := by
  obtain ⟨hlen, hall⟩ := checkEach_ok h
  obtain ⟨v, hv, rfl⟩ := List.getElem_of_mem hb
  obtain ⟨c, hc, hr⟩ := hall v _ (List.getElem?_eq_getElem (hlen ▸ hv))
  rw [List.getElem?_eq_getElem hv] at hc
  cases hc
  exact ⟨_, _, hr⟩

/-! Memories. -/

section
variable {sp : Space} {cap : Nat} {m : Mem}

theorem memOk_nil (sp : Space) (cap : Nat) : MemOk sp cap [] := ⟨rfl, by simp⟩

theorem MemOk.memWrite (h : MemOk sp cap m) {i : Nat} (hi : i < cap) (v : Word) : MemOk sp cap (memWrite sp m i v) where
  canonical := memWrite_wf h.canonical i v
  bounded e he := by
    rcases mem_memWrite he with rfl | he
    · exact hi
    · exact h.bounded e he

theorem MemOk.memWriteFrom (h : MemOk sp cap m) {vs : List Word} (hvs : vs.length ≤ cap) :
    MemOk sp cap (memWriteFrom sp m 0 vs) where
  canonical := memWriteFrom_wf vs 0 h.canonical
  bounded e he := by
    rcases mem_memWriteFrom vs he with he | he
    · omega
    · exact h.bounded e he

theorem MemOk.zeroBelow (h : MemOk sp cap m) (c : Nat) : MemOk sp cap (zeroBelow m c) where
  canonical := zeroBelow_wf h.canonical c
  bounded e he := h.bounded e (List.mem_of_mem_filter he)

theorem memOk_getD {ms : List Mem} (h : ∀ m ∈ ms, MemOk sp cap m) (j : Nat) : MemOk sp cap (ms.getD j []) := by
  rcases lt_or_ge j ms.length with hj | hj
  · rw [List.getD_eq_getElem _ _ hj]; exact h _ (List.getElem_mem hj)
  · rw [List.getD_eq_default _ _ hj]; exact memOk_nil sp cap

theorem memOk_fillBuffers {xss : List (List Sample)} (hlen : ∀ xs ∈ xss, xs.length ≤ cap) :
    ∀ {bufs : List Mem}, (∀ m ∈ bufs, MemOk .scratch cap m) → ∀ m ∈ fillBuffers bufs xss, MemOk .scratch cap m := by
  induction xss with
  | nil => exact fun h => h
  | cons xs xss ih =>
    intro bufs h m hm
    rw [fillBuffers, List.mem_cons] at hm
    rcases hm with rfl | hm
    · have hhead : MemOk .scratch cap (bufs.headD []) := by
        cases bufs with
        | nil => exact memOk_nil _ _
        | cons b bufs => exact h b List.mem_cons_self
      exact hhead.memWriteFrom (hlen xs List.mem_cons_self)
    · exact ih (fun ys hys => hlen ys (List.mem_cons_of_mem _ hys)) (fun b hb => h b (List.mem_of_mem_tail hb)) m hm

end

/-! Oscillators. -/

theorem oscFrequency_ok {f : Fmt} {srW : Sample} {freq : Word} {u : BitVec 8} {fW incW : Sample}
    (h : oscFrequency f srW freq u = .ok (fW, incW)) : finitePos f fW = true ∧ finitePos f incW = true := by
  simp only [oscFrequency] at h
  split_ifs at h with hpos
  cases h
  exact Bool.and_eq_true_iff.1 hpos

theorem initOsc_ok {p : Params} {srW : Sample} {u : BitVec 8} {r : OscInit} {o : OscUnit} (h : initOsc p srW u r = .ok o) :
    OscOk p.fmt o ∧ o.phase = posZero := by
  unfold initOsc at h
  split at h
  · cases h
  · next hfreq =>
    cases h
    obtain ⟨hf, hinc⟩ := oscFrequency_ok hfreq
    exact ⟨⟨hf, hinc⟩, rfl⟩

theorem OscOk.oscBlock {p : Params} {o : OscUnit} (h : OscOk p.fmt o) (bs : Nat) : OscOk p.fmt (oscBlock p o bs).2 :=
  runSamples_keeps (Q := OscOk p.fmt) (fun _ _ ⟨hf, hinc⟩ => ⟨hf, hinc⟩) _ h

/-! Envelopes. -/

/-- The sustain level and the durations of an envelope: the part of `EnvOk` that no stage change touches. -/
def EnvParamsOk (f : Fmt) (e : EnvUnit) : Prop :=
  (fpLe f posZero e.s = true ∧ fpLe f e.s (oneW f) = true) ∧ e.na ≤ u32Max ∧ e.nd ≤ u32Max ∧ e.nr ≤ u32Max

section
variable {f : Fmt} {e : EnvUnit}

theorem EnvOk.paramsOk (h : EnvOk f e) : EnvParamsOk f e := by
  obtain ⟨hna, hnd, hnr, -⟩ := h.bounds
  exact ⟨h.sustainRange, hna, hnd, hnr⟩

/-- In a ramp stage the invariant says nothing of the level. -/
theorem EnvParamsOk.envOk_of_ramp (h : EnvParamsOk f e) (hstage : e.stage = .attack ∨ e.stage = .decay ∨ e.stage = .release)
    (hn : e.n ≤ u32Max) : EnvOk f e := by
  obtain ⟨hs, hna, hnd, hnr⟩ := h
  refine ⟨hs, fun hst => ?_, fun hst => ?_, hna, hnd, hnr, hn⟩
  · rcases hst with hst | hst <;> simp [hst] at hstage
  · simp [hst] at hstage

theorem EnvParamsOk.enterSustain (h : EnvParamsOk f e) : EnvOk f (enterSustain e) := by
  obtain ⟨hs, hna, hnd, hnr⟩ := h
  exact ⟨hs, by simp [Machine.enterSustain], fun _ => ⟨rfl, rfl⟩, hna, hnd, hnr, Nat.zero_le _⟩

theorem EnvParamsOk.enterOff (h : EnvParamsOk f e) : EnvOk f (enterOff e) := by
  obtain ⟨hs, hna, hnd, hnr⟩ := h
  exact ⟨hs, fun _ => ⟨rfl, rfl⟩, by simp [Machine.enterOff], hna, hnd, hnr, Nat.zero_le _⟩

theorem EnvParamsOk.completeDecay (h : EnvParamsOk f e) : EnvOk f (completeDecay e) :=
  EnvParamsOk.enterSustain (e := { e with level := e.s }) h

theorem EnvParamsOk.completeRelease (h : EnvParamsOk f e) : EnvOk f (completeRelease e) :=
  EnvParamsOk.enterOff (e := { e with level := posZero }) h

theorem EnvParamsOk.enterDecay (h : EnvParamsOk f e) : EnvOk f (enterDecay e) := by
  unfold Machine.enterDecay
  split_ifs
  · exact EnvParamsOk.completeDecay (e := { e with start := e.level, n := 0, stage := .decay }) h
  · exact EnvParamsOk.envOk_of_ramp (e := { e with start := e.level, n := 0, stage := .decay }) h (by simp) (Nat.zero_le _)

theorem EnvParamsOk.completeAttack (h : EnvParamsOk f e) : EnvOk f (completeAttack f e) :=
  EnvParamsOk.enterDecay (e := { e with level := oneW f }) h

theorem EnvParamsOk.enterAttack {p : Params} (h : EnvParamsOk p.fmt e) : EnvOk p.fmt (enterAttack p e) := by
  unfold Machine.enterAttack
  dsimp only
  generalize (if p.attackFromCurrent = true then e.level else posZero) = v
  split_ifs
  · exact EnvParamsOk.completeAttack (e := { e with start := v, level := v, n := 0, stage := .attack }) h
  · exact EnvParamsOk.envOk_of_ramp (e := { e with start := v, level := v, n := 0, stage := .attack }) h (by simp)
      (Nat.zero_le _)

theorem EnvParamsOk.enterRelease (h : EnvParamsOk f e) : EnvOk f (enterRelease e) := by
  unfold Machine.enterRelease
  split_ifs
  · exact EnvParamsOk.completeRelease (e := { e with start := e.level, n := 0, stage := .release }) h
  · exact EnvParamsOk.envOk_of_ramp (e := { e with start := e.level, n := 0, stage := .release }) h (by simp) (Nat.zero_le _)

theorem EnvParamsOk.complete (h : EnvParamsOk f e)
    (hstage : e.stage = .attack ∨ e.stage = .decay ∨ e.stage = .release) : EnvOk f (complete f e) := by
  unfold Machine.complete
  rcases hstage with hst | hst | hst <;> rw [hst]
  · exact h.completeAttack
  · exact h.completeDecay
  · exact h.completeRelease

theorem EnvOk.rampStep (h : EnvOk f e) (hstage : e.stage = .attack ∨ e.stage = .decay ∨ e.stage = .release)
    (target : Sample) {dur : Nat} (hdur : dur ≤ u32Max) : EnvOk f (rampStep f target dur e) := by
  unfold Machine.rampStep
  dsimp only
  split_ifs with hn
  · exact EnvParamsOk.complete (e := { e with n := e.n + 1 }) h.paramsOk hstage
  · exact EnvParamsOk.envOk_of_ramp
      (e := { e with n := e.n + 1, level := rampLevel f e.start target (e.n + 1) dur }) h.paramsOk hstage
      (show e.n + 1 ≤ u32Max by omega)

theorem EnvOk.envStep (h : EnvOk f e) : EnvOk f (envStep f e).2 := by
  obtain ⟨hna, hnd, hnr, -⟩ := h.bounds
  unfold Machine.envStep
  cases hst : e.stage with
  | attack => exact h.rampStep (by simp [hst]) _ hna
  | decay => exact h.rampStep (by simp [hst]) _ hnd
  | release => exact h.rampStep (by simp [hst]) _ hnr
  | sustain => exact ⟨h.sustainRange, fun h' => by simp at h', fun _ => ⟨rfl, (h.held hst).2⟩, h.bounds⟩
  | idle => exact h
  | off => exact h

theorem EnvOk.noteOff (h : EnvOk f e) : EnvOk f (noteOff e) := by
  unfold Machine.noteOff
  cases e.stage with
  | attack | decay | sustain => exact h.paramsOk.enterRelease
  | idle | release | off => exact h

theorem EnvOk.envBlock (h : EnvOk f e) (xs : List Sample) : EnvOk f (envBlock f e xs).2 := by
  refine runSamples_keeps (Q := EnvOk f) (fun _ _ h => ?_) xs h
  exact h.envStep

end

theorem durSamples_ok {sr64 sec : Word} {u : BitVec 8} {n : Nat} (h : durSamples sr64 sec u = .ok n) : n ≤ u32Max := by
  simp only [durSamples] at h
  split_ifs at h
  split at h
  · cases h
  · cases h
  · split_ifs at h with hk
    cases h
    exact not_lt.1 hk

theorem dropZeroSign_cases (f : Fmt) (v : Sample) : dropZeroSign f v = posZero ∨ dropZeroSign f v = v := by
  unfold dropZeroSign
  split_ifs
  · exact .inl rfl
  · exact .inr rfl

theorem sustainLevel_ok {f : Fmt} {v : Word} {u : BitVec 8} {sW : Sample} (h : sustainLevel f v u = .ok sW) :
    fpLe f posZero sW = true ∧ fpLe f sW (oneW f) = true := by
  simp only [sustainLevel] at h
  split_ifs at h with hrange
  cases h
  rcases dropZeroSign_cases f (toW f (f64 v)) with h | h <;> rw [h]
  · cases f <;> decide +kernel
  · exact Bool.and_eq_true_iff.1 hrange

theorem envParams_ok {f : Fmt} {sr64 a d s r : Word} {u : BitVec 8} {q : EnvParams}
    (h : envParams f sr64 a d s r u = .ok q) :
    (fpLe f posZero q.s = true ∧ fpLe f q.s (oneW f) = true) ∧ q.na ≤ u32Max ∧ q.nd ≤ u32Max ∧ q.nr ≤ u32Max := by
  unfold envParams at h
  split at h
  · cases h
  · next hna =>
    split at h
    · cases h
    · next hnd =>
      split at h
      · cases h
      · next hs =>
        split at h
        · cases h
        · next hnr =>
          cases h
          exact ⟨sustainLevel_ok hs, durSamples_ok hna, durSamples_ok hnd, durSamples_ok hnr⟩

theorem EnvOk.withEnvParams {f : Fmt} {e : EnvUnit} (h : EnvOk f e) {sr64 a d s r : Word} {u : BitVec 8} {q : EnvParams}
    (hq : envParams f sr64 a d s r u = .ok q) : EnvOk f (withEnvParams e q) := by
  obtain ⟨hs, hna, hnd, hnr⟩ := envParams_ok hq
  obtain ⟨-, -, -, hn⟩ := h.bounds
  refine ⟨hs, fun hst => ?_, fun hst => ?_, hna, hnd, hnr, hn⟩
  · obtain ⟨hlevel, hn0⟩ := h.silent hst
    have hsus : e.stage ≠ .sustain := by
      intro heq
      rcases hst with hst | hst <;> exact absurd (heq.symm.trans hst) (by decide)
    exact ⟨(if_neg hsus).trans hlevel, hn0⟩
  · exact ⟨if_pos hst, (h.held hst).2⟩

/-- An envelope before PREPARE's note-on: Idle at +0. -/
theorem initEnv_ok {p : Params} {sr64 : Word} {u : BitVec 8} {r : EnvInit} {e : EnvUnit} (h : initEnv p sr64 u r = .ok e) :
    EnvOk p.fmt e := by
  unfold initEnv at h
  split at h
  · cases h
  · next q hq =>
    obtain ⟨hs, hna, hnd, hnr⟩ := envParams_ok hq
    cases h
    split_ifs
    · exact EnvParamsOk.enterAttack ⟨hs, hna, hnd, hnr⟩
    · exact ⟨hs, fun _ => ⟨rfl, rfl⟩, by simp, hna, hnd, hnr, Nat.zero_le _⟩

/-! Delay lines. -/

/-- A prepared delay line with its RAM in canonical form and in its bounds. -/
structure LineOk (f : Fmt) (maxDelay : Nat) (l : DlyUnit) : Prop where
  unit : DlyOk f maxDelay l
  dram : MemOk .dram maxDelay l.dram

section
variable {f : Fmt} {maxDelay : Nat} {l : DlyUnit}

theorem LineOk.dlyStep (h : LineOk f maxDelay l) (x : Sample) : LineOk f maxDelay (dlyStep f l x).2 := by
  obtain ⟨⟨⟨h1, h2, h3⟩, hw, hg⟩, hm⟩ := h
  exact ⟨⟨⟨h1, h2, h3⟩, Nat.mod_lt _ h1, hg⟩, hm.memWrite (by omega) _⟩

theorem LineOk.dlyBlock (h : LineOk f maxDelay l) (xs : List Sample) : LineOk f maxDelay (dlyBlock f l xs).2 :=
  runSamples_keeps (Q := LineOk f maxDelay) (fun _ x h => h.dlyStep x) xs h

theorem LineOk.withDelay (h : LineOk f maxDelay l) {n : Nat} (hn : 1 ≤ n ∧ n ≤ l.c) :
    LineOk f maxDelay (withDelay l n) := by
  obtain ⟨⟨⟨h1, h2, h3⟩, hw, hg⟩, hm⟩ := h
  obtain ⟨hpos, hc⟩ := hn
  exact ⟨⟨⟨hpos, hc, h3⟩, Nat.mod_lt _ hpos, hg⟩, hm⟩

theorem LineOk.clearLine (h : LineOk f maxDelay l) : LineOk f maxDelay (clearLine l) := by
  obtain ⟨⟨⟨h1, h2, h3⟩, hw, hg⟩, hm⟩ := h
  exact ⟨⟨⟨h1, h2, h3⟩, h1, hg⟩, hm.zeroBelow _⟩

end

theorem feedbackGain_ok {f : Fmt} {v : Word} {u : BitVec 8} {gW : Sample} (h : feedbackGain f v u = .ok gW) :
    fpLe f posZero gW = true ∧ fpLt f gW (oneW f) = true := by
  simp only [feedbackGain] at h
  split_ifs at h with hrange
  cases h
  rcases dropZeroSign_cases f (toW f (f64 v)) with h | h <;> rw [h]
  · cases f <;> decide +kernel
  · exact Bool.and_eq_true_iff.1 hrange

theorem dlyCap_ok {m : Nat} {sr64 sec : Word} {u : BitVec 8} {c : Nat} (h : dlyCap m sr64 sec u = .ok c) :
    1 ≤ c ∧ c ≤ m := by
  simp only [dlyCap] at h
  split_ifs at h
  split at h
  · cases h
  · cases h
  · split_ifs at h with hk
    cases h
    omega

theorem initDly_ok {p : Params} {sr64 : Word} {u : BitVec 8} {r : DlyInit} {l : DlyUnit} (h : initDly p sr64 u r = .ok l) :
    DlyOk p.fmt p.maxDelay l := by
  unfold initDly at h
  split at h
  · cases h
  · next hc =>
    split at h
    · cases h
    · next hg =>
      cases h
      obtain ⟨h1, h2⟩ := dlyCap_ok hc
      exact ⟨⟨h1, le_rfl, h2⟩, h1, feedbackGain_ok hg⟩

/-- A committed delay line is a new one with some old line's RAM, zeroed below its capacity (45_graph.md R220). -/
theorem mem_commitDly {cap : Nat} {old new : List DlyUnit} (hold : ∀ l ∈ old, MemOk .dram cap l.dram) {l : DlyUnit}
    (hl : l ∈ commitDly old new) : ∃ l0 ∈ new, ∃ m, MemOk .dram cap m ∧ l = { l0 with dram := zeroBelow m l0.c } := by
  obtain ⟨hlen, hspec⟩ := commitDly_spec new old
  obtain ⟨v, hv, rfl⟩ := List.getElem_of_mem hl
  have hnew := hspec v _ (List.getElem?_eq_getElem (hlen ▸ hv))
  rw [List.getElem?_eq_getElem hv, Option.some.injEq] at hnew
  refine ⟨_, List.getElem_mem (hlen ▸ hv), _, ?_, hnew⟩
  rcases lt_or_ge v old.length with hvo | hvo
  · rw [List.getD_eq_getElem _ _ hvo]; exact hold _ (List.getElem_mem hvo)
  · rw [List.getD_eq_default _ _ hvo]; exact memOk_nil _ _

end Sys2Proof.Machine
end

section
/-! PROOF. The invariant holds at power-on and every step keeps it (10_state.md R41, R45). -/

namespace Sys2Proof.Machine

open Sys2Proof

theorem StatusOk.congr {s t : State} (h : StatusOk s) (hstatus : t.status = s.status) (herr : t.errCmd = s.errCmd) :
    StatusOk t := by
  obtain ⟨hclear, hrecorded, hreserved⟩ := h
  exact ⟨by rwa [hstatus, herr], by rwa [hstatus], by rwa [hstatus]⟩

/-- The first error is recorded, a later one changes no record (60_exceptions.md R243). -/
theorem StatusOk.errorEntry {s : State} (h : StatusOk s) {e : CmdError} (he : RaisedCode e.code) (word : CmdWord) (b : Bool) :
    StatusOk (errorEntry e word b s) := by
  obtain ⟨hne, hres⟩ := he
  refine ⟨fun hf => by simp at hf, fun _ => ?_, ?_⟩ <;> rw [errorEntry_errCode] <;> split_ifs with hf
  · exact h.recorded hf
  · exact hne
  · exact h.notReserved
  · exact hres

section
variable {s : State}

theorem inv_powerOn {p : Params} (h : p.wf = true) : Inv (State.powerOn p) where
  params := h
  oscCount := List.length_replicate
  fltCount := List.length_replicate
  envCount := List.length_replicate
  dlyCount := List.length_replicate
  outbuf := memOk_nil _ _
  dram _ hl := (List.eq_of_mem_replicate hl) ▸ memOk_nil _ _
  scratchSrc _ hm := (List.eq_of_mem_replicate hm) ▸ memOk_nil _ _
  scratchM := memOk_nil _ _
  scratchG _ hm := (List.eq_of_mem_replicate hm) ▸ memOk_nil _ _
  scratchO := memOk_nil _ _
  status := ⟨fun _ => ⟨rfl, rfl, rfl⟩, fun hf => Bool.noConfusion hf, by simp [State.powerOn, Status.reset]⟩
  blockSize hp := Bool.noConfusion hp
  sampleRate hp := Bool.noConfusion hp
  oscillators hp := Bool.noConfusion hp
  envelopes hp := Bool.noConfusion hp
  delays hp := Bool.noConfusion hp

/-- The invariant says nothing of the operand registers, `RESULT` and the model's own fields. -/
theorem Inv.ports (h : Inv s) (a0 a1 a2 a3 r d : Word) (es : List Event) :
    Inv { s with arg0 := a0, arg1 := a1, arg2 := a2, arg3 := a3, result := r, readData := d, pending := es } :=
  { h with status := h.status.congr rfl rfl }

theorem Inv.setResult (h : Inv s) (y : Sample) : Inv (setResult s y) :=
  h.ports s.arg0 s.arg1 s.arg2 s.arg3 _ s.readData s.pending

theorem Inv.errorEntry (h : Inv s) {e : CmdError} (he : RaisedCode e.code) (word : CmdWord) (b : Bool) :
    Inv (errorEntry e word b s) :=
  { h with
    status := h.status.errorEntry he word b
    blockSize := h.blockSize ∘ prepared_of_errorEntry
    sampleRate := h.sampleRate ∘ prepared_of_errorEntry
    oscillators := h.oscillators ∘ prepared_of_errorEntry
    envelopes := h.envelopes ∘ prepared_of_errorEntry
    delays := h.delays ∘ prepared_of_errorEntry }

theorem Inv.setOsc (h : Inv s) {u : Nat} {o : OscUnit} (ho : OscOk s.params.fmt (oscAt s u) → OscOk s.params.fmt o) :
    Inv (setOsc s u o) :=
  { h with
    oscCount := List.length_set.trans h.oscCount
    status := h.status.congr rfl rfl
    oscillators := fun hp => forall_mem_set (h.oscillators hp) ho }

theorem Inv.setFlt (h : Inv s) (u : Nat) (x : FltUnit) : Inv (setFlt s u x) :=
  { h with fltCount := List.length_set.trans h.fltCount, status := h.status.congr rfl rfl }

theorem Inv.setEnv (h : Inv s) {u : Nat} {e : EnvUnit} (he : EnvOk s.params.fmt (envAt s u) → EnvOk s.params.fmt e) :
    Inv (setEnv s u e) :=
  { h with
    envCount := List.length_set.trans h.envCount
    status := h.status.congr rfl rfl
    envelopes := fun hp => forall_mem_set (h.envelopes hp) he }

/-- The delay lines of a prepared core, each with its RAM. -/
theorem Inv.lines (h : Inv s) (hp : s.status.prepared = true) : ∀ l ∈ s.dly, LineOk s.params.fmt s.params.maxDelay l :=
  fun l hl => ⟨h.delays hp l hl, h.dram l hl⟩

theorem Inv.setDly (h : Inv s) (hp : s.status.prepared = true) {u : Nat} {l : DlyUnit}
    (hl : LineOk s.params.fmt s.params.maxDelay (dlyAt s u) → LineOk s.params.fmt s.params.maxDelay l) :
    Inv (setDly s u l) :=
  have hset : ∀ x ∈ s.dly.set u l, LineOk s.params.fmt s.params.maxDelay x := forall_mem_set (h.lines hp) hl
  { h with
    dlyCount := List.length_set.trans h.dlyCount
    dram := fun x hx => (hset x hx).dram
    status := h.status.congr rfl rfl
    delays := fun _ x hx => (hset x hx).unit }

/-- The scratch buffers that a group's samples are stored in stay in their bounds (20_memory.md R67). -/
theorem Inv.storeGroup (h : Inv s) {j : Nat} {srcs : List (List Sample)} {ys : List Sample}
    (hsrcs : ∀ xs ∈ srcs, xs.length ≤ s.params.maxBlock) (hys : ys.length ≤ s.params.maxBlock) :
    Inv { s with scratch := storeGroup s.scratch j srcs ys } :=
  { h with
    scratchSrc := memOk_fillBuffers hsrcs h.scratchSrc
    scratchM := h.scratchM.memWriteFrom hys
    scratchG := forall_mem_set (d := []) h.scratchG fun _ => (memOk_getD h.scratchG j).memWriteFrom hys
    status := h.status.congr rfl rfl }

/-- What a block keeps: the invariant, in a prepared core whose `MAX_BLOCK` holds the block. -/
structure InvBlock (bs : Nat) (s : State) : Prop where
  inv : Inv s
  prepared : s.status.prepared = true
  fits : bs ≤ s.params.maxBlock

theorem invBlock_keptByBlock (bs : Nat) : KeptByBlock bs (InvBlock bs) where
  osc _ _ h := ⟨h.inv.setOsc fun ho => ho.oscBlock bs, h.prepared, h.fits⟩
  flt _ _ _ h := ⟨h.inv.setFlt _ _, h.prepared, h.fits⟩
  env _ _ xs h := ⟨h.inv.setEnv fun he => he.envBlock xs, h.prepared, h.fits⟩
  dly _ _ xs h := ⟨h.inv.setDly h.prepared fun hl => hl.dlyBlock xs, h.prepared, h.fits⟩
  scratch _ _ _ _ hsrcs hys h :=
    ⟨h.inv.storeGroup (fun xs hxs => (hsrcs xs hxs).trans h.fits) (hys.trans h.fits), h.prepared, h.fits⟩

theorem Inv.blockResult (h : Inv s) (hp : s.status.prepared = true) {bs : Nat} (hbs : bs ≤ s.maxBlk) :
    Inv (blockResult s bs) := by
  obtain ⟨hinv, -, hfits⟩ :=
    (invBlock_keptByBlock bs).runGraph ⟨h, hp, hbs.trans (h.blockSize hp).2⟩
  have hlen : (runGraph s bs).1.length ≤ (runGraph s bs).2.params.maxBlock := (runGraph_length_le s bs).trans hfits
  exact
    { hinv with
      outbuf := hinv.outbuf.memWriteFrom (by rwa [List.length_map])
      scratchO := hinv.scratchO.memWriteFrom hlen
      status := hinv.status.congr rfl rfl }

theorem Inv.commitPrepare (h : Inv s) {sr64 : Word} {mbs : Nat} {us : Units} (hsr : finitePos .binary64 sr64 = true)
    (hsrW : finitePos s.params.fmt (toW s.params.fmt sr64) = true) (hmbs : 1 ≤ mbs ∧ mbs ≤ s.params.maxBlock)
    (hus : prepareUnits s.params sr64 (toW s.params.fmt sr64) = .ok us) :
    Inv (commitPrepare s sr64 (toW s.params.fmt sr64) mbs us) := by
  obtain ⟨hosc, hflt, henv, hdly⟩ := prepareUnits_ok hus
  have hlines : ∀ l ∈ commitDly s.dly us.dly, LineOk s.params.fmt s.params.maxDelay l := by
    intro l hl
    obtain ⟨l0, hl0, m, hm, rfl⟩ := mem_commitDly h.dram hl
    obtain ⟨_, _, hinit⟩ := mem_of_checkEach_ok hdly hl0
    obtain ⟨hlen, hw, hg⟩ := initDly_ok hinit
    exact ⟨⟨hlen, hw, hg⟩, hm.zeroBelow _⟩
  exact
    { h with
      oscCount := (checkEach_ok hosc).1
      fltCount := (checkEach_ok hflt).1
      envCount := (checkEach_ok henv).1
      dlyCount := (commitDly_spec us.dly s.dly).1.trans (checkEach_ok hdly).1
      dram := fun l hl => (hlines l hl).dram
      status := ⟨fun _ => ⟨rfl, rfl, rfl⟩, fun hf => Bool.noConfusion hf, by simp⟩
      blockSize := fun _ => hmbs
      sampleRate := fun _ => ⟨hsr, rfl, hsrW⟩
      oscillators := fun _ o ho => by
        obtain ⟨_, _, hinit⟩ := mem_of_checkEach_ok hosc ho
        exact (initOsc_ok hinit).1
      envelopes := fun _ e he => by
        obtain ⟨_, _, hinit⟩ := mem_of_checkEach_ok henv he
        exact initEnv_ok hinit
      delays := fun _ l hl => (hlines l hl).unit }

theorem Effect.inv {t : State} {i : Instr} (h : Inv s) (hprepared : i ≠ .prepare → s.status.prepared = true)
    (heff : Effect s i t) : Inv t := by
  cases heff with
  | prepare hsr hsrW hmbs hus => exact h.commitPrepare hsr hsrW hmbs hus
  | processBlock hbs => exact h.blockResult (hprepared (by simp)) hbs
  | oscSetFreq hfreq => exact h.setOsc fun _ => have ⟨hf, hinc⟩ := oscFrequency_ok hfreq; ⟨hf, hinc⟩
  | oscSetWave => exact h.setOsc fun ⟨hf, hinc⟩ => ⟨hf, hinc⟩
  | oscNext => exact (h.setOsc fun ⟨hf, hinc⟩ => ⟨hf, hinc⟩).setResult _
  | fltSetParams | fltReset => exact h.setFlt _ _
  | fltProcess => exact (h.setFlt _ _).setResult _
  | envSetParams hparams => exact h.setEnv fun he => he.withEnvParams hparams
  | envNoteOn => exact h.setEnv fun he => he.paramsOk.enterAttack
  | envNoteOff => exact h.setEnv fun he => he.noteOff
  | envNext => exact (h.setEnv fun he => he.envStep).setResult _
  | dlySetDelay hn => exact h.setDly (hprepared (by simp)) fun hl => hl.withDelay hn
  | dlySetFeedback hgain =>
    exact h.setDly (hprepared (by simp)) fun ⟨⟨hlen, hw, _⟩, hm⟩ => ⟨⟨hlen, hw, feedbackGain_ok hgain⟩, hm⟩
  | dlyProcess => exact (h.setDly (hprepared (by simp)) fun hl => hl.dlyStep _).setResult _
  | dlyReset => exact h.setDly (hprepared (by simp)) fun hl => hl.clearLine

theorem Inv.execute {w : CmdWord} {t : State} (h : Inv s) (hexec : execute w s = .next t) : Inv t :=
  execute_keeps (fun _ _ word b he h => h.errorEntry he word b) (fun _ _ _ h hp heff => heff.inv h hp) h hexec

end

theorem wf_default : Params.default.wf = true := by decide

/-- Settles O57: every unit and memory is at its reset value and the core is unprepared. -/
theorem powerOnMeetsInvariant : Obligations.PowerOnMeetsInvariant :=
  ⟨fun _ => inv_powerOn, inv_powerOn wf_default⟩

/-- Settles O58: an error, each command's effect, a host action and a power-on reset keep the invariant. -/
theorem stepKeepsInvariant : Obligations.StepKeepsInvariant := fun _ _ h hstep =>
  step_keeps (fun s a0 a1 a2 a3 d es h => h.ports a0 a1 a2 a3 s.result d es) (fun _ h => inv_powerOn h.params)
    (fun _ _ _ h hexec => h.execute hexec) h hstep

end Sys2Proof.Machine
end

section
/-! PROOF. Every step keeps the phases of a prepared core in range (10_state.md R31, 41_oscillator.md R125). -/

namespace Sys2Proof.Machine

open Sys2Proof

/-- The check `isFinite(v) and v > 0` on the value itself. -/
theorem finitePos_iff {f : Fmt} {v : Sample} : finitePos f v = true ↔ ∃ k, fpVal f v = .fin false k ∧ 0 < k := by
  unfold finitePos isFinite fpLt
  rw [fpVal_posZero]
  cases fpVal f v with
  | nan => simp
  | inf s => simp
  | fin s k => cases s <;> simp [valLt, signedQuanta]

/-- The overflow threshold lies half the largest unit above every finite value, so adding less than that does not reach it. -/
theorem IsQuanta.add_lt_overflow {f : Fmt} {k j : Nat} (h : IsQuanta f k) (hj : j < 2 ^ (expMax f - 3)) :
    j + k < overflowQuanta f := by
  obtain ⟨m, x, hm, hx, rfl⟩ := h
  have he := expMax_ge_three f
  have hle : m * 2 ^ x ≤ 2 * m * 2 ^ (expMax f - 3) := by
    calc m * 2 ^ x ≤ m * 2 ^ (expMax f - 3 + 1) := Nat.mul_le_mul_left _ (Nat.pow_le_pow_right (by omega) (by omega))
      _ = 2 * m * 2 ^ (expMax f - 3) := by rw [pow_succ]; ring
  have hthreshold : (2 * m + 1) * 2 ^ (expMax f - 3) ≤ overflowQuanta f :=
    Nat.mul_le_mul_right _ (by rw [pow_succ] at hm ⊢; omega)
  rw [Nat.add_mul, Nat.one_mul] at hthreshold
  omega

theorem fpVal_twoPiW (f : Fmt) : ∃ k, fpVal f (twoPiW f) = .fin false k ∧ k ≠ 0 ∧ k < 2 ^ (expMax f - 3) := by
  cases f with
  | binary32 => exact ⟨0xC90FDB * 2 ^ 128, by decide +kernel, by decide +kernel, by decide +kernel⟩
  | binary64 => exact ⟨0x1921FB54442D18 * 2 ^ 1024, by decide +kernel, by decide +kernel, by decide +kernel⟩

/-- The sum of a phase and an increment does not overflow, and its remainder lies in [+0, `TWO_PI_W`). -/
theorem phaseInRange_phaseAdvance {f : Fmt} {phase inc : Sample} (hphase : phaseInRange f phase)
    (hinc : finitePos f inc = true) : phaseInRange f (phaseAdvance f phase inc) := by
  obtain ⟨t, ht, ht0, htmax⟩ := fpVal_twoPiW f
  obtain ⟨j, hj, hjt⟩ := hphase
  obtain ⟨k, hk, hk0⟩ := finitePos_iff.1 hinc
  have hlt : j < t := Int.ofNat_lt.1 ((comparisons_fin hj ht).1.1 hjt)
  have hsum : fpAdd f phase inc = roundW f false (j + k) 1 := by
    rw [fpAdd_fin hj hk, signedQuanta_add, roundQuanta_signedQuanta f _ _ (by omega)]
  obtain ⟨n, hn, -⟩ := roundW_nearest Nat.one_pos
    (show j + k < 1 * overflowQuanta f by rw [Nat.one_mul]; exact (isQuanta_of_fpVal hk).add_lt_overflow (hlt.trans htmax)) false
  have hmod : fpVal f (phaseAdvance f phase inc) = .fin false (n % t) := fpVal_fpMod_fin (hsum ▸ hn) ht ht0
  exact ⟨n % t, hmod, (comparisons_fin hmod ht).1.2 (Int.ofNat_lt.2 (Nat.mod_lt n (Nat.pos_of_ne_zero ht0)))⟩

/-- A prepared oscillator with its phase in range. -/
structure RunningOk (f : Fmt) (o : OscUnit) : Prop where
  unit : OscOk f o
  phase : phaseInRange f o.phase

theorem phaseInRange_posZero (f : Fmt) : phaseInRange f posZero := ⟨0, fpVal_posZero f, by cases f <;> decide +kernel⟩

theorem RunningOk.oscStep {p : Params} {o : OscUnit} (h : RunningOk p.fmt o) : RunningOk p.fmt (oscStep p o).2 := by
  obtain ⟨⟨hf, hinc⟩, hphase⟩ := h
  exact ⟨⟨hf, hinc⟩, phaseInRange_phaseAdvance hphase hinc⟩

/-- Every oscillator of a prepared core has its phase in range. -/
def OscillatorsOk (s : State) : Prop := s.status.prepared = true → ∀ o ∈ s.osc, RunningOk s.params.fmt o

theorem OscillatorsOk.phases {s : State} (h : OscillatorsOk s) : PhasesOk s := fun hp o ho => (h hp o ho).phase

theorem OscillatorsOk.setOsc {s : State} (h : OscillatorsOk s) {u : Nat} {o : OscUnit}
    (ho : RunningOk s.params.fmt (oscAt s u) → RunningOk s.params.fmt o) : OscillatorsOk (setOsc s u o) :=
  fun hp => forall_mem_set (h hp) ho

theorem oscillatorsOk_keptByBlock (bs : Nat) : KeptByBlock bs OscillatorsOk where
  osc s _ h := h.setOsc fun ho => runSamples_keeps (Q := RunningOk s.params.fmt) (fun _ _ h => h.oscStep) _ ho
  flt _ _ _ h := h
  env _ _ _ h := h
  dly _ _ _ h := h
  scratch _ _ _ _ _ _ h := h

theorem Effect.oscillatorsOk {s t : State} {i : Instr} (h : OscillatorsOk s) (heff : Effect s i t) : OscillatorsOk t := by
  cases heff with
  | prepare _ _ _ hus =>
    intro _ o ho
    obtain ⟨_, _, hinit⟩ := mem_of_checkEach_ok (prepareUnits_ok hus).1 ho
    obtain ⟨hunit, hphase⟩ := initOsc_ok hinit
    exact ⟨hunit, hphase ▸ phaseInRange_posZero _⟩
  | processBlock => exact (oscillatorsOk_keptByBlock (u64 s.arg0)).runGraph h
  | oscSetFreq hfreq =>
    obtain ⟨hf, hinc⟩ := oscFrequency_ok hfreq
    exact h.setOsc fun ho => ⟨⟨hf, hinc⟩, ho.phase⟩
  | oscSetWave => exact h.setOsc fun ⟨⟨hf, hinc⟩, hphase⟩ => ⟨⟨hf, hinc⟩, hphase⟩
  | oscNext => exact h.setOsc fun ho => ho.oscStep
  | _ => exact h

/-- Settles O59: a phase is advanced by a sum that cannot overflow and an exact remainder. -/
theorem stepKeepsPhasesInRange : Obligations.StepKeepsPhasesInRange := by
  intro s t hinv hphases hstep
  have hosc : OscillatorsOk s := fun hp o ho => ⟨hinv.oscillators hp o ho, hphases hp o ho⟩
  exact OscillatorsOk.phases (step_keeps (fun _ _ _ _ _ _ _ h => h) (fun _ _ hp => Bool.noConfusion hp)
    (fun _ _ _ => execute_keeps (fun _ _ _ _ _ h hp => h (prepared_of_errorEntry hp))
      fun _ _ _ h _ heff => heff.oscillatorsOk h) hosc hstep)

end Sys2Proof.Machine
end

section
/-! PROOF. A rounding as a nearest signed value of the format, and what it never crosses (00_scope.md R12). -/

namespace Sys2Proof.Machine

open Sys2Proof

/-- `v` is finite and stands for `z` quanta. -/
def HasQuanta (f : Fmt) (v : Sample) (z : Int) : Prop := ∃ s k, fpVal f v = .fin s k ∧ signedQuanta s k = z

/-- `v` stands for `z` quanta, and no finite value of the format is nearer to `num / den` quanta. -/
structure Rounds (f : Fmt) (num : Int) (den : Nat) (v : Sample) (z : Int) : Prop where
  value : HasQuanta f v z
  nearest : ∀ w y, HasQuanta f w y → (num - z * den).natAbs ≤ (num - y * den).natAbs

section
variable {f : Fmt} {a b v w : Sample} {x y z c num : Int} {den : Nat}

theorem hasQuanta_roundW {k : Nat} (h : IsQuanta f k) (neg : Bool) :
    HasQuanta f (roundW f neg k 1) (signedQuanta neg k) :=
  ⟨neg, k, fpVal_roundW_of_isQuanta h neg, rfl⟩

theorem natAbs_signedQuanta (s : Bool) (k : Nat) : (signedQuanta s k).natAbs = k := by cases s <;> simp [signedQuanta]

theorem HasQuanta.isQuanta (h : HasQuanta f v z) : IsQuanta f z.natAbs := by
  obtain ⟨s, k, hk, rfl⟩ := h
  rw [natAbs_signedQuanta]
  exact isQuanta_of_fpVal hk

theorem HasQuanta.exists_neg (h : HasQuanta f v z) : ∃ w, HasQuanta f w (-z) := by
  obtain ⟨s, k, hk, rfl⟩ := h
  exact ⟨_, signedQuanta_not s k ▸ hasQuanta_roundW (isQuanta_of_fpVal hk) (!s)⟩

theorem hasQuanta_posZero (f : Fmt) : HasQuanta f posZero 0 := ⟨false, 0, fpVal_posZero f, rfl⟩

theorem fpVal_oneW (f : Fmt) : fpVal f (oneW f) = .fin false (2 ^ quantum f) := by cases f <;> decide +kernel

theorem hasQuanta_oneW (f : Fmt) : HasQuanta f (oneW f) (2 ^ quantum f : Nat) := ⟨false, _, fpVal_oneW f, rfl⟩

theorem exists_hasQuanta_pow {n : Nat} (hn : n ≤ expMax f - 2) : ∃ w, HasQuanta f w (2 ^ n : Nat) :=
  ⟨_, hasQuanta_roundW ⟨1, n, Nat.one_lt_two_pow (by omega), hn, (Nat.one_mul _).symm⟩ false⟩

/-! A rounding crosses no value of the format and keeps the order. -/

theorem Rounds.le (h : Rounds f num den v z) (hden : 0 < den) (hw : HasQuanta f w c) (hle : num ≤ c * den) : z ≤ c := by
  by_contra hlt
  have hmul : c * den < z * den := Int.mul_lt_mul_of_pos_right (by omega) (by omega)
  have := h.nearest w c hw
  omega

theorem Rounds.ge (h : Rounds f num den v z) (hden : 0 < den) (hw : HasQuanta f w c) (hge : c * den ≤ num) : c ≤ z := by
  by_contra hlt
  have hmul : z * den < c * den := Int.mul_lt_mul_of_pos_right (by omega) (by omega)
  have := h.nearest w c hw
  omega

theorem Rounds.mono (hx : Rounds f x den v z) (hy : Rounds f y den w c) (hden : 0 < den) (hlt : x < y) : z ≤ c := by
  by_contra hcz
  have hmul : c * den < z * den := Int.mul_lt_mul_of_pos_right (by omega) (by omega)
  have := hx.nearest w c hy.value
  have := hy.nearest v z hx.value
  omega

/-! Each operation rounds its exact result, where a value of the format bounds it. -/

theorem rounds_roundW {n : Nat} (hden : 0 < den) (hw : HasQuanta f w c) (hle : (n : Int) ≤ c * den) (neg : Bool) :
    ∃ z, Rounds f (signedQuanta neg n) den (roundW f neg n den) z := by
  have hc : c ≤ c.natAbs := by omega
  have hover : n < den * overflowQuanta f := by
    have h1 : (n : Int) ≤ (den * c.natAbs : Nat) := by
      push_cast
      calc (n : Int) ≤ c * den := hle
        _ ≤ |c| * den := Int.mul_le_mul_of_nonneg_right (le_abs_self c) (by omega)
        _ = den * |c| := mul_comm _ _
    have h2 := Nat.mul_lt_mul_of_pos_left hw.isQuanta.lt_overflow hden
    omega
  obtain ⟨k, hk, hnear⟩ := roundW_nearest hden hover neg
  refine ⟨signedQuanta neg k, ⟨neg, k, hk, rfl⟩, fun v y ⟨s, j, hj, hy⟩ => ?_⟩
  have hkj := (hnear v s j hj).1
  have hpos : 0 ≤ (j : Int) * den := by positivity
  subst hy
  cases neg <;> cases s <;> simp only [signedQuanta, Bool.false_eq_true, if_true, if_false, Int.neg_mul] <;> omega

theorem rounds_roundQuanta (hw : HasQuanta f w c) (hle : (x.natAbs : Int) ≤ c) (zs : Bool) :
    ∃ z, Rounds f x 1 (roundQuanta f zs x) z := by
  unfold roundQuanta
  split_ifs with hx
  · refine ⟨0, ⟨zs, 0, ?_, by cases zs <;> rfl⟩, by simp [hx]⟩
    rw [← roundW_zero]
    exact fpVal_roundW_of_isQuanta ⟨0, 0, Nat.two_pow_pos _, Nat.zero_le _, rfl⟩ zs
  · have hsign : signedQuanta (decide (x < 0)) x.natAbs = x := by
      unfold signedQuanta
      simp only [decide_eq_true_eq]
      split_ifs <;> omega
    have := rounds_roundW (n := x.natAbs) Nat.one_pos hw (by simpa using hle) (decide (x < 0))
    rwa [hsign] at this

theorem rounds_fpAdd (ha : HasQuanta f a x) (hb : HasQuanta f b y) (hw : HasQuanta f w c)
    (hle : ((x + y).natAbs : Int) ≤ c) : ∃ z, Rounds f (x + y) 1 (fpAdd f a b) z := by
  obtain ⟨s, j, hj, rfl⟩ := ha
  obtain ⟨t, k, hk, rfl⟩ := hb
  rw [fpAdd_fin hj hk]
  exact rounds_roundQuanta hw hle _

theorem rounds_fpSub (ha : HasQuanta f a x) (hb : HasQuanta f b y) (hw : HasQuanta f w c)
    (hle : ((x - y).natAbs : Int) ≤ c) : ∃ z, Rounds f (x - y) 1 (fpSub f a b) z := by
  obtain ⟨s, j, hj, rfl⟩ := ha
  obtain ⟨t, k, hk, rfl⟩ := hb
  rw [fpSub_fin hj hk]
  exact rounds_roundQuanta hw hle _

theorem signedQuanta_mul (s t : Bool) (j k : Nat) : signedQuanta s j * signedQuanta t k = signedQuanta (s != t) (j * k) := by
  cases s <;> cases t <;> simp [signedQuanta]

theorem rounds_fpMul (ha : HasQuanta f a x) (hb : HasQuanta f b y) (hw : HasQuanta f w c)
    (hle : ((x * y).natAbs : Int) ≤ c * (2 ^ quantum f : Nat)) :
    ∃ z, Rounds f (x * y) (2 ^ quantum f) (fpMul f a b) z := by
  obtain ⟨s, j, hj, rfl⟩ := ha
  obtain ⟨t, k, hk, rfl⟩ := hb
  rw [signedQuanta_mul, natAbs_signedQuanta] at hle
  rw [fpMul_fin hj hk, signedQuanta_mul]
  exact rounds_roundW (Nat.two_pow_pos _) hw hle _

theorem rounds_fpDiv {n : Nat} (ha : HasQuanta f a x) (hb : HasQuanta f b n) (hn : 0 < n) (hw : HasQuanta f w c)
    (hle : ((x * (2 ^ quantum f : Nat)).natAbs : Int) ≤ c * n) :
    ∃ z, Rounds f (x * (2 ^ quantum f : Nat)) n (fpDiv f a b) z := by
  obtain ⟨s, j, hj, rfl⟩ := ha
  obtain ⟨t, k, hk, hkn⟩ := hb
  obtain ⟨rfl, rfl⟩ : t = false ∧ k = n := by cases t <;> simp [signedQuanta] at hkn ⊢ <;> omega
  have hnum : signedQuanta s j * (2 ^ quantum f : Nat) = signedQuanta (s != false) (j * 2 ^ quantum f) :=
    signedQuanta_mul s false j (2 ^ quantum f)
  rw [hnum, natAbs_signedQuanta] at hle
  rw [(fpDiv_fin hj hk).1 hn.ne', hnum]
  exact rounds_roundW hn hw hle _

theorem rounds_intToW {n : Nat} (hw : HasQuanta f w c) (hle : ((n * 2 ^ quantum f : Nat) : Int) ≤ c) :
    ∃ z, Rounds f (n * 2 ^ quantum f : Nat) 1 (intToW f n) z :=
  rounds_roundW Nat.one_pos hw (by simpa using hle) false

end

end Sys2Proof.Machine
end

section
/-! PROOF. Every step keeps the levels of a prepared core in [0, 1], under the rounding of W (10_state.md R35, 43_envelope.md
R163). -/

namespace Sys2Proof.Machine

open Sys2Proof

/-- A level in [0, 1] is a number of quanta from 0 to that of 1. -/
theorem levelInRange_iff {f : Fmt} {v : Sample} :
    levelInRange f v ↔ ∃ z, HasQuanta f v z ∧ 0 ≤ z ∧ z ≤ (2 ^ quantum f : Nat) := by
  constructor
  · rintro ⟨h0, h1⟩
    cases hv : fpVal f v with
    | nan => simp [comparisons_of_nan (.inl hv)] at h1
    | inf s =>
      rw [(comparisons_fin_inf (fpVal_posZero f) hv).2.1] at h0
      rw [(comparisons_inf_fin hv (fpVal_oneW f)).2.1] at h1
      simp [h1] at h0
    | fin s k =>
      exact ⟨_, ⟨s, k, hv, rfl⟩, (comparisons_fin (fpVal_posZero f) hv).2.1.1 h0,
        (comparisons_fin hv (fpVal_oneW f)).2.1.1 h1⟩
  · rintro ⟨z, ⟨s, k, hv, rfl⟩, h0, h1⟩
    exact ⟨(comparisons_fin (fpVal_posZero f) hv).2.1.2 h0, (comparisons_fin hv (fpVal_oneW f)).2.1.2 h1⟩

theorem levelInRange_posZero (f : Fmt) : levelInRange f posZero := by
  constructor <;> cases f <;> decide +kernel

theorem levelInRange_oneW (f : Fmt) : levelInRange f (oneW f) := by
  constructor <;> cases f <;> decide +kernel

/-- Half the distance from 1 to the next value above it, in quanta. -/
def halfUlp (f : Fmt) : Nat := 2 ^ (quantum f - (fracBits f + 1))

theorem one_eq_halfUlp (f : Fmt) : 2 ^ quantum f = 2 ^ (fracBits f + 1) * halfUlp f := by
  rw [halfUlp, ← pow_add]
  congr 1
  cases f <;> rfl

section
variable {f : Fmt} {v : Sample} {x z : Int}

/-- Below 1 the format's values lie at most half an ulp of 1 apart, so a rounding moves by less. -/
theorem Rounds.lt_add_halfUlp (h : Rounds f x 1 v z) (h0 : 0 ≤ x) (h1 : x ≤ (2 ^ quantum f : Nat)) : z < x + halfUlp f := by
  have hpos : 0 < halfUlp f := Nat.two_pow_pos _
  obtain ⟨n, rfl⟩ := Int.eq_ofNat_of_zero_le h0
  rcases Nat.lt_or_ge n (2 ^ quantum f) with hn | hn
  · rw [one_eq_halfUlp] at hn
    have hq : IsQuanta f (n / halfUlp f * halfUlp f) :=
      ⟨n / halfUlp f, _, (Nat.div_lt_iff_lt_mul hpos).2 hn, by cases f <;> decide, rfl⟩
    have hnear := h.nearest _ _ (hasQuanta_roundW hq false)
    have hsplit := Nat.div_add_mod' n (halfUlp f)
    have hr := Nat.mod_lt n hpos
    simp only [signedQuanta, Bool.false_eq_true, if_false] at hnear
    omega
  · have := h.le Nat.one_pos (hasQuanta_oneW f) (by omega)
    omega

/-- From 1 on the format's values lie two half ulps apart, so what is nearer to 1 rounds to 1 at most. -/
theorem Rounds.le_one (h : Rounds f x 1 v z) (hx : x < (2 ^ quantum f : Nat) + halfUlp f) : z ≤ (2 ^ quantum f : Nat) := by
  by_contra hz
  have hone : 2 ^ quantum f = 2 ^ fracBits f * 2 ^ (quantum f - fracBits f) := by
    rw [← pow_add]; congr 1; cases f <;> rfl
  have hulp : 2 ^ (quantum f - fracBits f) = 2 * halfUlp f := by
    rw [halfUlp, ← pow_succ']; congr 1; cases f <;> rfl
  have hnear := h.nearest _ _ (hasQuanta_oneW f)
  have hstep : 2 ^ quantum f + 2 * halfUlp f ≤ z.natAbs := by
    rcases h.value.isQuanta.dvd_or_lt (quantum f - fracBits f) with hdvd | ⟨-, hlt⟩
    · obtain ⟨m, hm⟩ := hdvd
      rw [hone, ← hulp, hm, Nat.mul_comm _ m, ← Nat.succ_mul]
      refine Nat.mul_le_mul_right _ (Nat.succ_le_of_lt (Nat.lt_of_mul_lt_mul_right (a := 2 ^ (quantum f - fracBits f)) ?_))
      rw [← hone, Nat.mul_comm m, ← hm]
      omega
    · omega
  omega

end

/-- The rounded quotient of two rounded counters, the lesser by the greater, is in [0, 1]. -/
theorem levelInRange_quotient {f : Fmt} {n dur : Nat} (hn : n < dur) (hdur : dur ≤ u32Max) :
    levelInRange f (fpDiv f (intToW f n) (intToW f dur)) := by
  have hU := Nat.two_pow_pos (quantum f)
  have hone := hasQuanta_oneW f
  obtain ⟨big, hbig⟩ : ∃ w, HasQuanta f w (2 ^ (32 + quantum f) : Nat) := exists_hasQuanta_pow (by cases f <;> decide)
  rw [pow_add] at hbig
  have hmul : ∀ {k}, k ≤ dur → k * 2 ^ quantum f ≤ 2 ^ 32 * 2 ^ quantum f := fun hk =>
    Nat.mul_le_mul_right _ (hk.trans (hdur.trans (by decide)))
  have hlt : n * 2 ^ quantum f < dur * 2 ^ quantum f := Nat.mul_lt_mul_of_pos_right hn hU
  have hge : 2 ^ quantum f ≤ dur * 2 ^ quantum f := Nat.le_mul_of_pos_left _ (by omega)
  obtain ⟨a, ha⟩ := rounds_intToW hbig (Int.ofNat_le.2 (hmul hn.le))
  obtain ⟨b, hb⟩ := rounds_intToW hbig (Int.ofNat_le.2 (hmul le_rfl))
  have ha0 : 0 ≤ a := ha.ge Nat.one_pos (hasQuanta_posZero f) (by omega)
  have hb1 : (2 ^ quantum f : Nat) ≤ b := hb.ge Nat.one_pos hone (by omega)
  have hab : a ≤ b := ha.mono hb Nat.one_pos (Int.ofNat_lt.2 hlt)
  obtain ⟨m, rfl⟩ := Int.eq_ofNat_of_zero_le ha0
  obtain ⟨k, rfl⟩ := Int.eq_ofNat_of_zero_le (show 0 ≤ b by omega)
  have hratio : m * 2 ^ quantum f ≤ 2 ^ quantum f * k := by
    rw [Nat.mul_comm]; exact Nat.mul_le_mul_left _ (Int.ofNat_le.1 hab)
  obtain ⟨z, hz⟩ := rounds_fpDiv ha.value hb.value (by omega) hone (by exact_mod_cast hratio)
  exact levelInRange_iff.2 ⟨z, hz.value, hz.ge (by omega) (hasQuanta_posZero f) (by rw [Int.zero_mul]; positivity),
    hz.le (by omega) hone (by exact_mod_cast hratio)⟩

/-- Moving from one level towards another by a part in [0, 1] of their distance stays in [0, 1]: a rising move overshoots 1 by
less than half an ulp, which the last rounding takes back, and a falling one does not pass below 0. -/
theorem levelInRange_move {f : Fmt} {start target part : Sample} (hstart : levelInRange f start)
    (htarget : levelInRange f target) (hpart : levelInRange f part) :
    levelInRange f (fpAdd f start (fpMul f (fpSub f target start) part)) := by
  have hone := hasQuanta_oneW f
  have hzero := hasQuanta_posZero f
  have hU := Nat.two_pow_pos (quantum f)
  obtain ⟨two, htwo⟩ : ∃ w, HasQuanta f w (2 ^ (quantum f + 1) : Nat) := exists_hasQuanta_pow (by cases f <;> decide)
  rw [pow_succ] at htwo
  obtain ⟨s, hs, hs0, hs1⟩ := levelInRange_iff.1 hstart
  obtain ⟨t, ht, ht0, ht1⟩ := levelInRange_iff.1 htarget
  obtain ⟨q, hq, hq0, hq1⟩ := levelInRange_iff.1 hpart
  obtain ⟨d, hd⟩ := rounds_fpSub ht hs hone (by omega)
  rw [levelInRange_iff]
  rcases le_total s t with hst | hts
  · have hd0 : 0 ≤ d := hd.ge Nat.one_pos hzero (by omega)
    have hd1 : d ≤ (2 ^ quantum f : Nat) := hd.le Nat.one_pos hone (by omega)
    have hdlt := hd.lt_add_halfUlp (by omega) (by omega)
    have hdq : d * q ≤ d * (2 ^ quantum f : Nat) := Int.mul_le_mul_of_nonneg_left hq1 hd0
    have hdq0 : 0 ≤ d * q := Int.mul_nonneg hd0 hq0
    obtain ⟨p, hp⟩ := rounds_fpMul hd.value hq hd.value (by omega)
    have hp0 : 0 ≤ p := hp.ge hU hzero (by omega)
    have hpd : p ≤ d := hp.le hU hd.value hdq
    obtain ⟨z, hz⟩ := rounds_fpAdd hs hp.value htwo (by omega)
    exact ⟨z, hz.value, hz.ge Nat.one_pos hzero (by omega), hz.le_one (by omega)⟩
  · obtain ⟨negS, hnegS⟩ := hs.exists_neg
    have hd0 : d ≤ 0 := hd.le Nat.one_pos hzero (by omega)
    have hds : -s ≤ d := hd.ge Nat.one_pos hnegS (by omega)
    have hdq : d * (2 ^ quantum f : Nat) ≤ d * q := Int.mul_le_mul_of_nonpos_left hd0 hq1
    have hdq0 : d * q ≤ 0 := Int.mul_nonpos_of_nonpos_of_nonneg hd0 hq0
    obtain ⟨negD, hnegD⟩ := hd.value.exists_neg
    obtain ⟨p, hp⟩ := rounds_fpMul hd.value hq hnegD (by rw [Int.neg_mul]; omega)
    have hp0 : p ≤ 0 := hp.le hU hzero (by omega)
    have hdp : d ≤ p := hp.ge hU hd.value hdq
    obtain ⟨z, hz⟩ := rounds_fpAdd hs hp.value hone (by omega)
    exact ⟨z, hz.value, hz.ge Nat.one_pos hzero (by omega), hz.le Nat.one_pos hone (by omega)⟩

theorem levelInRange_rampLevel {f : Fmt} {start target : Sample} {n dur : Nat} (hstart : levelInRange f start)
    (htarget : levelInRange f target) (hn : n < dur) (hdur : dur ≤ u32Max) :
    levelInRange f (rampLevel f start target n dur) :=
  levelInRange_move hstart htarget (levelInRange_quotient hn hdur)

/-! The stage machine. -/

/-- An envelope's level and its ramp's start in [0, 1]. -/
structure LevelOk (f : Fmt) (e : EnvUnit) : Prop where
  level : levelInRange f e.level
  start : levelInRange f e.start

section
variable {f : Fmt} {e : EnvUnit}

theorem levelOk_enterSustain (hs : levelInRange f e.s) (h : levelInRange f e.start) : LevelOk f (enterSustain e) := ⟨hs, h⟩

theorem levelOk_enterOff (h : levelInRange f e.start) : LevelOk f (enterOff e) := ⟨levelInRange_posZero f, h⟩

theorem levelOk_enterDecay (hs : levelInRange f e.s) (h : levelInRange f e.level) : LevelOk f (enterDecay e) := by
  unfold enterDecay
  split_ifs
  · exact ⟨hs, h⟩
  · exact ⟨h, h⟩

theorem levelOk_completeAttack (hs : levelInRange f e.s) : LevelOk f (completeAttack f e) :=
  levelOk_enterDecay (e := { e with level := oneW f }) hs (levelInRange_oneW f)

theorem levelOk_enterAttack {p : Params} (hs : levelInRange p.fmt e.s) (h : levelInRange p.fmt e.level) :
    LevelOk p.fmt (enterAttack p e) := by
  unfold enterAttack
  have hv : levelInRange p.fmt (if p.attackFromCurrent = true then e.level else posZero) := by
    split_ifs
    · exact h
    · exact levelInRange_posZero p.fmt
  dsimp only
  generalize (if p.attackFromCurrent = true then e.level else posZero) = v at hv ⊢
  split_ifs
  · exact levelOk_completeAttack (e := { e with start := v, level := v, n := 0, stage := .attack }) hs
  · exact ⟨hv, hv⟩

theorem levelOk_enterRelease (h : levelInRange f e.level) : LevelOk f (enterRelease e) := by
  unfold enterRelease
  split_ifs
  · exact ⟨levelInRange_posZero f, h⟩
  · exact ⟨h, h⟩

theorem LevelOk.complete (h : LevelOk f e) (hs : levelInRange f e.s) : LevelOk f (complete f e) := by
  unfold Machine.complete
  cases e.stage with
  | attack => exact levelOk_completeAttack hs
  | decay => exact levelOk_enterSustain (e := { e with level := e.s }) hs h.start
  | release => exact levelOk_enterOff (e := { e with level := posZero }) h.start
  | idle | sustain | off => exact h

theorem LevelOk.rampStep (h : LevelOk f e) (hs : levelInRange f e.s) {target : Sample} (htarget : levelInRange f target)
    {dur : Nat} (hdur : dur ≤ u32Max) : LevelOk f (rampStep f target dur e) := by
  unfold Machine.rampStep
  dsimp only
  split_ifs with hn
  · exact LevelOk.complete (e := { e with n := e.n + 1 }) ⟨h.level, h.start⟩ hs
  · exact ⟨levelInRange_rampLevel h.start htarget (by omega) hdur, h.start⟩

theorem LevelOk.envStep (h : LevelOk f e) (he : EnvOk f e) : LevelOk f (envStep f e).2 := by
  have hs : levelInRange f e.s := he.sustainRange
  obtain ⟨hna, hnd, hnr, -⟩ := he.bounds
  unfold Machine.envStep
  cases e.stage with
  | attack => exact h.rampStep hs (levelInRange_oneW f) hna
  | decay => exact h.rampStep hs hs hnd
  | release => exact h.rampStep hs (levelInRange_posZero f) hnr
  | sustain => exact ⟨hs, h.start⟩
  | idle | off => exact h

theorem LevelOk.noteOff (h : LevelOk f e) : LevelOk f (noteOff e) := by
  unfold Machine.noteOff
  cases e.stage with
  | attack | decay | sustain => exact levelOk_enterRelease h.level
  | idle | release | off => exact h

theorem LevelOk.withEnvParams (h : LevelOk f e) {q : EnvParams} (hq : levelInRange f q.s) :
    LevelOk f (withEnvParams e q) := by
  refine ⟨?_, h.start⟩
  unfold Machine.withEnvParams
  dsimp only
  split_ifs
  · exact hq
  · exact h.level

end

theorem initEnv_levelOk {p : Params} {sr64 : Word} {u : BitVec 8} {r : EnvInit} {e : EnvUnit}
    (h : initEnv p sr64 u r = .ok e) : LevelOk p.fmt e := by
  have hzero := levelInRange_posZero p.fmt
  unfold initEnv at h
  split at h
  · cases h
  · next hq =>
    cases h
    split_ifs
    · exact levelOk_enterAttack (envParams_ok hq).1 hzero
    · exact ⟨hzero, hzero⟩

/-! The state. -/

/-- A prepared envelope with its level and start in range. -/
structure SoundingOk (f : Fmt) (e : EnvUnit) : Prop where
  unit : EnvOk f e
  levels : LevelOk f e

theorem SoundingOk.envStep {f : Fmt} {e : EnvUnit} (h : SoundingOk f e) : SoundingOk f (envStep f e).2 :=
  ⟨h.unit.envStep, h.levels.envStep h.unit⟩

/-- Every envelope of a prepared core is as the invariant says, with its levels in range. -/
def EnvelopesOk (s : State) : Prop := s.status.prepared = true → ∀ e ∈ s.env, SoundingOk s.params.fmt e

theorem EnvelopesOk.levels {s : State} (h : EnvelopesOk s) : LevelsOk s := fun hp e he =>
  ⟨(h hp e he).levels.level, (h hp e he).levels.start⟩

theorem EnvelopesOk.setEnv {s : State} (h : EnvelopesOk s) {u : Nat} {e : EnvUnit}
    (he : SoundingOk s.params.fmt (envAt s u) → SoundingOk s.params.fmt e) : EnvelopesOk (setEnv s u e) :=
  fun hp => forall_mem_set (h hp) he

theorem envelopesOk_keptByBlock (bs : Nat) : KeptByBlock bs EnvelopesOk where
  osc _ _ h := h
  flt _ _ _ h := h
  env s _ xs h := h.setEnv fun he => by
    refine runSamples_keeps (Q := SoundingOk s.params.fmt) (fun _ _ h => ?_) xs he
    exact h.envStep
  dly _ _ _ h := h
  scratch _ _ _ _ _ _ h := h

theorem Effect.envelopesOk {s t : State} {i : Instr} (h : EnvelopesOk s) (heff : Effect s i t) : EnvelopesOk t := by
  cases heff with
  | prepare _ _ _ hus =>
    intro _ e he
    obtain ⟨-, -, henv, -⟩ := prepareUnits_ok hus
    obtain ⟨_, _, hinit⟩ := mem_of_checkEach_ok henv he
    exact ⟨initEnv_ok hinit, initEnv_levelOk hinit⟩
  | processBlock => exact (envelopesOk_keptByBlock (u64 s.arg0)).runGraph h
  | envSetParams hparams =>
    exact h.setEnv fun he => ⟨he.unit.withEnvParams hparams, he.levels.withEnvParams (envParams_ok hparams).1⟩
  | envNoteOn =>
    exact h.setEnv fun he => ⟨he.unit.paramsOk.enterAttack, levelOk_enterAttack he.unit.sustainRange he.levels.level⟩
  | envNoteOff => exact h.setEnv fun he => ⟨he.unit.noteOff, he.levels.noteOff⟩
  | envNext => exact h.setEnv fun he => he.envStep
  | _ => exact h

/-- Settles O60: a ramp moves from its start towards its target by a part in [0, 1] of their distance (`levelInRange_move`). -/
theorem stepKeepsLevelsInRange : Obligations.StepKeepsLevelsInRange := by
  intro s t hinv hlevels hstep
  have henv : EnvelopesOk s := fun hp e he =>
    have ⟨hlevel, hstart⟩ := hlevels hp e he
    ⟨hinv.envelopes hp e he, hlevel, hstart⟩
  exact EnvelopesOk.levels (step_keeps (fun _ _ _ _ _ _ _ h => h) (fun _ _ hp => Bool.noConfusion hp)
    (fun _ _ _ => execute_keeps (fun _ _ _ _ _ h hp => h (prepared_of_errorEntry hp))
      fun _ _ _ h _ heff => heff.envelopesOk h) henv hstep)

end Sys2Proof.Machine
end

section
/-! PROOF. The obligations on the host address map: reads of mapped words, writes to read-only words, refused accesses
(20_memory.md R62 to R66). -/

namespace Sys2Proof.Machine

open Sys2Proof

/-- The word address of each host word (20_memory.md R62). -/
def HostWord.address : HostWord → Nat
  | .cmd => 0
  | .arg0 => 1
  | .arg1 => 2
  | .arg2 => 3
  | .arg3 => 4
  | .result => 5
  | .status => 6
  | .errCmd => 7
  | .config => 8
  | .outbuf i => 0x100000 + i

/-- The address map and the addresses agree. (Case `h_10` is the map's last row, which tests for OUTBUF.) -/
theorem address_of_hostWord {p : Params} {a : Addr} {r : HostWord} (h : hostWord p a = some r) :
    r.address = a.toNat := by
  unfold hostWord at h
  split at h
  case h_10 =>
    split_ifs at h with hrange
    cases h
    exact Nat.add_sub_cancel' hrange.1
  all_goals next ha => cases h; exact ha.symm

/-- The unmapped word addresses: those between `CONFIG` and OUTBUF, and those past OUTBUF (20_memory.md R62, R63). -/
theorem hostWord_eq_none_iff {p : Params} {a : Addr} :
    hostWord p a = none ↔ 9 ≤ a.toNat ∧ (a.toNat < 0x100000 ∨ 0x100000 + p.maxBlock ≤ a.toNat) := by
  unfold hostWord
  split
  case h_10 =>
    split
    · exact iff_of_false (Option.some_ne_none _) (by omega)
    · simp only [imp_false, true_iff] at *
      omega
  all_goals exact iff_of_false (Option.some_ne_none _) (by omega)

/-- Every other address is that of a host word. -/
theorem exists_hostWord {p : Params} {a : Addr}
    (h : a.toNat ≤ 8 ∨ (0x100000 ≤ a.toNat ∧ a.toNat < 0x100000 + p.maxBlock)) : ∃ r, hostWord p a = some r := by
  rw [← Option.ne_none_iff_exists', ne_eq, hostWord_eq_none_iff]
  omega

theorem eq_outbuf_of_le_address {r : HostWord} (h : 0x100000 ≤ r.address) : r = .outbuf (r.address - 0x100000) := by
  cases r with
  | outbuf i => rw [HostWord.address, Nat.add_sub_cancel_left]
  | _ => simp [HostWord.address] at h

theorem outbufRead_of_memRead {m : Mem} {i : Nat} {x : Word} (h : memRead .outbuf m i = some x) : outbufRead m i = x := by
  rw [outbufRead, h, Option.getD_some]

/-! What the port answers, by the word an address names. -/

theorem hostRead_of_hostWord {s : State} {a : Addr} {r : HostWord} (h : hostWord s.params a = some r) :
    hostRead a s = .next { s with readData := hostValue s r } := by
  simp only [hostRead, h]

/-- The words from `RESULT` on are read-only (20_memory.md R62, R66). -/
theorem hostWrite_of_readOnly {s : State} {a : Addr} {r : HostWord} (v : Word) (h : hostWord s.params a = some r)
    (hr : 5 ≤ r.address) : hostWrite a v s = .next s := by
  cases r with
  | cmd | arg0 | arg1 | arg2 | arg3 => simp [HostWord.address] at hr
  | result | status | errCmd | config | outbuf => simp only [hostWrite, h]

theorem hostRead_of_unmapped {s : State} {a : Addr} (h : hostWord s.params a = none) :
    hostRead a s = .refused (.unmappedAddress a) := by
  simp only [hostRead, h]

theorem hostWrite_of_unmapped {s : State} {a : Addr} (v : Word) (h : hostWord s.params a = none) :
    hostWrite a v s = .refused (.unmappedAddress a) := by
  simp only [hostWrite, h]

/-- A step takes the first pending event (log 11). -/
theorem step_of_pending {s : State} {e : Event} {rest : List Event} (h : s.pending = e :: rest) :
    step s = takeEvent e { s with pending := rest } := by
  simp only [step, h]

/-- Settles O8: the address names one host word, whose value is read. -/
theorem hostReadsMappedWords : Obligations.HostReadsMappedWords := by
  intro s a rest hpending hmapped
  obtain ⟨r, hr⟩ := exists_hostWord hmapped
  have hstep : step s = .next { s with readData := hostValue s r, pending := rest } :=
    (step_of_pending hpending).trans (hostRead_of_hostWord hr)
  have value (q : HostWord) (hq : hostWord s.params a = some q) : hostValue s r = hostValue s q :=
    congrArg (hostValue s) (Option.some.inj (hr.symm.trans hq))
  refine ⟨hostValue s r, hstep, fun h => value .cmd (h ▸ rfl), fun h => value .arg0 (h ▸ rfl),
    fun h => value .arg1 (h ▸ rfl), fun h => value .arg2 (h ▸ rfl), fun h => value .arg3 (h ▸ rfl),
    fun h => value .result (h ▸ rfl), fun h => value .status (h ▸ rfl), fun h => value .errCmd (h ▸ rfl),
    fun h => value .config (h ▸ rfl), fun x hle hx => ?_⟩
  rw [← address_of_hostWord hr] at hle hx
  rw [eq_outbuf_of_le_address hle]
  exact outbufRead_of_memRead hx

/-- Settles O11: no host word has the address, and a partial access is refused at every address. -/
theorem unmappedAccessIsRefused : Obligations.UnmappedAccessIsRefused := by
  intro s a rest
  refine ⟨fun haddr => ?_, fun hpending => step_of_pending hpending⟩
  have hnone : hostWord s.params a = none := hostWord_eq_none_iff.2 (by omega)
  exact ⟨fun hpending => (step_of_pending hpending).trans (hostRead_of_unmapped hnone),
    fun v hpending => (step_of_pending hpending).trans (hostWrite_of_unmapped v hnone)⟩

/-- Settles O10: these addresses name host words from `RESULT` on. -/
theorem readOnlyWritesAreIgnored : Obligations.ReadOnlyWritesAreIgnored := by
  intro s a v rest hpending haddr
  obtain ⟨r, hr⟩ := exists_hostWord (p := s.params) (a := a) (by omega)
  have hreadOnly : 5 ≤ r.address := by rw [address_of_hostWord hr]; omega
  exact (step_of_pending hpending).trans (hostWrite_of_readOnly v hr hreadOnly)

end Sys2Proof.Machine
end

section
/-! PROOF. The decoder and the encoder: each undoes the other, and a word is ILLEGAL exactly where 30_encoding.md R86 says so
(30_encoding.md R80 to R91). -/

namespace Sys2Proof.Machine

open Sys2Proof

/-! A word is its fields, and its bytes. -/

@[simp] theorem append_fields (w : CmdWord) : opField w ++ uField w ++ immField w = w := by
  simp only [opField, uField, immField]
  rw [BitVec.extractLsb'_append_extractLsb'_eq_extractLsb' (show 24 = 16 + 8 from rfl),
    BitVec.extractLsb'_append_extractLsb'_eq_extractLsb' (show 16 = 0 + 16 from rfl)]
  exact BitVec.extractLsb'_eq_self

@[simp] theorem append_bytes (w : CmdWord) :
    w.extractLsb' 24 8 ++ w.extractLsb' 16 8 ++ w.extractLsb' 8 8 ++ w.extractLsb' 0 8 = w := by
  rw [BitVec.extractLsb'_append_extractLsb'_eq_extractLsb' (show 24 = 16 + 8 from rfl),
    BitVec.extractLsb'_append_extractLsb'_eq_extractLsb' (show 16 = 8 + 8 from rfl),
    BitVec.extractLsb'_append_extractLsb'_eq_extractLsb' (show 8 = 0 + 8 from rfl)]
  exact BitVec.extractLsb'_eq_self

theorem word_ext_iff {w v : CmdWord} : w = v ↔ opField w = opField v ∧ uField w = uField v ∧ immField w = immField v := by
  refine ⟨fun h => h ▸ ⟨rfl, rfl, rfl⟩, fun ⟨hop, hu, himm⟩ => ?_⟩
  rw [← append_fields w, ← append_fields v, hop, hu, himm]

/-! The columns of the opcode map (30_encoding.md R85). -/

@[simp] theorem commandOf_fields (i : Instr) : commandOf (opcodeOf i) (unitOf i) (immOf i) = some i := by
  cases i <;> rfl

/-- The command of an opcode has that opcode, and the fields it uses are those given. (Case `h_17` is the reserved opcodes.) -/
theorem fields_of_commandOf {op u : BitVec 8} {imm : BitVec 16} {i : Instr} (h : commandOf op u imm = some i) :
    opcodeOf i = op ∧ (isHostCommand i = false → unitOf i = u) ∧ (usesImm i = true → immOf i = imm) := by
  unfold commandOf at h
  split at h
  case h_17 => cases h
  all_goals
    next hop =>
      cases h
      exact ⟨BitVec.eq_of_toNat_eq hop.symm, by simp [isHostCommand, Instr.target, unitOf], by simp [usesImm, immOf]⟩

theorem unitOf_of_isHostCommand {i : Instr} (h : isHostCommand i = true) : unitOf i = 0#8 := by
  rw [isHostCommand, Option.isNone_iff_eq_none] at h
  simp only [unitOf, h]

theorem immOf_of_not_usesImm {i : Instr} (h : usesImm i = false) : immOf i = 0#16 := by
  cases i with
  | oscSetWave u imm => cases h
  | _ => rfl

theorem isHostCommand_iff (i : Instr) : isHostCommand i = true ↔ opcodeOf i ∈ [0x01#8, 0x02#8] := by
  cases i <;> simp [isHostCommand, Instr.target, opcodeOf]

theorem usesImm_iff (i : Instr) : usesImm i = true ↔ opcodeOf i = 0x11#8 := by
  cases i <;> simp [usesImm, opcodeOf]

/-- The `OP` column of 30_encoding.md R85. -/
def opcodes : List (BitVec 8) :=
  [0x01#8, 0x02#8, 0x10#8, 0x11#8, 0x12#8, 0x20#8, 0x21#8, 0x22#8, 0x30#8, 0x31#8, 0x32#8, 0x33#8,
    0x40#8, 0x41#8, 0x42#8, 0x43#8]

/-- Exactly the opcodes of the table have a command. -/
theorem exists_commandOf_iff {op u : BitVec 8} {imm : BitVec 16} :
    (∃ i, commandOf op u imm = some i) ↔ op ∈ opcodes := by
  constructor
  · rintro ⟨i, hi⟩
    rw [← (fields_of_commandOf hi).1]
    cases i <;> simp [opcodeOf, opcodes]
  · have hall : ∀ op ∈ opcodes, ∃ i, commandOf op u imm = some i := by simp [opcodes, commandOf]
    exact hall op

/-! Which words decode, and to what (30_encoding.md R86, R88). -/

/-- A word is ILLEGAL where its opcode has no command, or a field that its command does not use is not 0. -/
theorem illegalWord_iff_of_commandOf {w : CmdWord} {i : Instr}
    (h : commandOf (opField w) (uField w) (immField w) = some i) :
    IllegalWord w ↔ (isHostCommand i = true ∧ uField w ≠ 0#8) ∨ (usesImm i = false ∧ immField w ≠ 0#16) := by
  have hmem : opField w ∈ opcodes := exists_commandOf_iff.1 ⟨i, h⟩
  rw [isHostCommand_iff, ← Bool.not_eq_true, usesImm_iff, (fields_of_commandOf h).1]
  exact or_iff_right (not_not_intro hmem)

theorem decodeWord_eq_ok_iff {w : CmdWord} {i : Instr} :
    decodeWord w = .ok i ↔ commandOf (opField w) (uField w) (immField w) = some i ∧ ¬IllegalWord w := by
  unfold decodeWord
  cases hc : commandOf (opField w) (uField w) (immField w) with
  | none => simp
  | some j =>
    rw [illegalWord_iff_of_commandOf hc]
    dsimp only
    split_ifs <;> simp_all

/-- Decoding finds the command whose fields the word holds. -/
theorem decodeWord_eq_ok_iff_fields {w : CmdWord} {i : Instr} :
    decodeWord w = .ok i ↔ opField w = opcodeOf i ∧ uField w = unitOf i ∧ immField w = immOf i := by
  rw [decodeWord_eq_ok_iff]
  constructor
  · rintro ⟨hc, hlegal⟩
    obtain ⟨hop, hu, himm⟩ := fields_of_commandOf hc
    rw [illegalWord_iff_of_commandOf hc] at hlegal
    push Not at hlegal
    refine ⟨hop.symm, ?_, ?_⟩
    · cases hhost : isHostCommand i with
      | true => rw [hlegal.1 hhost, unitOf_of_isHostCommand hhost]
      | false => exact (hu hhost).symm
    · cases huses : usesImm i with
      | true => exact (himm huses).symm
      | false => rw [hlegal.2 huses, immOf_of_not_usesImm huses]
  · rintro ⟨hop, hu, himm⟩
    have hc : commandOf (opField w) (uField w) (immField w) = some i := by rw [hop, hu, himm, commandOf_fields]
    refine ⟨hc, ?_⟩
    rw [illegalWord_iff_of_commandOf hc, hu, himm]
    push Not
    exact ⟨unitOf_of_isHostCommand, immOf_of_not_usesImm⟩

theorem exists_decodeWord_ok_iff {w : CmdWord} : (∃ i, decodeWord w = .ok i) ↔ ¬IllegalWord w := by
  simp only [decodeWord_eq_ok_iff, exists_and_right, exists_commandOf_iff]
  exact and_iff_right_of_imp fun hlegal => not_not.1 fun hop => hlegal (.inl hop)

theorem exists_decodeWord_error_iff {w : CmdWord} : (∃ e, decodeWord w = .error e) ↔ IllegalWord w := by
  rw [← not_iff_not, ← exists_decodeWord_ok_iff]
  cases decodeWord w <;> simp

theorem decodeWord_encode (i : Instr) : decodeWord (encode i) = .ok i :=
  decodeWord_eq_ok_iff_fields.2 (Laws.EncodeFields.fields i)

/-- Settles O1: the fields of an encoding are its command's (`Laws.EncodeFields.fields`), and its four bytes make its word. -/
theorem decodeOfEncode : Obligations.DecodeOfEncode := by
  intro i rest
  refine ⟨decodeWord_encode i, ?_⟩
  simp only [encodeBytes, List.cons_append, List.nil_append, decodeBytes, append_bytes, decodeWord_encode]

/-- Settles O2: a word and the encoding of its command have the same three fields. -/
theorem encodeOfDecode : Obligations.EncodeOfDecode := by
  intro w i h
  obtain ⟨hop, hu, himm⟩ := decodeWord_eq_ok_iff_fields.1 h
  rw [encode, ← hop, ← hu, ← himm, append_fields]

/-! The error of an illegal word (30_encoding.md R86). -/

/-- The first error of a command that is not PREPARE (60_exceptions.md R243, R246). -/
theorem errorEntry_eq_withError {s : State} (e : CmdError) (w : CmdWord) (h : s.status.fault = false) :
    errorEntry e w false s = withError e.code e.unit w s := by
  simp [errorEntry, withError, h]

theorem execute_of_decodeWord_error {w : CmdWord} {r : Illegal} (s : State) (h : decodeWord w = .error r) :
    execute w s = .next (illegalCommand w s) := by
  simp only [execute, h]

theorem illegalCommand_of_not_fault {s : State} (w : CmdWord) (h : s.status.fault = false) :
    illegalCommand w s = withError .prgIllegalCommand 0#8 w s := by
  simp [illegalCommand_eq, withError, h]

/-- Settles O3: the decoder's three errors are the three conditions of R86 (`exists_decodeWord_error_iff`). -/
theorem illegalWordsRaise : Obligations.IllegalWordsRaise := by
  intro w
  refine ⟨exists_decodeWord_error_iff, fun hw s hfault => ?_⟩
  obtain ⟨r, hr⟩ := exists_decodeWord_error_iff.2 hw
  rw [execute_of_decodeWord_error s hr, illegalCommand_of_not_fault w hfault]

/-- Settles O5: each word is the encoding of its command. -/
theorem listedWordsDecode : Obligations.ListedWordsDecode :=
  have h := decodeWord_encode
  ⟨h .prepare, h .processBlock, h (.oscSetFreq 0), h (.oscSetWave 0 0), h (.oscSetWave 0 1), h (.oscNext 0),
    h (.fltSetParams 0), h (.fltProcess 0), h (.fltReset 0), h (.envSetParams 0), h (.envNoteOn 0), h (.envNoteOff 0),
    h (.envNext 0), h (.dlySetDelay 0), h (.dlySetFeedback 0), h (.dlyProcess 0), h (.dlyReset 0), h (.oscNext 3)⟩

end Sys2Proof.Machine
end

section
/-! PROOF. The rows of the opcode table partition the legal words as the decoder does (30_encoding.md R85, R88). -/

namespace Sys2Proof.Machine

open Sys2Proof

/-- A row's match and mask pair tests `OP`, and each other field unless the row's command uses it. -/
def RowOf (r : OpcodeRow) (i : Instr) : Prop :=
  mnemonicOf i = r.mnemonic ∧
  opField r.mask = BitVec.allOnes 8 ∧
  uField r.mask = (if isHostCommand i then BitVec.allOnes 8 else 0#8) ∧ uField r.value = 0#8 ∧
  immField r.mask = (if usesImm i then 0#16 else BitVec.allOnes 16) ∧ immField r.value = 0#16

theorem exists_rowOf {r : OpcodeRow} (hr : r ∈ opcodeTable) (u : BitVec 8) (imm : BitVec 16) :
    ∃ i, commandOf (opField r.value) u imm = some i ∧ RowOf r i := by
  fin_cases hr <;> exact ⟨_, rfl, rfl, rfl, rfl, rfl, rfl, rfl⟩

theorem rowMatches_iff {r : OpcodeRow} {w : CmdWord} :
    rowMatches r w = true ↔ opField w &&& opField r.mask = opField r.value ∧
      uField w &&& uField r.mask = uField r.value ∧ immField w &&& immField r.mask = immField r.value := by
  rw [rowMatches, beq_iff_eq, word_ext_iff]
  simp only [opField, uField, immField, BitVec.extractLsb'_and]

/-- A word that matches a row decodes to the row's command. -/
theorem decodeWord_of_rowMatches {r : OpcodeRow} {w : CmdWord} (hr : r ∈ opcodeTable) (h : rowMatches r w = true) :
    ∃ i, decodeWord w = .ok i ∧ mnemonicOf i = r.mnemonic := by
  obtain ⟨i, hc, hname, hopMask, huMask, huValue, himmMask, himmValue⟩ := exists_rowOf hr (uField w) (immField w)
  obtain ⟨hop, hu, himm⟩ := rowMatches_iff.1 h
  rw [hopMask, BitVec.and_allOnes] at hop
  rw [← hop] at hc
  refine ⟨i, decodeWord_eq_ok_iff.2 ⟨hc, ?_⟩, hname⟩
  rw [illegalWord_iff_of_commandOf hc]
  push Not
  constructor
  · intro hhost
    rwa [huMask, if_pos hhost, BitVec.and_allOnes, huValue] at hu
  · intro huses
    rwa [himmMask, huses, if_neg Bool.false_ne_true, BitVec.and_allOnes, himmValue] at himm

theorem encodeFields (i : Instr) : Laws.EncodeFields.Statement i := by
  cases i with
  | prepare => exact Laws.EncodeFields.prepare
  | processBlock => exact Laws.EncodeFields.processBlock
  | oscSetFreq u => exact Laws.EncodeFields.oscSetFreq u
  | oscSetWave u imm => exact Laws.EncodeFields.oscSetWave u imm
  | oscNext u => exact Laws.EncodeFields.oscNext u
  | fltSetParams u => exact Laws.EncodeFields.fltSetParams u
  | fltProcess u => exact Laws.EncodeFields.fltProcess u
  | fltReset u => exact Laws.EncodeFields.fltReset u
  | envSetParams u => exact Laws.EncodeFields.envSetParams u
  | envNoteOn u => exact Laws.EncodeFields.envNoteOn u
  | envNoteOff u => exact Laws.EncodeFields.envNoteOff u
  | envNext u => exact Laws.EncodeFields.envNext u
  | dlySetDelay u => exact Laws.EncodeFields.dlySetDelay u
  | dlySetFeedback u => exact Laws.EncodeFields.dlySetFeedback u
  | dlyProcess u => exact Laws.EncodeFields.dlyProcess u
  | dlyReset u => exact Laws.EncodeFields.dlyReset u

/-- A legal word matches the row of its command. -/
theorem exists_rowMatches_of_decodeWord {w : CmdWord} {i : Instr} (h : decodeWord w = .ok i) :
    ∃ r ∈ opcodeTable, r.mnemonic = mnemonicOf i ∧ rowMatches r w = true := by
  obtain ⟨-, -, -, hrow⟩ := encodeFields i
  rwa [encodeOfDecode w i h] at hrow

theorem nodup_mnemonics : (opcodeTable.map OpcodeRow.mnemonic).Nodup := by decide

/-- The names of the rows a legal word matches: that of its command, once. -/
theorem matching_mnemonics_of_decodeWord {w : CmdWord} {i : Instr} (h : decodeWord w = .ok i) :
    (opcodeTable.filter (fun r => rowMatches r w)).map OpcodeRow.mnemonic = [mnemonicOf i] := by
  have hnodup : ((opcodeTable.filter (fun r => rowMatches r w)).map OpcodeRow.mnemonic).Nodup :=
    nodup_mnemonics.sublist (List.filter_sublist.map _)
  rw [← List.perm_singleton, List.perm_ext_iff_of_nodup hnodup (List.nodup_singleton _)]
  intro name
  simp only [List.mem_map, List.mem_filter, List.mem_singleton]
  constructor
  · rintro ⟨r, ⟨hr, hmatch⟩, rfl⟩
    obtain ⟨j, hj, hname⟩ := decodeWord_of_rowMatches hr hmatch
    rw [← hname, Except.ok.inj (hj.symm.trans h)]
  · rintro rfl
    obtain ⟨r, hr, hname, hmatch⟩ := exists_rowMatches_of_decodeWord h
    exact ⟨r, ⟨hr, hmatch⟩, hname⟩

theorem matching_rows_of_illegalWord {w : CmdWord} (h : IllegalWord w) :
    opcodeTable.filter (fun r => rowMatches r w) = [] := by
  rw [List.filter_eq_nil_iff]
  intro r hr hmatch
  obtain ⟨i, hi, -⟩ := decodeWord_of_rowMatches hr hmatch
  exact (decodeWord_eq_ok_iff.1 hi).2 h

/-- Settles O4: a word matches a row exactly where it decodes to that row's command, and no two rows have one name. -/
theorem decodingMatchesOpcodeTable : Obligations.DecodingMatchesOpcodeTable := by
  intro w
  refine ⟨fun h => ⟨exists_decodeWord_error_iff.2 h, matching_rows_of_illegalWord h⟩, fun h => ?_⟩
  obtain ⟨i, hi⟩ := exists_decodeWord_ok_iff.2 h
  obtain ⟨hop, hu, himm⟩ := decodeWord_eq_ok_iff_fields.1 hi
  exact ⟨i, hi, hop.symm, hu.symm, himm.symm, matching_mnemonics_of_decodeWord hi⟩

end Sys2Proof.Machine
end

section
/-! PROOF. OSC_SET_WAVE by its waveform code (30_encoding.md R87, 41_oscillator.md R122). -/

namespace Sys2Proof.Machine

open Sys2Proof

theorem waveOfCode_zero : waveOfCode 0#16 = some .sine := rfl

theorem waveOfCode_one : waveOfCode 1#16 = some .saw := rfl

theorem waveOfCode_eq_none {imm : BitVec 16} (h0 : imm ≠ 0#16) (h1 : imm ≠ 1#16) : waveOfCode imm = none := by
  rw [waveOfCode, if_neg h0, if_neg h1]

section

variable {u : BitVec 8} {imm : BitVec 16} {s : State}

theorem exec_oscSetWave_of_code {wave : Waveform} (hready : Ready s (.oscSetWave u imm)) (hcode : waveOfCode imm = some wave) :
    exec (.oscSetWave u imm) s = .next (setOsc s u.toNat { oscAt s u.toNat with wave := wave }) := by
  simp only [exec, execOscSetWave, runCommand_ready hready, hcode, finish]

theorem exec_oscSetWave_of_no_code (hready : Ready s (.oscSetWave u imm)) (hcode : waveOfCode imm = none) :
    exec (.oscSetWave u imm) s = .next (withError .cfgWaveform u (encode (.oscSetWave u imm)) s) := by
  simp only [exec, execOscSetWave, runCommand_ready hready, hcode, finish]
  rw [show isPrepare (.oscSetWave u imm) = false from rfl, errorEntry_eq_withError _ _ hready.noFault]

end

/-- Settles O31: every code is a legal word (`decodeWord_encode`), and `waveOfCode` names the waveform of 0 and 1 alone. -/
theorem oscSetWaveSelectsByCode : Obligations.OscSetWaveSelectsByCode := by
  intro u imm s
  refine ⟨decodeWord_encode _, fun hready => ⟨?_, ?_, fun h0 h1 => ?_⟩⟩
  · rintro rfl
    exact exec_oscSetWave_of_code hready waveOfCode_zero
  · rintro rfl
    exact exec_oscSetWave_of_code hready waveOfCode_one
  · exact exec_oscSetWave_of_no_code hready (waveOfCode_eq_none h0 h1)

end Sys2Proof.Machine
end

section
/-! PROOF. The execution cycle of a command word: its order of checks, and what its end leaves in STATUS and ERRCMD
(40_command_common.md R101 to R103, 45_graph.md R232). -/

namespace Sys2Proof.Machine

open Sys2Proof

/-! The execution cycle of a command. -/

/-- Every command goes through the one execution cycle, with a body of its own (40_command_common.md R101). -/
theorem exec_eq_runCommand (i : Instr) : ∃ body, exec i = runCommand i body := by
  cases i <;> exact ⟨_, rfl⟩

theorem execute_of_decodeWord_ok {w : CmdWord} {i : Instr} (s : State) (h : decodeWord w = .ok i) :
    execute w s = exec i s := by
  simp only [execute, h]

/-- Settles O19: an illegal word takes its error, a legal one runs through the execution cycle, which always answers. -/
theorem everyWordRunsToANextState : Obligations.EveryWordRunsToANextState := by
  intro w s
  cases hw : decodeWord w with
  | error r => exact ⟨_, execute_of_decodeWord_error s hw⟩
  | ok i =>
    obtain ⟨body, hbody⟩ := exec_eq_runCommand i
    rw [execute_of_decodeWord_ok s hw, hbody]
    exact runCommand_answers i body s

/-! The common checks. -/

theorem isPrepare_eq_false {i : Instr} (h : i ≠ .prepare) : isPrepare i = false := by simpa [isPrepare] using h

theorem ne_prepare_of_target {i : Instr} {k : UnitKind} {u : BitVec 8} (h : i.target = some (k, u)) : i ≠ .prepare := by
  rintro rfl
  cases h

theorem commonChecks_of_not_prepared {s : State} {i : Instr} (hi : i ≠ .prepare) (hs : s.status.prepared = false) :
    commonChecks s i = .error { code := .prgNotPrepared, unit := 0#8 } := by
  simp [commonChecks, isPrepare_eq_false hi, hs]

theorem commonChecks_of_missing_unit {s : State} {i : Instr} {k : UnitKind} {u : BitVec 8}
    (hs : s.status.prepared = true) (htarget : i.target = some (k, u)) (hu : s.params.count k ≤ u.toNat) :
    commonChecks s i = .error { code := .prgBadUnit, unit := u } := by
  simp [commonChecks, hs, Instr.wf, unitOf, htarget, hu]

/-- A command that fails a common check of a core that is not faulted leaves that check's error. -/
theorem execute_of_commonChecks_error {w : CmdWord} {i : Instr} {s : State} {e : CmdError} (hw : decodeWord w = .ok i)
    (hi : i ≠ .prepare) (hfault : s.status.fault = false) (hcheck : commonChecks s i = .error e) :
    execute w s = .next (withError e.code e.unit w s) := by
  obtain ⟨body, hbody⟩ := exec_eq_runCommand i
  have hcycle : runCommand i body s = .next (errorEntry e (encode i) (isPrepare i) s) := by
    simp [runCommand, ignored, hfault, hcheck, finish]
  rw [execute_of_decodeWord_ok s hw, hbody, hcycle, encodeOfDecode w i hw, isPrepare_eq_false hi,
    errorEntry_eq_withError e w hfault]

/-- Settles O14: the decoder comes before the execution cycle, whose common checks are the other two. -/
theorem commonChecksInOrder : Obligations.CommonChecksInOrder := by
  intro s w hfault
  refine ⟨fun hw => ?_, fun i hw hi hprepared => ?_, fun i k u hw hprepared htarget hu => ?_⟩
  · exact (illegalWordsRaise w).2 (exists_decodeWord_error_iff.1 hw) s hfault
  · exact execute_of_commonChecks_error hw hi hfault (commonChecks_of_not_prepared hi hprepared)
  · exact execute_of_commonChecks_error hw (ne_prepare_of_target htarget) hfault
      (commonChecks_of_missing_unit hprepared htarget hu)

/-! The end of a command word. -/

theorem decodeWord_eq_prepare_iff {w : CmdWord} : decodeWord w = .ok .prepare ↔ w = 0x01000000#32 :=
  ⟨fun h => (encodeOfDecode w .prepare h).symm, fun h => h ▸ decodeWord_encode .prepare⟩

theorem isPrepare_of_decodeWord {w : CmdWord} {i : Instr} (h : decodeWord w = .ok i) :
    isPrepare i = decide (w = 0x01000000#32) := by
  rw [Bool.eq_iff_iff, isPrepare_iff, decide_eq_true_iff, ← decodeWord_eq_prepare_iff, h, Except.ok.injEq]

/-- The fault gate (40_command_common.md R101, 60_exceptions.md R247). -/
theorem execute_of_fault {w : CmdWord} {s : State} (hfault : s.status.fault = true) (hw : decodeWord w ≠ .ok .prepare) :
    execute w s = .next s := by
  cases hd : decodeWord w with
  | error r => simp [execute_of_decodeWord_error s hd, illegalCommand, hfault]
  | ok i =>
    obtain ⟨body, hbody⟩ := exec_eq_runCommand i
    have hi : i ≠ .prepare := fun h => hw (h ▸ hd)
    simp [execute_of_decodeWord_ok s hd, hbody, runCommand, ignored, hfault, isPrepare_eq_false hi]

/-- Everything a command word can do (40_command_common.md R101 to R103): change nothing, raise an error, or have its command's
effect. The PREPARE word always does one of the last two, and it alone does so on a faulted core. -/
inductive ExecutesWord (s : State) (w : CmdWord) (t : State) : Prop
  | unchanged (hword : decodeWord w ≠ .ok .prepare) (h : t = s)
  | error {e : CmdError} (hgate : s.status.fault = true → decodeWord w = .ok .prepare) (hcode : RaisedCode e.code)
      (h : t = errorEntry e w (decide (w = 0x01000000#32)) s)
  | effect {i : Instr} (hgate : s.status.fault = true → decodeWord w = .ok .prepare) (hword : decodeWord w = .ok i)
      (h : Effect s i t)

/-- PREPARE passes the gate and the common checks, so its own checks decide. -/
theorem executesWord_of_prepare {w : CmdWord} {s t : State} (hw : decodeWord w = .ok .prepare)
    (h : execute w s = .next t) : ExecutesWord s w t := by
  have hbody : Answers s .prepare (prepareBody s) := prepareBody_answers s
  have ht : finish s .prepare (prepareBody s) = t := by
    rw [execute_of_decodeWord_ok s hw] at h
    exact Host.Outcome.next.inj ((runCommand_prepare prepareBody s).symm.trans h)
  cases hb : prepareBody s with
  | error e =>
    rw [hb] at hbody ht
    refine .error (fun _ => hw) hbody ?_
    rw [← ht, finish, encodeOfDecode w _ hw, isPrepare_of_decodeWord hw]
  | ok t' =>
    rw [hb] at hbody ht
    exact .effect (fun _ => hw) hw (ht ▸ hbody)

theorem execute_executesWord {w : CmdWord} {s t : State} (h : execute w s = .next t) : ExecutesWord s w t := by
  by_cases hprepare : decodeWord w = .ok .prepare
  · exact executesWord_of_prepare hprepare h
  cases hfault : s.status.fault with
  | true =>
    rw [execute_of_fault hfault hprepare] at h
    exact .unchanged hprepare (Host.Outcome.next.inj h).symm
  | false =>
    have hgate : s.status.fault = true → decodeWord w = .ok .prepare := by simp [hfault]
    rcases execute_next h with ⟨r, -, ht⟩ | ⟨i, hw, h⟩
    · have hword : w ≠ 0x01000000#32 := mt decodeWord_eq_prepare_iff.2 hprepare
      refine .error (e := { code := .prgIllegalCommand, unit := 0#8 }) hgate (by simp [RaisedCode]) ?_
      simp [ht, illegalCommand, hfault, hword]
    · cases exec_next h with
      | ignored ht => exact .unchanged hprepare ht
      | error hcode ht =>
        rw [encodeOfDecode w i hw, isPrepare_of_decodeWord hw] at ht
        exact .error hgate hcode ht
      | effect _ heff => exact .effect hgate hw heff

/-- No command but PREPARE has an effect on `STATUS` or `ERRCMD` (40_command_common.md R112). -/
theorem Effect.keeps_flags {s t : State} {i : Instr} (h : Effect s i t) (hi : i ≠ .prepare) :
    t.status = s.status ∧ t.errCmd = s.errCmd := by
  cases h with
  | prepare => exact absurd rfl hi
  | processBlock =>
    obtain ⟨_, _, _, _, _, _, h⟩ := sameRegisters_blockResult s (u64 s.arg0)
    rw [h]
    exact ⟨rfl, rfl⟩
  | _ => exact ⟨rfl, rfl⟩

/-- What a successful PREPARE leaves in `STATUS` and `ERRCMD` (45_graph.md R220, 60_exceptions.md R248). -/
theorem Effect.prepare_flags {s t : State} (h : Effect s .prepare t) :
    t.status = { prepared := true, fault := false, errCode := .noError, errUnit := 0#8 } ∧ t.errCmd = 0#32 := by
  cases h
  exact ⟨rfl, rfl⟩

/-- A command that has its effect leaves the core not faulted. -/
theorem Effect.fault_eq_false {s t : State} {i : Instr} {w : CmdWord} (h : Effect s i t) (hw : decodeWord w = .ok i)
    (hgate : s.status.fault = true → decodeWord w = .ok .prepare) : t.status.fault = false := by
  by_cases hi : i = .prepare
  · subst hi
    rw [h.prepare_flags.1]
  · rw [(h.keeps_flags hi).1, Bool.eq_false_iff]
    exact fun hfault => hi (Except.ok.inj (hw.symm.trans (hgate hfault)))

/-- Settles O15: the error entry writes `STATUS` and `ERRCMD` only, and a command that has an effect leaves no fault. -/
theorem errorsHaveNoPartialEffect : Obligations.ErrorsHaveNoPartialEffect := by
  intro w s t h
  cases execute_executesWord h with
  | unchanged _ ht =>
    subst ht
    exact ⟨fun _ => rfl, fun _ _ => rfl⟩
  | error hgate _ ht =>
    subst ht
    exact ⟨fun _ => rfl, fun hfault hw => absurd (hgate hfault) hw⟩
  | effect hgate hword heff =>
    have hnone : t.status.fault = false := heff.fault_eq_false hword hgate
    exact ⟨fun hfault => by simp [hnone] at hfault, fun hfault hw => absurd (hgate hfault) hw⟩

/-- Settles O17: an error leaves a fault, so the word did nothing or had its effect. -/
theorem successWritesNoFlags : Obligations.SuccessWritesNoFlags := by
  intro w s t h hnone
  rw [ne_eq, ← decodeWord_eq_prepare_iff]
  cases execute_executesWord h with
  | unchanged hword ht =>
    subst ht
    exact ⟨fun _ => ⟨rfl, rfl⟩, fun hw => absurd hw hword⟩
  | error _ _ ht =>
    subst ht
    simp at hnone
  | effect _ hword heff =>
    refine ⟨fun hw => heff.keeps_flags fun hi => hw (hi ▸ hword), fun hw => ?_⟩
    obtain rfl := Except.ok.inj (hword.symm.trans hw)
    exact heff.prepare_flags

end Sys2Proof.Machine
end

section
/-! PROOF. OSC_SET_FREQ and OSC_NEXT, and the commands that leave every phase alone (41_oscillator.md R120 to R128). -/

namespace Sys2Proof.Machine

open Sys2Proof

/-! A ready command by the answer of its body. -/

section

variable {s : State} {i : Instr} {body : State → Except CmdError State}

theorem runCommand_ready_of_ok {t : State} (hready : Ready s i) (hbody : body s = .ok t) : runCommand i body s = .next t := by
  rw [runCommand_ready hready, hbody, finish]

theorem runCommand_ready_of_error {e : CmdError} (hready : Ready s i) (hi : i ≠ .prepare) (hbody : body s = .error e) :
    runCommand i body s = .next (withError e.code e.unit (encode i) s) := by
  rw [runCommand_ready hready, hbody, finish, isPrepare_eq_false hi, errorEntry_eq_withError e _ hready.noFault]

end

/-! The frequency check (41_oscillator.md R120, R121). -/

theorem finitePos_iff_checks {f : Fmt} {v : Sample} : finitePos f v = true ↔ isFinite f v = true ∧ fpLt f posZero v = true := by
  rw [finitePos, Bool.and_eq_true]

section

variable {f : Fmt} {srW : Sample} {freq : Word}

theorem oscFrequency_of_valid (u : BitVec 8) (hf : finitePos f (toW f freq) = true)
    (hinc : finitePos f (oscInc f srW (toW f freq)) = true) :
    oscFrequency f srW freq u = .ok (toW f freq, oscInc f srW (toW f freq)) :=
  if_pos (Bool.and_eq_true_iff.2 ⟨hf, hinc⟩)

theorem oscFrequency_of_invalid (u : BitVec 8)
    (h : ¬(finitePos f (toW f freq) = true ∧ finitePos f (oscInc f srW (toW f freq)) = true)) :
    oscFrequency f srW freq u = .error { code := .cfgFrequency, unit := u } :=
  if_neg fun hpos => h (Bool.and_eq_true_iff.1 hpos)

end

/-- Settles O30: the two cases are those of the command's frequency check. -/
theorem oscSetFreqStoresFrequencyAndIncrement : Obligations.OscSetFreqStoresFrequencyAndIncrement := by
  intro u s hready f fW incW valid
  have hvalid : valid ↔ finitePos f fW = true ∧ finitePos f incW = true := by
    rw [finitePos_iff_checks, finitePos_iff_checks, and_assoc]
  rw [hvalid]
  refine ⟨fun ⟨hf, hinc⟩ => ?_, fun h => ?_⟩ <;> unfold exec execOscSetFreq
  · refine runCommand_ready_of_ok hready ?_
    rw [oscFrequency_of_valid u hf hinc]
    rfl
  · refine runCommand_ready_of_error (e := { code := .cfgFrequency, unit := u }) hready (by simp) ?_
    rw [oscFrequency_of_invalid u h]

/-- Settles O32: `oscStep` pairs the output with the advanced unit, and the output is by waveform and saw mode. -/
theorem oscNextOutputsThenAdvances : Obligations.OscNextOutputsThenAdvances := by
  intro u s hready f o y
  have hy : y = waveOut s.params o.wave o.phase := by
    cases hwave : o.wave with
    | sine => simp only [y, f, waveOut, hwave]
    | saw => cases hsaw : s.params.sawMode <;> simp only [y, f, waveOut, sawW, hwave, hsaw]
  rw [hy]
  unfold exec execOscNext
  exact runCommand_ready_of_ok hready rfl

/-! Who writes a phase (41_oscillator.md R128). -/

/-- Every oscillator of `t` has the phase it has in `s`. -/
def SamePhases (s t : State) : Prop := t.osc.map OscUnit.phase = s.osc.map OscUnit.phase

theorem samePhases_setOsc {s : State} {u : Nat} {o : OscUnit} (ho : o.phase = (oscAt s u).phase) :
    SamePhases s (setOsc s u o) := by
  rw [SamePhases, setOsc_osc, List.map_set, ho]
  rcases lt_or_ge u s.osc.length with hu | hu
  · rw [oscAt, List.getD_eq_getElem _ _ hu, ← List.getElem_map OscUnit.phase (h := by simpa using hu), List.set_getElem_self]
  · rw [List.set_eq_of_length_le (by simpa using hu)]

theorem Effect.samePhases {s t : State} {i : Instr} (h : Effect s i t) (hprepare : i ≠ .prepare)
    (hblock : i ≠ .processBlock) (hnext : ∀ u, i ≠ .oscNext u) : SamePhases s t := by
  cases h with
  | prepare => exact absurd rfl hprepare
  | processBlock => exact absurd rfl hblock
  | oscNext => exact absurd rfl (hnext _)
  | oscSetFreq | oscSetWave => exact samePhases_setOsc rfl
  | _ => rfl

/-- Settles O33: neither an error nor the effect of any other command writes a phase. -/
theorem phaseIsContinuous : Obligations.PhaseIsContinuous := by
  intro i s t h hprepare hblock hnext v
  have hsame : SamePhases s t := by
    cases exec_next h with
    | ignored h => exact h ▸ rfl
    | error _ h => exact h ▸ rfl
    | effect _ h => exact h.samePhases hprepare hblock hnext
  rw [← List.getElem?_map, ← List.getElem?_map, hsame]

end Sys2Proof.Machine
end

section
/-! PROOF. FLT_SET_PARAMS, FLT_PROCESS and FLT_RESET (42_biquad.md R140 to R144, R149). -/

namespace Sys2Proof.Machine

open Sys2Proof

/-! The checks of a filter's parameters, in their order (42_biquad.md R140, R141). -/

section

variable {f : Fmt} {srW fcW qW : Sample}

theorem fltCheck_of_bad_cutoff (u : BitVec 8) (h : ¬(finitePos f fcW = true ∧ fpLt f fcW (fpDiv f srW (twoW f)) = true)) :
    fltCheck f srW fcW qW u = .error { code := .cfgCutoff, unit := u } := by
  rw [← Bool.and_eq_true, Bool.not_eq_true] at h
  rw [fltCheck, h]
  rfl

theorem fltCheck_of_cutoff (u : BitVec 8) (h : finitePos f fcW = true ∧ fpLt f fcW (fpDiv f srW (twoW f)) = true) :
    fltCheck f srW fcW qW u = if finitePos f qW then .ok () else .error { code := .cfgQ, unit := u } := by
  obtain ⟨hpos, hlt⟩ := h
  rw [fltCheck, hpos, hlt]
  cases finitePos f qW <;> rfl

end

/-- `b2` is `b0` in R142's formulas, so four checks decide the five coefficients. -/
theorem coefsFinite_iff {f : Fmt} {c : Coefs} (hb2 : c.b2 = c.b0) :
    coefsFinite f c = true ↔
      isFinite f c.b0 = true ∧ isFinite f c.b1 = true ∧ isFinite f c.a1 = true ∧ isFinite f c.a2 = true := by
  simp only [coefsFinite, hb2, Bool.and_eq_true]
  tauto

section

variable {p : Params} {srW : Sample} {cutoff q : Word}

theorem fltParams_of_bad_cutoff (u : BitVec 8)
    (h : ¬(finitePos p.fmt (toW p.fmt cutoff) = true ∧ fpLt p.fmt (toW p.fmt cutoff) (fpDiv p.fmt srW (twoW p.fmt)) = true)) :
    fltParams p srW cutoff q u = .error { code := .cfgCutoff, unit := u } := by
  simp only [fltParams, sampleArg, f64, fltCheck_of_bad_cutoff u h]

/-- With a legal cutoff, a failure of Q and a failure of the coefficients are the same error (42_biquad.md R140). -/
theorem fltParams_of_cutoff (u : BitVec 8)
    (h : finitePos p.fmt (toW p.fmt cutoff) = true ∧ fpLt p.fmt (toW p.fmt cutoff) (fpDiv p.fmt srW (twoW p.fmt)) = true) :
    fltParams p srW cutoff q u =
      if finitePos p.fmt (toW p.fmt q) && coefsFinite p.fmt (fltCoef p srW (toW p.fmt cutoff) (toW p.fmt q)) then
        .ok (toW p.fmt cutoff, toW p.fmt q, fltCoef p srW (toW p.fmt cutoff) (toW p.fmt q))
      else .error { code := .cfgQ, unit := u } := by
  simp only [fltParams, sampleArg, f64, fltCheck_of_cutoff u h]
  cases finitePos p.fmt (toW p.fmt q) <;> rfl

end

/-! FLT_SET_PARAMS by the answer of its checks. -/

section

variable {u : BitVec 8} {s : State}

theorem exec_fltSetParams_of_ok {fcW qW : Sample} {c : Coefs} (hready : Ready s (.fltSetParams u))
    (hparams : fltParams s.params s.srW s.arg0 s.arg1 u = .ok (fcW, qW, c)) :
    exec (.fltSetParams u) s = .next (setFlt s u.toNat (withCoefs (fltAt s u.toNat) fcW qW c)) := by
  unfold exec execFltSetParams
  exact runCommand_ready_of_ok hready (by rw [hparams])

theorem exec_fltSetParams_of_error {e : CmdError} (hready : Ready s (.fltSetParams u))
    (hparams : fltParams s.params s.srW s.arg0 s.arg1 u = .error e) :
    exec (.fltSetParams u) s = .next (withError e.code e.unit (encode (.fltSetParams u)) s) := by
  unfold exec execFltSetParams
  exact runCommand_ready_of_error hready (by simp) (by rw [hparams])

end

/-- Settles O34: the three cases are those of `fltParams`, and the statement's formulas are the fields of `fltCoef`. -/
theorem fltSetParamsStoresCoefficients : Obligations.FltSetParamsStoresCoefficients := by
  intro u s hready f fc q w0 cs alpha a0 t b0 b1 a1 a2 cutoffOk qOk coefsOk
  have hcutoff : cutoffOk ↔ finitePos f fc = true ∧ fpLt f fc (fpDiv f s.srW (twoW f)) = true := by
    rw [finitePos_iff_checks, and_assoc]
  have hq : qOk ↔ finitePos f q = true := finitePos_iff_checks.symm
  have hcoefs : coefsOk ↔ coefsFinite f (fltCoef s.params s.srW fc q) = true :=
    (coefsFinite_iff (c := fltCoef s.params s.srW fc q) rfl).symm
  rw [hcutoff, hq, hcoefs]
  refine ⟨fun hbad => ?_, fun hok hbad => ?_, fun hok hqok hcok => ?_⟩
  · exact exec_fltSetParams_of_error hready (fltParams_of_bad_cutoff u hbad)
  · exact exec_fltSetParams_of_error hready ((fltParams_of_cutoff u hok).trans (if_neg (hbad ∘ Bool.and_eq_true_iff.1)))
  · exact exec_fltSetParams_of_ok hready ((fltParams_of_cutoff u hok).trans (if_pos (Bool.and_eq_true_iff.2 ⟨hqok, hcok⟩)))

/-- Settles O35: the command makes no check of its own, and `fltStep` pairs the output with the shifted history. -/
theorem fltProcessAppliesRecursion : Obligations.FltProcessAppliesRecursion := by
  intro u s hready f F x y
  unfold exec execFltProcess
  exact runCommand_ready_of_ok hready rfl

/-- Settles O36: the command makes no check of its own, and `clearHistory` writes the history alone. -/
theorem fltResetClearsHistory : Obligations.FltResetClearsHistory := by
  intro u s hready
  unfold exec execFltReset
  exact runCommand_ready_of_ok hready rfl

end Sys2Proof.Machine
end

section
/-! PROOF. The durations of an envelope, and ENV_SET_PARAMS, ENV_NOTE_ON, ENV_NOTE_OFF and ENV_NEXT (43_envelope.md R160 to
R173). -/

namespace Sys2Proof.Machine

open Sys2Proof

/-! Durations in samples (43_envelope.md R161). -/

/-- The rounded count is the integer part of the value plus one half. -/
theorem roundTAQuanta_bounds (k : Nat) :
    2 * roundTAQuanta k * 2 ^ quantum .binary64 ≤ 2 * k + 2 ^ quantum .binary64 ∧
    2 * k + 2 ^ quantum .binary64 < 2 * (roundTAQuanta k + 1) * 2 ^ quantum .binary64 := by
  rw [Nat.mul_right_comm, Nat.mul_right_comm 2 (_ + 1)]
  exact ⟨Nat.mul_div_le _ _, Nat.lt_mul_div_succ _ (Nat.mul_pos Nat.two_pos (Nat.two_pow_pos _))⟩

section

variable {sr64 sec : Word} (u : BitVec 8)

theorem durSamples_of_bad_duration (h : ¬(isFinite .binary64 sec = true ∧ fpLe .binary64 posZero sec = true)) :
    durSamples sr64 sec u = .error { code := .cfgEnvelope, unit := u } := by
  rw [← Bool.and_eq_true, Bool.not_eq_true] at h
  rw [durSamples, h]
  rfl

theorem durSamples_of_nonfinite_product (h : isFinite .binary64 (fpMul .binary64 sec sr64) = false) :
    durSamples sr64 sec u = .error { code := .cfgEnvelope, unit := u } := by
  unfold durSamples
  cases hval : fpVal .binary64 (fpMul .binary64 sec sr64) with
  | nan | inf => simp only [ite_self]
  | fin s k => rw [isFinite_iff.2 ⟨s, k, hval⟩] at h; cases h

theorem durSamples_of_finite_product {neg : Bool} {k : Nat} (hfin : isFinite .binary64 sec = true)
    (hpos : fpLe .binary64 posZero sec = true) (hval : fpVal .binary64 (fpMul .binary64 sec sr64) = .fin neg k) :
    durSamples sr64 sec u =
      if u32Max < roundTAQuanta k then .error { code := .cfgEnvelope, unit := u } else .ok (roundTAQuanta k) := by
  simp only [durSamples, hfin, hpos, hval, Bool.and_self, Bool.not_true, Bool.false_eq_true, if_false]

end

/-- Settles O28: the count is `roundTAQuanta` of the product, the integer part of the product plus one half. -/
theorem durationsRoundToNearestSample : Obligations.DurationsRoundToNearestSample := by
  intro sr64 sec u
  refine ⟨durSamples_of_bad_duration u, durSamples_of_nonfinite_product u, fun hfin hpos neg k hval => ?_⟩
  have hdur := durSamples_of_finite_product u hfin hpos hval
  have hbounds := roundTAQuanta_bounds k
  rw [show quantum .binary64 = 1074 from rfl] at hbounds
  obtain ⟨hlow, hhigh⟩ := hbounds
  exact ⟨roundTAQuanta k, hlow, hhigh, fun hle => hdur.trans (if_neg (not_lt.2 hle)), fun hlt => hdur.trans (if_pos hlt)⟩

/-! The checks of an envelope's parameters (43_envelope.md R160). -/

theorem durSamples_eq_error {sr64 sec : Word} {u : BitVec 8} {e : CmdError} (h : durSamples sr64 sec u = .error e) :
    e = { code := .cfgEnvelope, unit := u } := by
  cases hok : (durSamples sr64 sec 0#8).isOk with
  | true => obtain ⟨n, hn⟩ := (durSamples_check sr64 sec u).1 hok; rw [hn] at h; cases h
  | false => rw [(durSamples_check sr64 sec u).2 hok] at h; cases h; rfl

section

variable {f : Fmt} {v : Word}

theorem sustainLevel_of_valid (u : BitVec 8) (h : fpLe f posZero (toW f v) = true ∧ fpLe f (toW f v) (oneW f) = true) :
    sustainLevel f v u = .ok (dropZeroSign f (toW f v)) :=
  if_pos (Bool.and_eq_true_iff.2 h)

theorem sustainLevel_eq_error {u : BitVec 8} {e : CmdError} (h : sustainLevel f v u = .error e) :
    e = { code := .cfgEnvelope, unit := u } := by
  simp only [sustainLevel] at h
  split_ifs at h
  cases h
  rfl

theorem sustainLevel_of_invalid (u : BitVec 8) (h : ¬(fpLe f posZero (toW f v) = true ∧ fpLe f (toW f v) (oneW f) = true)) :
    sustainLevel f v u = .error { code := .cfgEnvelope, unit := u } :=
  if_neg fun hrange => h (Bool.and_eq_true_iff.1 hrange)

end

section

variable {f : Fmt} {sr64 a d v r : Word} {u : BitVec 8}

theorem envParams_of_valid {na nd nr : Nat} {sW : Sample} (ha : durSamples sr64 a u = .ok na)
    (hd : durSamples sr64 d u = .ok nd) (hs : sustainLevel f v u = .ok sW) (hr : durSamples sr64 r u = .ok nr) :
    envParams f sr64 a d v r u = .ok { na := na, nd := nd, s := sW, nr := nr } := by
  simp only [envParams, f64, ha, hd, hs, hr]

/-- Every failure of the four checks is the same error, so their order does not show. -/
theorem envParams_of_invalid
    (h : (∃ x, durSamples sr64 a u = .error x) ∨ (∃ x, durSamples sr64 d u = .error x) ∨
      (∃ x, sustainLevel f v u = .error x) ∨ (∃ x, durSamples sr64 r u = .error x)) :
    envParams f sr64 a d v r u = .error { code := .cfgEnvelope, unit := u } := by
  simp only [envParams, f64]
  cases ha : durSamples sr64 a u with
  | error x => rw [durSamples_eq_error ha]
  | ok na =>
    cases hd : durSamples sr64 d u with
    | error x => rw [durSamples_eq_error hd]
    | ok nd =>
      cases hs : sustainLevel f v u with
      | error x => rw [sustainLevel_eq_error hs]
      | ok sW =>
        cases hr : durSamples sr64 r u with
        | error x => rw [durSamples_eq_error hr]
        | ok nr => simp [ha, hd, hs, hr] at h

end

/-! The envelope commands by what they leave of a ready core. -/

section

variable {u : BitVec 8} {s : State}

theorem exec_envSetParams_of_ok {q : EnvParams} (hready : Ready s (.envSetParams u))
    (hparams : envParams s.params.fmt s.sr64 s.arg0 s.arg1 s.arg2 s.arg3 u = .ok q) :
    exec (.envSetParams u) s = .next (setEnv s u.toNat (withEnvParams (envAt s u.toNat) q)) := by
  unfold exec execEnvSetParams
  exact runCommand_ready_of_ok hready (by rw [hparams])

theorem exec_envSetParams_of_error {e : CmdError} (hready : Ready s (.envSetParams u))
    (hparams : envParams s.params.fmt s.sr64 s.arg0 s.arg1 s.arg2 s.arg3 u = .error e) :
    exec (.envSetParams u) s = .next (withError e.code e.unit (encode (.envSetParams u)) s) := by
  unfold exec execEnvSetParams
  exact runCommand_ready_of_error hready (by simp) (by rw [hparams])

theorem exec_envNoteOn (hready : Ready s (.envNoteOn u)) :
    exec (.envNoteOn u) s = .next (setEnv s u.toNat (enterAttack s.params (envAt s u.toNat))) := by
  unfold exec execEnvNoteOn
  exact runCommand_ready_of_ok hready rfl

theorem exec_envNoteOff (hready : Ready s (.envNoteOff u)) :
    exec (.envNoteOff u) s = .next (setEnv s u.toNat (noteOff (envAt s u.toNat))) := by
  unfold exec execEnvNoteOff
  exact runCommand_ready_of_ok hready rfl

theorem exec_envNext (hready : Ready s (.envNext u)) :
    exec (.envNext u) s =
      .next (setResult (setEnv s u.toNat (envStep s.params.fmt (envAt s u.toNat)).2) (envAt s u.toNat).level) := by
  unfold exec execEnvNext
  exact runCommand_ready_of_ok hready rfl

end

/-- Settles O38: the four checks pass, or one of them fails and every failure is the same error. -/
theorem envSetParamsStoresParameters : Obligations.EnvSetParamsStoresParameters := by
  intro u s hready f e sW sustainOk sus
  refine ⟨fun na nd nr ha hd hs hr => ?_, fun hbad => ?_⟩
  · exact exec_envSetParams_of_ok hready (envParams_of_valid ha hd (sustainLevel_of_valid u hs) hr)
  · exact exec_envSetParams_of_error hready
      (envParams_of_invalid (hbad.imp_right (Or.imp_right (Or.imp_left fun hs => ⟨_, sustainLevel_of_invalid u hs⟩))))

/-! Entering and completing a stage, as the unit it leaves (43_envelope.md R164 to R169). -/

section

variable {p : Params} {e : EnvUnit}

theorem enterAttack_of_attack (h : 0 < e.na) :
    enterAttack p e =
      { e with
        start := if p.attackFromCurrent then e.level else posZero
        level := if p.attackFromCurrent then e.level else posZero
        n := 0, stage := .attack } :=
  if_neg h.ne'

theorem enterAttack_of_no_attack (hna : e.na = 0) (hnd : 0 < e.nd) :
    enterAttack p e = { e with start := oneW p.fmt, level := oneW p.fmt, n := 0, stage := .decay } :=
  (if_pos hna).trans (if_neg hnd.ne')

theorem enterAttack_of_no_attack_no_decay (hna : e.na = 0) (hnd : e.nd = 0) :
    enterAttack p e = { e with start := oneW p.fmt, level := e.s, n := 0, stage := .sustain } :=
  (if_pos hna).trans (if_pos hnd)

/-- The stages a note-off ends (43_envelope.md R171). -/
def Sounding (e : EnvUnit) : Prop := e.stage = .attack ∨ e.stage = .decay ∨ e.stage = .sustain

theorem noteOff_of_sounding (h : Sounding e) : noteOff e = enterRelease e := by
  unfold noteOff
  rcases h with h | h | h <;> rw [h]

theorem noteOff_of_not_sounding (h : ¬Sounding e) : noteOff e = e := by
  unfold noteOff
  cases hst : e.stage with
  | attack | decay | sustain => exact absurd (by simp [Sounding, hst]) h
  | idle | release | off => rfl

theorem enterRelease_of_release (h : 0 < e.nr) : enterRelease e = { e with start := e.level, n := 0, stage := .release } :=
  if_neg h.ne'

theorem enterRelease_of_no_release (h : e.nr = 0) :
    enterRelease e = { e with start := e.level, level := posZero, n := 0, stage := .off } :=
  if_pos h

end

/-- Settles O39: an attack starts, or completes at once into Decay, or with it into Sustain. -/
theorem envNoteOnStartsAttack : Obligations.EnvNoteOnStartsAttack := by
  intro u s hready f e from0
  rw [exec_envNoteOn hready]
  refine ⟨fun hna => ?_, fun hna hnd => ?_, fun hna hnd => ?_⟩
  · rw [enterAttack_of_attack hna]
    rfl
  · rw [enterAttack_of_no_attack hna hnd]
    rfl
  · rw [enterAttack_of_no_attack_no_decay hna hnd]
    rfl

/-- Writing an envelope back as it is changes nothing. -/
theorem setEnv_envAt (s : State) (u : Nat) : setEnv s u (envAt s u) = s := by
  have hset : s.env.set u (envAt s u) = s.env := by
    rcases lt_or_ge u s.env.length with hu | hu
    · rw [envAt, List.getD_eq_getElem _ _ hu, List.set_getElem_self]
    · exact List.set_eq_of_length_le hu
  rw [setEnv, hset]

/-- Settles O40: a sounding envelope enters Release, or Off at once, and any other is written back as it is. -/
theorem envNoteOffStartsRelease : Obligations.EnvNoteOffStartsRelease := by
  intro u s hready e sounding
  rw [exec_envNoteOff hready]
  refine ⟨fun hsound hnr => ?_, fun hsound hnr => ?_, fun hsilent => ?_⟩
  · rw [noteOff_of_sounding hsound, enterRelease_of_release hnr]
    rfl
  · rw [noteOff_of_sounding hsound, enterRelease_of_no_release hnr]
    rfl
  · rw [noteOff_of_not_sounding hsilent, setEnv_envAt]

/-! One sample of each stage (43_envelope.md R169, R173). -/

section

variable {f : Fmt} {e : EnvUnit}

theorem rampStep_of_lt {target : Sample} {dur : Nat} (h : e.n + 1 < dur) :
    rampStep f target dur e = { e with n := e.n + 1, level := rampLevel f e.start target (e.n + 1) dur } :=
  if_neg (not_le.2 h)

theorem rampStep_of_ge {target : Sample} {dur : Nat} (h : dur ≤ e.n + 1) :
    rampStep f target dur e = complete f { e with n := e.n + 1 } :=
  if_pos h

theorem envStep_attack (hst : e.stage = .attack) : (envStep f e).2 = rampStep f (oneW f) e.na e := by
  simp only [envStep, hst]

theorem envStep_decay (hst : e.stage = .decay) : (envStep f e).2 = rampStep f e.s e.nd e := by
  simp only [envStep, hst]

theorem envStep_release (hst : e.stage = .release) : (envStep f e).2 = rampStep f posZero e.nr e := by
  simp only [envStep, hst]

theorem envStep_sustain (hst : e.stage = .sustain) : (envStep f e).2 = { e with level := e.s } := by
  simp only [envStep, hst]

theorem envStep_silent (hst : e.stage = .idle ∨ e.stage = .off) : (envStep f e).2 = e := by
  rcases hst with hst | hst <;> simp only [envStep, hst]

/-- The last sample of an attack (43_envelope.md R169). -/
theorem envStep_attack_ends (hst : e.stage = .attack) (h : e.na ≤ e.n + 1) :
    (envStep f e).2 =
      if e.nd = 0 then { e with start := oneW f, level := e.s, n := 0, stage := .sustain }
      else { e with start := oneW f, level := oneW f, n := 0, stage := .decay } := by
  rw [envStep_attack hst, rampStep_of_ge h, complete]
  simp only [hst]
  rfl

/-- The last sample of a decay (43_envelope.md R169). -/
theorem envStep_decay_ends (hst : e.stage = .decay) (h : e.nd ≤ e.n + 1) :
    (envStep f e).2 = { e with level := e.s, n := 0, stage := .sustain } := by
  rw [envStep_decay hst, rampStep_of_ge h, complete]
  simp only [hst]
  rfl

/-- The last sample of a release (43_envelope.md R169). -/
theorem envStep_release_ends (hst : e.stage = .release) (h : e.nr ≤ e.n + 1) :
    (envStep f e).2 = { e with level := posZero, n := 0, stage := .off } := by
  rw [envStep_release hst, rampStep_of_ge h, complete]
  simp only [hst]
  rfl

end

/-- Settles O41: the statement's next unit is that of `envStep`, stage by stage. -/
theorem envNextAdvancesOneSample : Obligations.EnvNextAdvancesOneSample := by
  intro u s hready f e ramp next
  have hnext : (envStep f e).2 = next := by
    cases hst : e.stage with
    | attack =>
      simp only [next, hst]
      split_ifs with hn hnd
      · rw [envStep_attack hst, rampStep_of_lt hn, hst]
        rfl
      · rw [envStep_attack_ends hst (not_lt.1 hn), if_pos hnd]
      · rw [envStep_attack_ends hst (not_lt.1 hn), if_neg hnd]
    | decay =>
      simp only [next, hst]
      split_ifs with hn
      · rw [envStep_decay hst, rampStep_of_lt hn, hst]
        rfl
      · exact envStep_decay_ends hst (not_lt.1 hn)
    | release =>
      simp only [next, hst]
      split_ifs with hn
      · rw [envStep_release hst, rampStep_of_lt hn, hst]
        rfl
      · exact envStep_release_ends hst (not_lt.1 hn)
    | sustain =>
      simp only [next, hst]
      rw [envStep_sustain hst, hst]
    | idle =>
      simp only [next, hst]
      exact envStep_silent (.inl hst)
    | off =>
      simp only [next, hst]
      exact envStep_silent (.inr hst)
  rw [exec_envNext hready, hnext]
  rfl

end Sys2Proof.Machine
end

section
/-! PROOF. The sequences of outputs of ENV_NEXT after a note-on and after a note-off (43_envelope.md R174, R175). -/

namespace Sys2Proof.Machine

open Sys2Proof

theorem envAt_setEnv_self {s : State} {u : Nat} (e : EnvUnit) (hu : u < s.env.length) : envAt (setEnv s u e) u = e := by
  rw [envAt, setEnv_env, List.getD_eq_getElem _ _ (by rwa [List.length_set]), List.getElem_set_self]

theorem Inv.envIndex_lt {s : State} (h : Inv s) {i : Instr} {u : BitVec 8} (hready : Ready s i)
    (hi : i.target = some (.env, u)) : u.toNat < s.env.length := by
  have hu := hready.unitExists
  simp only [Instr.wf, hi, decide_eq_true_eq] at hu
  exact hu.trans_eq h.envCount.symm

/-- Whether a command is ready depends on `STATUS`, the parameters and the unit it names. -/
theorem Ready.transfer {s t : State} {i j : Instr} (h : Ready s i) (hstatus : t.status = s.status)
    (hparams : t.params = s.params) (htarget : j.target = i.target) : Ready t j where
  noFault := hstatus ▸ h.noFault
  prepared := hstatus ▸ h.prepared
  unitExists := by
    have hi := h.unitExists
    rwa [hparams, Instr.wf, htarget, ← Instr.wf]

/-- Repeated ENV_NEXT outputs the levels that the unit runs through. -/
theorem repeatCommand_envNext {f : Fmt} {u : BitVec 8} (k : Nat) :
    ∀ {s : State} {unit : Nat → EnvUnit}, Ready s (.envNext u) → u.toNat < s.env.length → s.params.fmt = f →
      envAt s u.toNat = unit 0 → (∀ j, (envStep f (unit j)).2 = unit (j + 1)) →
      ∃ t, repeatCommand (.envNext u) k s = some ((List.range k).map (fun j => to64 f (unit j).level), t) := by
  induction k with
  | zero => exact fun _ _ _ _ _ => ⟨_, rfl⟩
  | succ k ih =>
    intro s unit hready hu hf h0 hstep
    obtain ⟨t, ht⟩ := ih (s := setResult (setEnv s u.toNat (unit 1)) (unit 0).level) (unit := fun j => unit (j + 1))
      (hready.transfer rfl rfl rfl) (by simpa using hu) hf (envAt_setEnv_self _ hu) (fun j => hstep (j + 1))
    refine ⟨t, ?_⟩
    simp only [repeatCommand, exec_envNext hready, hf, h0, hstep 0, ht]
    rw [List.range_succ_eq_map, List.map_cons, List.map_map, setResult_result, setEnv_params, hf]
    rfl

/-- A unit whose ramp has run for `j` samples towards a target (43_envelope.md R163). -/
def onRamp (f : Fmt) (target : Sample) (dur : Nat) (e : EnvUnit) (j : Nat) : EnvUnit :=
  { e with n := j, level := if j = 0 then e.start else rampLevel f e.start target j dur }

section

variable {f : Fmt} {e : EnvUnit}

theorem rampStep_onRamp {target : Sample} {dur j : Nat} (h : j + 1 < dur) :
    rampStep f target dur (onRamp f target dur e j) = onRamp f target dur e (j + 1) :=
  rampStep_of_lt h

/-! From a note-on at level 0 (43_envelope.md R174). -/

/-- Attack from level 0. -/
def attackStart (e : EnvUnit) : EnvUnit := { e with start := posZero, level := posZero, n := 0, stage := .attack }

/-- Decay from level 1. -/
def decayStart (f : Fmt) (e : EnvUnit) : EnvUnit := { e with start := oneW f, level := oneW f, n := 0, stage := .decay }

/-- Sustain after an attack. -/
def sustained (f : Fmt) (e : EnvUnit) : EnvUnit := { e with start := oneW f, level := e.s, n := 0, stage := .sustain }

/-- The unit `j` samples after a note-on from level 0 with `NA > 0`. -/
def attackUnit (f : Fmt) (e : EnvUnit) (j : Nat) : EnvUnit :=
  if j < e.na then onRamp f (oneW f) e.na (attackStart e) j
  else if j < e.na + e.nd then onRamp f e.s e.nd (decayStart f e) (j - e.na)
  else sustained f e

theorem attackUnit_of_attack {j : Nat} (h : j < e.na) : attackUnit f e j = onRamp f (oneW f) e.na (attackStart e) j :=
  if_pos h

theorem attackUnit_of_decay {j : Nat} (hna : e.na ≤ j) (h : j < e.na + e.nd) :
    attackUnit f e j = onRamp f e.s e.nd (decayStart f e) (j - e.na) :=
  (if_neg (not_lt.2 hna)).trans (if_pos h)

theorem attackUnit_of_sustain {j : Nat} (h : e.na + e.nd ≤ j) : attackUnit f e j = sustained f e :=
  (if_neg (by omega)).trans (if_neg (not_lt.2 h))

/-- The unit an attack's last sample leaves, whether or not a decay follows. -/
theorem attackUnit_na : attackUnit f e e.na = if e.nd = 0 then sustained f e else decayStart f e := by
  split_ifs with hnd
  · exact attackUnit_of_sustain (by omega)
  · rw [attackUnit_of_decay le_rfl (by omega), Nat.sub_self]
    rfl

theorem envStep_attackUnit (j : Nat) : (envStep f (attackUnit f e j)).2 = attackUnit f e (j + 1) := by
  rcases Nat.lt_or_ge j e.na with hattack | hna
  · rw [attackUnit_of_attack hattack]
    rcases Nat.lt_or_ge (j + 1) e.na with hnext | hlast
    · rw [attackUnit_of_attack hnext, envStep_attack rfl]
      exact rampStep_onRamp hnext
    · rw [show j + 1 = e.na by omega, attackUnit_na]
      exact envStep_attack_ends rfl hlast
  rcases Nat.lt_or_ge j (e.na + e.nd) with hdecay | hsustain
  · rw [attackUnit_of_decay hna hdecay]
    rcases Nat.lt_or_ge (j + 1) (e.na + e.nd) with hnext | hlast
    · rw [attackUnit_of_decay (by omega) hnext, envStep_decay rfl, Nat.succ_sub hna]
      exact rampStep_onRamp (show j - e.na + 1 < e.nd by omega)
    · rw [attackUnit_of_sustain hlast]
      exact envStep_decay_ends rfl (show e.nd ≤ j - e.na + 1 by omega)
  · rw [attackUnit_of_sustain hsustain, attackUnit_of_sustain (by omega)]
    exact envStep_sustain rfl

theorem level_attackUnit (hna : 0 < e.na) (j : Nat) : (attackUnit f e j).level = attackOutput f e j := by
  unfold attackOutput
  split_ifs with h0 hattack hnd hpeak hdecay
  · rw [h0, attackUnit_of_attack hna]
    rfl
  · rw [attackUnit_of_attack hattack]
    exact if_neg h0
  · rw [attackUnit_of_sustain (by omega)]
    rfl
  · rw [hpeak, attackUnit_na, if_neg hnd]
    rfl
  · rw [attackUnit_of_decay (by omega) hdecay]
    exact if_neg (by omega)
  · rw [attackUnit_of_sustain (by omega)]
    rfl

/-! From a note-off of a sounding envelope (43_envelope.md R175). -/

/-- Release from the current level. -/
def releaseStart (e : EnvUnit) : EnvUnit := { e with start := e.level, n := 0, stage := .release }

/-- Off after a release. -/
def released (e : EnvUnit) : EnvUnit := { e with start := e.level, level := posZero, n := 0, stage := .off }

/-- The unit `j` samples after a note-off with `NR > 0`. -/
def releaseUnit (f : Fmt) (e : EnvUnit) (j : Nat) : EnvUnit :=
  if j < e.nr then onRamp f posZero e.nr (releaseStart e) j else released e

theorem releaseUnit_of_release {j : Nat} (h : j < e.nr) :
    releaseUnit f e j = onRamp f posZero e.nr (releaseStart e) j :=
  if_pos h

theorem releaseUnit_of_off {j : Nat} (h : e.nr ≤ j) : releaseUnit f e j = released e := if_neg (not_lt.2 h)

theorem envStep_releaseUnit (j : Nat) : (envStep f (releaseUnit f e j)).2 = releaseUnit f e (j + 1) := by
  rcases Nat.lt_or_ge j e.nr with hrelease | hoff
  · rw [releaseUnit_of_release hrelease]
    rcases Nat.lt_or_ge (j + 1) e.nr with hnext | hlast
    · rw [releaseUnit_of_release hnext, envStep_release rfl]
      exact rampStep_onRamp hnext
    · rw [releaseUnit_of_off hlast]
      exact envStep_release_ends rfl hlast
  · rw [releaseUnit_of_off hoff, releaseUnit_of_off (by omega)]
    exact envStep_silent (.inr rfl)

theorem level_releaseUnit (hnr : 0 < e.nr) (j : Nat) : (releaseUnit f e j).level = releaseOutput f e j := by
  unfold releaseOutput
  split_ifs with h0 hrelease
  · rw [h0, releaseUnit_of_release hnr]
    rfl
  · rw [releaseUnit_of_release hrelease]
    exact if_neg h0
  · rw [releaseUnit_of_off (not_lt.1 hrelease)]
    rfl

end

/-- Settles O42: the unit runs through `attackUnit`, whose levels are the outputs. -/
theorem attackDecaySustainSequence : Obligations.AttackDecaySustainSequence := by
  intro u s hinv hready hfrom hna
  have hu := hinv.envIndex_lt hready rfl
  have hstart : enterAttack s.params (envAt s u.toNat) = attackStart (envAt s u.toNat) := by
    have hzero : (if s.params.attackFromCurrent then (envAt s u.toNat).level else posZero) = posZero := by
      rcases hfrom with h | h <;> simp [h]
    rw [enterAttack_of_attack hna, hzero]
    rfl
  refine ⟨_, exec_envNoteOn hready, fun k => ?_⟩
  simp only [← level_attackUnit hna]
  exact repeatCommand_envNext k (hready.transfer rfl rfl rfl) (by simpa using hu) rfl
    ((envAt_setEnv_self _ hu).trans (hstart.trans (attackUnit_of_attack hna).symm)) envStep_attackUnit

/-- Settles O43: the unit runs through `releaseUnit`, whose levels are the outputs. -/
theorem releaseSequence : Obligations.ReleaseSequence := by
  intro u s hinv hready hsound hnr
  have hu := hinv.envIndex_lt hready rfl
  have hstart : noteOff (envAt s u.toNat) = releaseStart (envAt s u.toNat) :=
    (noteOff_of_sounding hsound).trans (enterRelease_of_release hnr)
  refine ⟨_, exec_envNoteOff hready, fun k => ?_⟩
  simp only [← level_releaseUnit hnr]
  exact repeatCommand_envNext k (hready.transfer rfl rfl rfl) (by simpa using hu) rfl
    ((envAt_setEnv_self _ hu).trans (hstart.trans (releaseUnit_of_release hnr).symm)) envStep_releaseUnit

end Sys2Proof.Machine
end

section
/-! PROOF. The capacity of a delay line, and DLY_SET_DELAY, DLY_SET_FEEDBACK, DLY_PROCESS and DLY_RESET (44_delay.md R190 to
R195). -/

namespace Sys2Proof.Machine

open Sys2Proof

/-! The capacity (44_delay.md R191). -/

/-- The capacity is the least whole number not below the value. -/
theorem ceilQuanta_bounds (k : Nat) :
    k ≤ ceilQuanta k * 2 ^ quantum .binary64 ∧ ceilQuanta k * 2 ^ quantum .binary64 < k + 2 ^ quantum .binary64 := by
  unfold ceilQuanta
  have hpos := Nat.two_pow_pos (quantum .binary64)
  generalize 2 ^ quantum .binary64 = q at hpos ⊢
  have hlow := Nat.div_mul_le_self (k + (q - 1)) q
  have hhigh := Nat.lt_div_mul_add (a := k + (q - 1)) hpos
  omega

section

variable {maxDelay : Nat} {sr64 sec : Word} (u : BitVec 8)

theorem dlyCap_of_bad_length (h : ¬(isFinite .binary64 sec = true ∧ fpLt .binary64 posZero sec = true)) :
    dlyCap maxDelay sr64 sec u = .error { code := .cfgDelayLength, unit := u } := by
  rw [← finitePos_iff_checks, Bool.not_eq_true] at h
  rw [dlyCap, h]
  rfl

theorem dlyCap_of_nonfinite_product (h : isFinite .binary64 (fpMul .binary64 sec sr64) = false) :
    dlyCap maxDelay sr64 sec u = .error { code := .cfgDelayLength, unit := u } := by
  unfold dlyCap
  cases hval : fpVal .binary64 (fpMul .binary64 sec sr64) with
  | nan | inf => simp only [ite_self]
  | fin s k => rw [isFinite_iff.2 ⟨s, k, hval⟩] at h; cases h

theorem dlyCap_of_finite_product {neg : Bool} {k : Nat} (hpos : finitePos .binary64 sec = true)
    (hval : fpVal .binary64 (fpMul .binary64 sec sr64) = .fin neg k) :
    dlyCap maxDelay sr64 sec u =
      if 1 ≤ ceilQuanta k ∧ ceilQuanta k ≤ maxDelay then .ok (ceilQuanta k)
      else .error { code := .cfgDelayLength, unit := u } := by
  have hlegal : (ceilQuanta k < 1 ∨ maxDelay < ceilQuanta k) ↔ ¬(1 ≤ ceilQuanta k ∧ ceilQuanta k ≤ maxDelay) := by omega
  simp only [dlyCap, hpos, hval, hlegal, ite_not, Bool.not_true, Bool.false_eq_true, if_false]

end

/-- Settles O29: the capacity is `ceilQuanta` of the product. -/
theorem capacityRoundsUp : Obligations.CapacityRoundsUp := by
  intro maxDelay sr64 sec u
  refine ⟨dlyCap_of_bad_length u, dlyCap_of_nonfinite_product u, fun hfin hlt neg k hval => ?_⟩
  have hcap := dlyCap_of_finite_product (maxDelay := maxDelay) u (finitePos_iff_checks.2 ⟨hfin, hlt⟩) hval
  have hbounds := ceilQuanta_bounds k
  rw [show quantum .binary64 = 1074 from rfl] at hbounds
  obtain ⟨hlow, hhigh⟩ := hbounds
  exact ⟨ceilQuanta k, hlow, hhigh, fun h => hcap.trans (if_pos h), fun h => hcap.trans (if_neg h)⟩

/-! The feedback check (44_delay.md R192). -/

section

variable {f : Fmt} {v : Word} (u : BitVec 8)

theorem feedbackGain_of_valid (h : fpLe f posZero (toW f v) = true ∧ fpLt f (toW f v) (oneW f) = true) :
    feedbackGain f v u = .ok (dropZeroSign f (toW f v)) :=
  if_pos (Bool.and_eq_true_iff.2 h)

theorem feedbackGain_of_invalid (h : ¬(fpLe f posZero (toW f v) = true ∧ fpLt f (toW f v) (oneW f) = true)) :
    feedbackGain f v u = .error { code := .cfgFeedback, unit := u } :=
  if_neg fun hpos => h (Bool.and_eq_true_iff.1 hpos)

end

/-! The delay commands by what they leave of a ready core. -/

section

variable {u : BitVec 8} {s : State}

theorem exec_dlySetDelay_of_legal (hready : Ready s (.dlySetDelay u))
    (hn : 1 ≤ s.arg0.toNat ∧ s.arg0.toNat ≤ (dlyAt s u.toNat).c) :
    exec (.dlySetDelay u) s = .next (setDly s u.toNat (withDelay (dlyAt s u.toNat) s.arg0.toNat)) := by
  unfold exec execDlySetDelay
  exact runCommand_ready_of_ok hready (if_pos hn)

theorem exec_dlySetDelay_of_illegal (hready : Ready s (.dlySetDelay u))
    (hn : ¬(1 ≤ s.arg0.toNat ∧ s.arg0.toNat ≤ (dlyAt s u.toNat).c)) :
    exec (.dlySetDelay u) s = .next (withError .cfgDelayLength u (encode (.dlySetDelay u)) s) := by
  unfold exec execDlySetDelay
  exact runCommand_ready_of_error (e := { code := .cfgDelayLength, unit := u }) hready (by simp) (if_neg hn)

theorem exec_dlySetFeedback_of_ok {gW : Sample} (hready : Ready s (.dlySetFeedback u))
    (hgain : feedbackGain s.params.fmt s.arg0 u = .ok gW) :
    exec (.dlySetFeedback u) s = .next (setDly s u.toNat { dlyAt s u.toNat with g := gW }) := by
  unfold exec execDlySetFeedback
  exact runCommand_ready_of_ok hready (by rw [hgain])

theorem exec_dlySetFeedback_of_error {e : CmdError} (hready : Ready s (.dlySetFeedback u))
    (hgain : feedbackGain s.params.fmt s.arg0 u = .error e) :
    exec (.dlySetFeedback u) s = .next (withError e.code e.unit (encode (.dlySetFeedback u)) s) := by
  unfold exec execDlySetFeedback
  exact runCommand_ready_of_error hready (by simp) (by rw [hgain])

theorem exec_dlyProcess (hready : Ready s (.dlyProcess u)) :
    exec (.dlyProcess u) s =
      .next (setResult (setDly s u.toNat (dlyStep s.params.fmt (dlyAt s u.toNat) (toW s.params.fmt s.arg0)).2)
        (dlyStep s.params.fmt (dlyAt s u.toNat) (toW s.params.fmt s.arg0)).1) := by
  unfold exec execDlyProcess
  exact runCommand_ready_of_ok hready rfl

theorem exec_dlyReset (hready : Ready s (.dlyReset u)) :
    exec (.dlyReset u) s = .next (setDly s u.toNat (clearLine (dlyAt s u.toNat))) := by
  unfold exec execDlyReset
  exact runCommand_ready_of_ok hready rfl

end

/-- Settles O44: the length is between 1 and `C`, or it is not. -/
theorem dlySetDelayReducesIndex : Obligations.DlySetDelayReducesIndex := by
  intro u s hready l n
  refine ⟨fun hpos hle => exec_dlySetDelay_of_legal hready ⟨hpos, hle⟩, fun hbad => ?_⟩
  have hillegal : ¬(1 ≤ n ∧ n ≤ l.c) := by omega
  exact exec_dlySetDelay_of_illegal hready hillegal

/-- Settles O45: the two cases are those of `feedbackGain`, whose answer is the gain by `dropZeroSign`. -/
theorem dlySetFeedbackStoresGain : Obligations.DlySetFeedbackStoresGain := by
  intro u s hready f gW valid
  exact ⟨fun h => exec_dlySetFeedback_of_ok hready (feedbackGain_of_valid u h),
    fun h => exec_dlySetFeedback_of_error hready (feedbackGain_of_invalid u h)⟩

/-- Every word of the delay RAM has a value (log 4). -/
theorem memRead_dram (m : Mem) (i : Nat) : memRead .dram m i = some (dramRead m i) := by
  unfold dramRead memRead
  cases memLookup m i <;> rfl

/-- Settles O46: `dlyStep` reads the word at the index, and what a read gives after its write are the memory's rules. -/
theorem dlyProcessReadsThenWrites : Obligations.DlyProcessReadsThenWrites := by
  intro u s hready hwf f l
  exact ⟨dramRead l.dram l.w, (dlyStep f l (toW f s.arg0)).2.dram, memRead_dram _ _, exec_dlyProcess hready,
    memRead_memWrite_same hwf _ _, fun _ hi => memRead_memWrite_other _ _ _ hi⟩

/-- Settles O47: the RAM that DLY_RESET leaves is the old one zeroed below `C`. -/
theorem dlyResetZeroesBuffer : Obligations.DlyResetZeroesBuffer := by
  intro u s hready l
  exact ⟨zeroBelow l.dram l.c, exec_dlyReset hready, memRead_zeroBelow l.dram l.c⟩

end Sys2Proof.Machine
end

section
/-! PROOF. The recurrence of a delay line's outputs after DLY_RESET (44_delay.md R195, R197). -/

namespace Sys2Proof.Machine

open Sys2Proof

/-! The delay RAM read by value. -/

theorem dramRead_memWrite_same {m : Mem} (h : Memory.wf .dram m = true) (i : Nat) (y : Sample) :
    dramRead (memWrite .dram m i y) i = y := by
  rw [dramRead, memRead_memWrite_same h, Option.getD_some]

theorem dramRead_memWrite_other (m : Mem) {i j : Nat} (y : Sample) (h : j ≠ i) :
    dramRead (memWrite .dram m i y) j = dramRead m j := by
  rw [dramRead, memRead_memWrite_other _ _ _ h, ← dramRead]

theorem dramRead_zeroBelow_of_lt (m : Mem) {c i : Nat} (h : i < c) : dramRead (zeroBelow m c) i = posZero := by
  rw [dramRead, memRead_zeroBelow, if_pos h]
  rfl

/-! A line's run over any inputs. -/

/-- What sample `k` of a run feeds back, where the run starts from `l` and outputs `ys`: one of the `D` words from the index
on in its first round, and then the output `D` samples before. -/
def fedBack (l : DlyUnit) (ys : List Sample) (k : Nat) : Sample :=
  if k < l.d then dramRead l.dram ((l.w + k) % l.d) else ys.getD (k - l.d) posZero

section

variable {f : Fmt} {maxDelay : Nat} {l : DlyUnit}

theorem fedBack_zero (h : LineOk f maxDelay l) (ys : List Sample) : fedBack l ys 0 = dramRead l.dram l.w := by
  have hw := h.unit.index
  rw [fedBack, if_pos (Nat.zero_lt_of_lt hw), Nat.add_zero, Nat.mod_eq_of_lt hw]

/-- One sample on, a line feeds back the same words and outputs: the word just written comes round after `D` samples, and the
others of the round are untouched. -/
theorem fedBack_dlyStep (h : LineOk f maxDelay l) (x : Sample) (ys : List Sample) (k : Nat) :
    fedBack (dlyStep f l x).2 ys k = fedBack l ((dlyStep f l x).1 :: ys) (k + 1) := by
  obtain ⟨⟨⟨hpos, -⟩, hw, -⟩, hm⟩ := h
  have hindex : ((l.w + 1) % l.d + k) % l.d = (l.w + (k + 1)) % l.d := by
    rw [Nat.mod_add_mod, Nat.add_assoc, Nat.add_comm 1]
  simp only [fedBack, dlyStep, hindex]
  rcases lt_trichotomy (k + 1) l.d with hlt | heq | hgt
  · have hother : (l.w + (k + 1)) % l.d ≠ l.w := by
      rcases Nat.lt_or_ge (l.w + (k + 1)) l.d with hin | hout
      · rw [Nat.mod_eq_of_lt hin]; omega
      · rw [Nat.mod_eq_sub_mod hout, Nat.mod_eq_of_lt (by omega)]; omega
    rw [if_pos (by omega), if_pos hlt, dramRead_memWrite_other _ _ hother]
  · have hround : (l.w + (k + 1)) % l.d = l.w := by rw [heq, Nat.add_mod_right, Nat.mod_eq_of_lt hw]
    rw [if_pos (by omega), if_neg (by omega), hround, dramRead_memWrite_same hm.canonical, heq, Nat.sub_self,
      List.getD_cons_zero]
  · rw [if_neg (by omega), if_neg (by omega), Nat.succ_sub (by omega), List.getD_cons_succ]

/-- Every output of a run is its input plus the gain times what is fed back (44_delay.md R195). -/
theorem dlyBlock_getD (xs : List Sample) : ∀ {l : DlyUnit}, LineOk f maxDelay l → ∀ k, k < xs.length →
    (dlyBlock f l xs).1.getD k posZero =
      fpAdd f (xs.getD k posZero) (fpMul f l.g (fedBack l (dlyBlock f l xs).1 k)) := by
  induction xs with
  | nil => exact fun _ k hk => absurd hk (Nat.not_lt_zero k)
  | cons x xs ih =>
    intro l h k hk
    have hrun : (dlyBlock f l (x :: xs)).1 = (dlyStep f l x).1 :: (dlyBlock f (dlyStep f l x).2 xs).1 := rfl
    rw [hrun]
    cases k with
    | zero =>
      rw [List.getD_cons_zero, List.getD_cons_zero, fedBack_zero h]
      rfl
    | succ k =>
      rw [List.getD_cons_succ, List.getD_cons_succ, ← fedBack_dlyStep h]
      exact ih (h.dlyStep x) k (Nat.lt_of_succ_lt_succ hk)

/-- A cleared line feeds back +0 in its first round. -/
theorem fedBack_clearLine (h : LineOk f maxDelay l) (ys : List Sample) (k : Nat) :
    fedBack (clearLine l) ys k = if k < l.d then posZero else ys.getD (k - l.d) posZero := by
  obtain ⟨⟨⟨hpos, hle, -⟩, -⟩, -⟩ := h
  have hcleared : dramRead (zeroBelow l.dram l.c) ((0 + k) % l.d) = posZero :=
    dramRead_zeroBelow_of_lt _ ((Nat.mod_lt _ hpos).trans_le hle)
  simp only [fedBack, clearLine, hcleared]

end

/-! The commands of a run. -/

theorem dlyAt_setDly_self {s : State} {u : Nat} (l : DlyUnit) (hu : u < s.dly.length) : dlyAt (setDly s u l) u = l := by
  rw [dlyAt, setDly_dly, List.getD_eq_getElem _ _ (by rwa [List.length_set]), List.getElem_set_self]

theorem Inv.dlyIndex_lt {s : State} (h : Inv s) {i : Instr} {u : BitVec 8} (hready : Ready s i)
    (hi : i.target = some (.dly, u)) : u.toNat < s.dly.length := by
  have hu := hready.unitExists
  simp only [Instr.wf, hi, decide_eq_true_eq] at hu
  exact hu.trans_eq h.dlyCount.symm

/-- DLY_PROCESS once for each input outputs the unit's run over the converted inputs. -/
theorem feedCommand_dlyProcess {f : Fmt} {u : BitVec 8} (xs : List Word) :
    ∀ {s : State} {l : DlyUnit}, Ready s (.dlyProcess u) → u.toNat < s.dly.length → s.params.fmt = f →
      dlyAt s u.toNat = l →
      ∃ t, feedCommand (.dlyProcess u) xs s = some ((dlyBlock f l (xs.map (toW f))).1.map (to64 f), t) := by
  induction xs with
  | nil => exact fun _ _ _ _ => ⟨_, rfl⟩
  | cons x xs ih =>
    intro s l hready hu hf hl
    have hexec := exec_dlyProcess (s := { s with arg0 := x }) (hready.transfer rfl rfl rfl)
    rw [show dlyAt { s with arg0 := x } u.toNat = l from hl, hf] at hexec
    obtain ⟨t, ht⟩ := ih (s := setResult (setDly { s with arg0 := x } u.toNat (dlyStep f l (toW f x)).2)
      (dlyStep f l (toW f x)).1) (hready.transfer rfl rfl rfl) (by simpa using hu) hf (dlyAt_setDly_self _ hu)
    refine ⟨t, ?_⟩
    simp only [feedCommand, hexec, ht, setResult_result, setDly_params, hf]
    rfl

/-- Settles O48: the outputs are the run of the cleared line over the converted inputs. -/
theorem delayLineRecurrence : Obligations.DelayLineRecurrence := by
  intro u s s1 hinv hready hexec xs
  have hu := hinv.dlyIndex_lt hready rfl
  have hline : LineOk s.params.fmt s.params.maxDelay (dlyAt s u.toNat) := by
    rw [dlyAt, List.getD_eq_getElem _ _ hu]
    exact hinv.lines hready.prepared _ (List.getElem_mem hu)
  obtain rfl : setDly s u.toNat (clearLine (dlyAt s u.toNat)) = s1 :=
    Host.Outcome.next.inj ((exec_dlyReset hready).symm.trans hexec)
  obtain ⟨t, ht⟩ := feedCommand_dlyProcess (f := s.params.fmt) xs (s := setDly s u.toNat (clearLine (dlyAt s u.toNat)))
    (hready.transfer rfl rfl rfl) (by simpa using hu) rfl (dlyAt_setDly_self _ hu)
  refine ⟨_, t, ht, by rw [dlyBlock, runSamples_length, List.length_map], fun k hk => ?_⟩
  rw [dlyBlock_getD _ hline.clearLine k (by rwa [List.length_map]), fedBack_clearLine hline,
    List.getD_eq_getElem _ _ (by rwa [List.length_map]), List.getElem_map, List.getD_eq_getElem _ _ hk]
  rfl

end Sys2Proof.Machine
end

section
/-! PROOF. PREPARE: its checks in their order, the units it builds and the state it commits (45_graph.md R220, 60_exceptions.md R244,
R246). -/

namespace Sys2Proof.Machine

open Sys2Proof

/-! PREPARE by the answer of its body. -/

section

variable {s : State}

theorem exec_prepare_of_ok {t : State} (h : prepareBody s = .ok t) : exec .prepare s = .next t := by
  unfold exec execPrepare
  rw [runCommand_prepare, h, finish]

theorem exec_prepare_of_error {e : CmdError} (h : prepareBody s = .error e) :
    exec .prepare s = .next (withPrepareError e.code e.unit s) := by
  unfold exec execPrepare
  rw [runCommand_prepare, h]
  rfl

/-- The sample rate of the operands is finite and positive, before and after its conversion. -/
def RateOk (s : State) : Prop :=
  finitePos .binary64 s.arg0 = true ∧ finitePos s.params.fmt (toW s.params.fmt s.arg0) = true

theorem rateOk_iff_checks : RateOk s ↔
    (isFinite .binary64 s.arg0 = true ∧ fpLt .binary64 posZero s.arg0 = true) ∧
      isFinite s.params.fmt (toW s.params.fmt s.arg0) = true ∧ fpLt s.params.fmt posZero (toW s.params.fmt s.arg0) = true := by
  rw [RateOk, finitePos_iff_checks, finitePos_iff_checks]

theorem prepareBody_of_bad_rate (h : ¬RateOk s) : prepareBody s = .error { code := .cfgSampleRate, unit := 0#8 } := by
  simp only [prepareBody, f64]
  by_cases hsr : finitePos .binary64 s.arg0 = true
  · have hsrW : finitePos s.params.fmt (toW s.params.fmt s.arg0) = false := by
      rw [Bool.eq_false_iff]
      exact fun hsrW => h ⟨hsr, hsrW⟩
    simp [hsr, hsrW]
  · simp [hsr]

theorem prepareBody_of_bad_size (h : RateOk s) (hsize : ¬(1 ≤ u64 s.arg1 ∧ u64 s.arg1 ≤ s.params.maxBlock)) :
    prepareBody s = .error { code := .cfgBlockSize, unit := 0#8 } := by
  obtain ⟨hsr, hsrW⟩ := h
  simp only [prepareBody, f64, hsr, hsrW, hsize, Bool.not_true, Bool.false_eq_true, not_false_eq_true, if_true, if_false]

theorem prepareBody_of_units_error (h : RateOk s) (hsize : 1 ≤ u64 s.arg1 ∧ u64 s.arg1 ≤ s.params.maxBlock) {e : CmdError}
    (hunits : prepareUnits s.params s.arg0 (toW s.params.fmt s.arg0) = .error e) : prepareBody s = .error e := by
  obtain ⟨hsr, hsrW⟩ := h
  simp only [prepareBody, f64, hsr, hsrW, hsize, hunits, Bool.not_true, Bool.false_eq_true, and_self, not_true_eq_false, if_false]

theorem prepareBody_of_units (h : RateOk s) (hsize : 1 ≤ u64 s.arg1 ∧ u64 s.arg1 ≤ s.params.maxBlock) {us : Units}
    (hunits : prepareUnits s.params s.arg0 (toW s.params.fmt s.arg0) = .ok us) :
    prepareBody s = .ok (commitPrepare s s.arg0 (toW s.params.fmt s.arg0) (u64 s.arg1) us) := by
  obtain ⟨hsr, hsrW⟩ := h
  simp only [prepareBody, f64, hsr, hsrW, hsize, hunits, Bool.not_true, Bool.false_eq_true, and_self, not_true_eq_false, if_false]

theorem exec_prepare_of_units (h : RateOk s) (hsize : 1 ≤ u64 s.arg1 ∧ u64 s.arg1 ≤ s.params.maxBlock) {us : Units}
    (hunits : prepareUnits s.params s.arg0 (toW s.params.fmt s.arg0) = .ok us) :
    exec .prepare s = .next (commitPrepare s s.arg0 (toW s.params.fmt s.arg0) (u64 s.arg1) us) :=
  exec_prepare_of_ok (prepareBody_of_units h hsize hunits)

end

/-- Settles O50: the commit writes the lists `prepareUnits` builds, and each new line takes the RAM of the old one, zeroed below its
capacity. -/
theorem prepareCommits : Obligations.PrepareCommits := by
  intro s us f srW hfin hpos hfinW hposW hmin hmax hunits
  have hrate : RateOk s := rateOk_iff_checks.2 ⟨⟨hfin, hpos⟩, hfinW, hposW⟩
  obtain ⟨hlen, hlines⟩ := commitDly_spec us.dly s.dly
  refine ⟨commitDly s.dly us.dly, exec_prepare_of_units hrate ⟨hmin, hmax⟩ hunits, hlen, fun v l hl => ?_⟩
  exact ⟨_, hlines v l hl, memRead_zeroBelow _ _⟩

/-! The unit checks, one run over the records of each kind (45_graph.md R220). -/

section

variable {p : Params} {sr64 : Word} {srW : Sample}

theorem prepareUnits_of_runs {osc : List OscUnit} {flt : List FltUnit} {env : List EnvUnit} {dly : List DlyUnit}
    (hosc : checkEach (initOsc p srW) 0 p.graph.oscInit = .ok osc) (hflt : checkEach (initFlt p srW) 0 p.graph.fltInit = .ok flt)
    (henv : checkEach (initEnv p sr64) 0 p.graph.envInit = .ok env)
    (hdly : checkEach (initDly p sr64) 0 p.graph.dlyInit = .ok dly) :
    prepareUnits p sr64 srW = .ok { osc := osc, flt := flt, env := env, dly := dly } := by
  simp only [prepareUnits, hosc, hflt, henv, hdly]

theorem prepareUnits_of_osc_error {e : CmdError} (hosc : checkEach (initOsc p srW) 0 p.graph.oscInit = .error e) :
    prepareUnits p sr64 srW = .error e := by
  simp only [prepareUnits, hosc]

theorem prepareUnits_of_flt_error {e : CmdError} (hosc : ∃ us, checkEach (initOsc p srW) 0 p.graph.oscInit = .ok us)
    (hflt : checkEach (initFlt p srW) 0 p.graph.fltInit = .error e) : prepareUnits p sr64 srW = .error e := by
  obtain ⟨osc, hosc⟩ := hosc
  simp only [prepareUnits, hosc, hflt]

theorem prepareUnits_of_env_error {e : CmdError} (hosc : ∃ us, checkEach (initOsc p srW) 0 p.graph.oscInit = .ok us)
    (hflt : ∃ us, checkEach (initFlt p srW) 0 p.graph.fltInit = .ok us)
    (henv : checkEach (initEnv p sr64) 0 p.graph.envInit = .error e) : prepareUnits p sr64 srW = .error e := by
  obtain ⟨osc, hosc⟩ := hosc
  obtain ⟨flt, hflt⟩ := hflt
  simp only [prepareUnits, hosc, hflt, henv]

theorem prepareUnits_of_dly_error {e : CmdError} (hosc : ∃ us, checkEach (initOsc p srW) 0 p.graph.oscInit = .ok us)
    (hflt : ∃ us, checkEach (initFlt p srW) 0 p.graph.fltInit = .ok us)
    (henv : ∃ us, checkEach (initEnv p sr64) 0 p.graph.envInit = .ok us)
    (hdly : checkEach (initDly p sr64) 0 p.graph.dlyInit = .error e) : prepareUnits p sr64 srW = .error e := by
  obtain ⟨osc, hosc⟩ := hosc
  obtain ⟨flt, hflt⟩ := hflt
  obtain ⟨env, henv⟩ := henv
  simp only [prepareUnits, hosc, hflt, henv, hdly]

theorem prepareUnits_passes_iff :
    (∃ us, prepareUnits p sr64 srW = .ok us) ↔
      (∀ r ∈ p.graph.oscInit, oscRecordError p srW r = none) ∧ (∀ r ∈ p.graph.fltInit, fltRecordError p srW r = none) ∧
      (∀ r ∈ p.graph.envInit, envRecordError p sr64 r = none) ∧ (∀ r ∈ p.graph.dlyInit, dlyRecordError p sr64 r = none) := by
  rw [← checkEach_passes_iff (initOsc_check p srW), ← checkEach_passes_iff (initFlt_check p srW),
    ← checkEach_passes_iff (initEnv_check p sr64), ← checkEach_passes_iff (initDly_check p sr64)]
  constructor
  · rintro ⟨us, h⟩
    obtain ⟨hosc, hflt, henv, hdly⟩ := prepareUnits_ok h
    exact ⟨⟨_, hosc⟩, ⟨_, hflt⟩, ⟨_, henv⟩, ⟨_, hdly⟩⟩
  · rintro ⟨⟨_, hosc⟩, ⟨_, hflt⟩, ⟨_, henv⟩, ⟨_, hdly⟩⟩
    exact ⟨_, prepareUnits_of_runs hosc hflt henv hdly⟩

/-- The unit of record `v`, where the run over the records passes. -/
theorem unit_of_record {α β : Type} {check : BitVec 8 → α → Except CmdError β} {rs : List α} {bs : List β}
    (h : checkEach check 0 rs = .ok bs) {v : Nat} {r : α} (hr : rs[v]? = some r) :
    ∃ b, bs[v]? = some b ∧ check (BitVec.ofNat 8 v) r = .ok b := by
  obtain ⟨b, hb, hcheck⟩ := (checkEach_ok h).2 v r hr
  exact ⟨b, hb, by rwa [Nat.zero_add] at hcheck⟩

/-! The unit each record becomes. -/

theorem initOsc_unit {u : BitVec 8} {r : OscInit} {o : OscUnit} (h : initOsc p srW u r = .ok o) :
    o = { f := toW p.fmt r.freq, inc := oscInc p.fmt srW (toW p.fmt r.freq), phase := posZero, wave := r.wave } ∧
    finitePos p.fmt (toW p.fmt r.freq) = true ∧ finitePos p.fmt (oscInc p.fmt srW (toW p.fmt r.freq)) = true := by
  by_cases hvalid : finitePos p.fmt (toW p.fmt r.freq) = true ∧ finitePos p.fmt (oscInc p.fmt srW (toW p.fmt r.freq)) = true
  · simp only [initOsc, oscFrequency_of_valid u hvalid.1 hvalid.2] at h
    exact ⟨(Except.ok.inj h).symm, hvalid⟩
  · simp only [initOsc, oscFrequency_of_invalid u hvalid] at h
    cases h

theorem initFlt_unit {u : BitVec 8} {r : FltInit} {x : FltUnit} (h : initFlt p srW u r = .ok x) :
    fltParams p srW r.cutoff r.q u = .ok (x.fc, x.q, { b0 := x.b0, b1 := x.b1, b2 := x.b2, a1 := x.a1, a2 := x.a2 }) ∧
    x.x1 = posZero ∧ x.x2 = posZero ∧ x.y1 = posZero ∧ x.y2 = posZero := by
  unfold initFlt at h
  split at h
  · cases h
  · next hparams =>
    cases h
    exact ⟨hparams, rfl, rfl, rfl, rfl⟩

/-- An envelope Idle at +0 with the parameters `q`. -/
def idleEnv (q : EnvParams) : EnvUnit :=
  { na := q.na, nd := q.nd, nr := q.nr, s := q.s, stage := .idle, level := posZero, n := 0, start := posZero }

theorem initEnv_unit {u : BitVec 8} {r : EnvInit} {e : EnvUnit} (h : initEnv p sr64 u r = .ok e) :
    ∃ q, envParams p.fmt sr64 r.attackSec r.decaySec r.sustain r.releaseSec u = .ok q ∧
      e = if r.triggerOnPrepare then enterAttack p (idleEnv q) else idleEnv q := by
  unfold initEnv at h
  split at h
  · cases h
  · next q hparams => exact ⟨q, hparams, (Except.ok.inj h).symm⟩

/-- A triggered envelope attacks from +0, whatever `ATTACK_FROM_CURRENT` says. -/
theorem enterAttack_idleEnv (q : EnvParams) (h : 0 < q.na) :
    enterAttack p (idleEnv q) = { idleEnv q with stage := .attack } := by
  rw [enterAttack_of_attack h, show (idleEnv q).level = posZero from rfl, ite_self]
  rfl

theorem enterAttack_idleEnv_keeps (q : EnvParams) :
    (enterAttack p (idleEnv q)).na = q.na ∧ (enterAttack p (idleEnv q)).nd = q.nd ∧
    (enterAttack p (idleEnv q)).nr = q.nr ∧ (enterAttack p (idleEnv q)).s = q.s ∧ (enterAttack p (idleEnv q)).n = 0 := by
  rcases Nat.eq_zero_or_pos q.na with hna | hna
  · rcases Nat.eq_zero_or_pos q.nd with hnd | hnd
    · rw [enterAttack_of_no_attack_no_decay hna hnd]
      exact ⟨rfl, rfl, rfl, rfl, rfl⟩
    · rw [enterAttack_of_no_attack hna hnd]
      exact ⟨rfl, rfl, rfl, rfl, rfl⟩
  · rw [enterAttack_idleEnv q hna]
    exact ⟨rfl, rfl, rfl, rfl, rfl⟩

theorem initDly_unit {u : BitVec 8} {r : DlyInit} {l : DlyUnit} (h : initDly p sr64 u r = .ok l) :
    dlyCap p.maxDelay sr64 r.delaySeconds u = .ok l.c ∧ l.d = l.c ∧ l.w = 0 ∧
    feedbackGain p.fmt r.feedback u = .ok l.g := by
  unfold initDly at h
  split at h
  · cases h
  · next hcap =>
    split at h
    · cases h
    · next hgain =>
      cases h
      exact ⟨hcap, rfl, rfl, hgain⟩

end

/-- Settles O51: each kind's run passes exactly where every record passes, and its results are the records' units. -/
theorem prepareBuildsUnits : Obligations.PrepareBuildsUnits := by
  refine fun p sr64 srW => ⟨prepareUnits_passes_iff, fun us h => ?_⟩
  obtain ⟨hosc, hflt, henv, hdly⟩ := prepareUnits_ok h
  refine ⟨(checkEach_ok hosc).1, (checkEach_ok hflt).1, (checkEach_ok henv).1, (checkEach_ok hdly).1, fun v r hr => ?_,
    fun v r hr => ?_, fun v r hr => ?_, fun v r hr => ?_⟩
  · obtain ⟨o, ho, hinit⟩ := unit_of_record hosc hr
    obtain ⟨rfl, hfreq, hinc⟩ := initOsc_unit hinit
    exact ⟨_, rfl, ho, hfreq, hinc⟩
  · obtain ⟨x, hx, hinit⟩ := unit_of_record hflt hr
    exact ⟨x, hx, initFlt_unit hinit⟩
  · obtain ⟨e, he, hinit⟩ := unit_of_record henv hr
    obtain ⟨q, hparams, rfl⟩ := initEnv_unit hinit
    refine ⟨q, _, he, hparams, ?_⟩
    cases r.triggerOnPrepare with
    | false => exact ⟨rfl, rfl, rfl, rfl, rfl, fun _ => ⟨rfl, rfl, rfl⟩, nofun⟩
    | true =>
      obtain ⟨hna, hnd, hnr, hs, hn⟩ := enterAttack_idleEnv_keeps (p := p) q
      refine ⟨hna, hnd, hnr, hs, hn, nofun, fun _ => ⟨fun hna => ?_, fun hna hnd => ?_, fun hna hnd => ?_⟩⟩
      · rw [if_pos rfl, enterAttack_idleEnv q hna]
        exact ⟨rfl, rfl, rfl⟩
      · rw [if_pos rfl, enterAttack_of_no_attack hna hnd]
        exact ⟨rfl, rfl, rfl⟩
      · rw [if_pos rfl, enterAttack_of_no_attack_no_decay hna hnd]
        exact ⟨rfl, rfl, rfl⟩
  · obtain ⟨l, hl, hinit⟩ := unit_of_record hdly hr
    obtain ⟨hcap, hd, hw, hgain⟩ := initDly_unit hinit
    exact ⟨l.c, l, hl, hcap, rfl, hd, hw, hgain⟩

/-- Settles O52: `prepareBody` makes its checks in the statement's order, and the first record that fails decides its kind's run. -/
theorem prepareChecksInOrder : Obligations.PrepareChecksInOrder := by
  intro s f g srW rateOk sizeOk oscPass fltPass envPass dlyPass
  have hrateOk : rateOk ↔ RateOk s := rateOk_iff_checks.symm
  rw [hrateOk]
  refine ⟨fun hrate => ?_, fun hrate hsize => ?_, fun hrate hsize v c => ?_⟩
  · exact exec_prepare_of_error (prepareBody_of_bad_rate hrate)
  · exact exec_prepare_of_error (prepareBody_of_bad_size hrate hsize)
  have hunits : prepareUnits s.params s.arg0 srW = .error { code := c, unit := BitVec.ofNat 8 v } →
      exec .prepare s = .next (withPrepareError c (BitVec.ofNat 8 v) s) := fun h =>
    exec_prepare_of_error (prepareBody_of_units_error hrate hsize h)
  have oscRun : oscPass g.oscInit → ∃ us, checkEach (initOsc s.params srW) 0 g.oscInit = .ok us :=
    (checkEach_passes_iff (initOsc_check _ _) _).2
  have fltRun : fltPass g.fltInit → ∃ us, checkEach (initFlt s.params srW) 0 g.fltInit = .ok us :=
    (checkEach_passes_iff (initFlt_check _ _) _).2
  have envRun : envPass g.envInit → ∃ us, checkEach (initEnv s.params s.arg0) 0 g.envInit = .ok us :=
    (checkEach_passes_iff (initEnv_check _ _) _).2
  refine ⟨fun r hr hc hbefore => ?_, fun hosc r hr hc hbefore => ?_, fun hosc hflt r hr hc hbefore => ?_,
    fun hosc hflt henv r hr hc hbefore => ?_⟩
  · exact hunits (prepareUnits_of_osc_error (checkEach_first_fails (initOsc_check _ _) hr hc hbefore))
  · exact hunits (prepareUnits_of_flt_error (oscRun hosc) (checkEach_first_fails (initFlt_check _ _) hr hc hbefore))
  · exact hunits
      (prepareUnits_of_env_error (oscRun hosc) (fltRun hflt) (checkEach_first_fails (initEnv_check _ _) hr hc hbefore))
  · exact hunits (prepareUnits_of_dly_error (oscRun hosc) (fltRun hflt) (envRun henv)
      (checkEach_first_fails (initDly_check _ _) hr hc hbefore))

/-! The default hardware at 44100 Hz (45_graph.md R217, R220). -/

theorem defaultRecords_pass :
    (∀ r ∈ Params.default.graph.oscInit, oscRecordError Params.default 0x40E5888000000000#64 r = none) ∧
    (∀ r ∈ Params.default.graph.fltInit, fltRecordError Params.default 0x40E5888000000000#64 r = none) ∧
    (∀ r ∈ Params.default.graph.envInit, envRecordError Params.default 0x40E5888000000000#64 r = none) ∧
    (∀ r ∈ Params.default.graph.dlyInit, dlyRecordError Params.default 0x40E5888000000000#64 r = none) := by
  decide +kernel

theorem rateOk_44100 {s : State} (hp : s.params = Params.default) (h0 : s.arg0 = 0x40E5888000000000#64) : RateOk s := by
  rw [RateOk, hp, h0]
  decide +kernel

theorem oscInc_440_at_44100 :
    oscInc Params.default.fmt 0x40E5888000000000#64 (toW Params.default.fmt defaultOscInit.freq) = 0x3FB00C6938F15E29#64 := by
  decide +kernel

/-- Settles O53: every default record passes its check, so PREPARE commits the units of the records. -/
theorem defaultPrepareSucceeds : Obligations.DefaultPrepareSucceeds := by
  intro s hp h0 h1
  obtain ⟨us, hus⟩ := prepareUnits_passes_iff.2 defaultRecords_pass
  have hunits : prepareUnits s.params s.arg0 (toW s.params.fmt s.arg0) = .ok us := by rw [hp, h0]; exact hus
  have hsize : 1 ≤ u64 s.arg1 ∧ u64 s.arg1 ≤ s.params.maxBlock := by rw [hp, h1]; decide
  obtain ⟨hosc, -, -, -⟩ := prepareUnits_ok hus
  obtain ⟨o, ho, hinit⟩ := unit_of_record (v := 0) (r := defaultOscInit) hosc rfl
  obtain ⟨hunit, -, -⟩ := initOsc_unit hinit
  have hcommit : oscAt (commitPrepare s s.arg0 (toW s.params.fmt s.arg0) (u64 s.arg1) us) 0 = o := by
    rw [oscAt, commitPrepare_osc, List.getD_eq_getElem?_getD, ho, Option.getD_some]
  refine ⟨_, exec_prepare_of_units (rateOk_44100 hp h0) hsize hunits, ?_, ?_⟩
  · rw [commitPrepare_status]
    decide
  · rw [hcommit, hunit]
    dsimp only
    exact ⟨rfl, oscInc_440_at_44100⟩

end Sys2Proof.Machine
end

section
/-! PROOF. The mix laws for gains 1.0 (45_graph.md R210, R211): a product with 1.0 is the sample itself, and a sum from +0 drops the
sign of a zero. -/

namespace Sys2Proof.Machine

open Sys2Proof

theorem toW_one (f : Fmt) : toW f 0x3FF0000000000000#64 = oneW f := by cases f <;> decide +kernel

section

variable {f : Fmt} {a b : Sample} {s : Bool} {k : Nat}

/-- A finite value rounds to its own encoding. -/
theorem roundW_of_fpVal (hw : a.toNat < 2 ^ (signPos f + 1)) (h : fpVal f a = .fin s k) : roundW f s k 1 = a := by
  obtain ⟨hmag, rfl, rfl⟩ := fpVal_eq_fin h
  rw [roundW, roundMag_quantaOf hmag, withSign_signOf_magOf hw]

theorem fpInf_of_fpVal (hw : a.toNat < 2 ^ (signPos f + 1)) (h : fpVal f a = .inf s) : fpInf f s = a := by
  obtain ⟨hmag, rfl⟩ := fpVal_eq_inf h
  have hself := withSign_signOf_magOf hw
  rwa [hmag] at hself

theorem fpMul_one (hw : a.toNat < 2 ^ (signPos f + 1)) (hnan : fpVal f a ≠ .nan) : fpMul f (oneW f) a = a := by
  cases h : fpVal f a with
  | nan => exact absurd h hnan
  | inf s =>
    obtain ⟨-, -, -, hmul, -⟩ := operations_fin_inf (fpVal_oneW f) h
    rw [hmul (Nat.two_pow_pos _).ne', Bool.false_bne, fpInf_of_fpVal hw h]
  | fin s k =>
    rw [fpMul_fin (fpVal_oneW f) h, Bool.false_bne, roundW, Nat.mul_comm, roundMag_mul_self f k (Nat.two_pow_pos _), ← roundW,
      roundW_of_fpVal hw h]

theorem fpEq_posZero_of_fin (h : fpVal f a = .fin s k) : fpEq f a posZero = true ↔ k = 0 := by
  obtain ⟨-, -, heq⟩ := comparisons_fin h (fpVal_posZero f)
  rw [heq]
  cases s <;> simp [signedQuanta]

/-- A sum from +0 is the sample itself, -0 become +0. -/
theorem posZero_fpAdd (hw : a.toNat < 2 ^ (signPos f + 1)) (hnan : fpVal f a ≠ .nan) :
    fpAdd f posZero a = dropZeroSign f a := by
  unfold dropZeroSign
  cases h : fpVal f a with
  | nan => exact absurd h hnan
  | inf s =>
    obtain ⟨hadd, -⟩ := operations_fin_inf (fpVal_posZero f) h
    obtain ⟨-, -, hne⟩ := comparisons_inf_fin h (fpVal_posZero f)
    rw [hadd, hne, fpInf_of_fpVal hw h]
    rfl
  | fin s k =>
    rw [fpAdd_fin (fpVal_posZero f) h, show signedQuanta false 0 = 0 from rfl, zero_add, Bool.false_and]
    by_cases hk : k = 0
    · subst hk
      rw [if_pos ((fpEq_posZero_of_fin h).2 rfl), show signedQuanta s 0 = 0 by cases s <;> rfl, roundQuanta_zero]
      cases f <;> rfl
    · rw [if_neg (hk ∘ (fpEq_posZero_of_fin h).1), roundQuanta_signedQuanta f _ s hk, roundW_of_fpVal hw h]

/-- The sign of a zero summand shows only in a sum with -0. -/
theorem fpAdd_of_zero (ha : fpVal f a ≠ .nan) (hneg : fpVal f a ≠ .fin true 0) (hb : fpVal f b = .fin s 0) :
    fpAdd f a b = fpAdd f a posZero := by
  cases h : fpVal f a with
  | nan => exact absurd h ha
  | inf t =>
    obtain ⟨hadd, -⟩ := operations_inf_fin h hb
    obtain ⟨hadd', -⟩ := operations_inf_fin h (fpVal_posZero f)
    rw [hadd, hadd']
  | fin t j =>
    have hzero : signedQuanta s 0 = signedQuanta false 0 := by cases s <;> rfl
    rw [fpAdd_fin h hb, fpAdd_fin h (fpVal_posZero f), hzero, show signedQuanta false 0 = 0 from rfl, add_zero, Bool.and_false]
    by_cases hj : j = 0
    · subst hj
      have ht : t = false := by
        rw [← Bool.not_eq_true]
        rintro rfl
        exact hneg h
      rw [ht, Bool.false_and]
    · rw [roundQuanta_signedQuanta f _ t hj, roundQuanta_signedQuanta f _ t hj]

theorem fpVal_dropZeroSign_ne_nan (hnan : fpVal f a ≠ .nan) : fpVal f (dropZeroSign f a) ≠ .nan := by
  rcases dropZeroSign_cases f a with h | h <;> rw [h]
  · simp
  · exact hnan

theorem fpVal_dropZeroSign_ne_negZero (f : Fmt) (a : Sample) : fpVal f (dropZeroSign f a) ≠ .fin true 0 := by
  unfold dropZeroSign
  split_ifs with hzero
  · simp
  · exact fun h => hzero ((fpEq_posZero_of_fin h).2 rfl)

theorem fpAdd_dropZeroSign_right (ha : fpVal f a ≠ .nan) :
    fpAdd f (dropZeroSign f a) b = fpAdd f (dropZeroSign f a) (dropZeroSign f b) := by
  by_cases hzero : fpEq f b posZero = true
  · rw [show dropZeroSign f b = posZero from if_pos hzero]
    cases h : fpVal f b with
    | nan => simp [fpEq, h, valEq] at hzero
    | inf s => simp [fpEq, h, valEq] at hzero
    | fin s k =>
      obtain rfl := (fpEq_posZero_of_fin h).1 hzero
      exact fpAdd_of_zero (fpVal_dropZeroSign_ne_nan ha) (fpVal_dropZeroSign_ne_negZero f a) h
  · rw [show dropZeroSign f b = b from if_neg hzero]

end

/-- Settles O49: each product with 1.0 is its sample, the sum from +0 drops a zero's sign, and then the sign of the second
stream's zero does not show. -/
theorem mixIsLinear : Obligations.MixIsLinear := by
  intro f a b hwa hwb hna hnb
  have hone : ∀ acc x : Sample, x.toNat < 2 ^ (signPos f + 1) → fpVal f x ≠ .nan →
      fpAdd f acc (fpMul f (toW f 0x3FF0000000000000#64) x) = fpAdd f acc x := fun acc x hw hnan => by
    rw [toW_one, fpMul_one hw hnan]
  constructor
  · calc mix f 1 [(0x3FF0000000000000#64, [a])]
      _ = [fpAdd f posZero (fpMul f (toW f 0x3FF0000000000000#64) a)] := rfl
      _ = [dropZeroSign f a] := by rw [hone _ _ hwa hna, posZero_fpAdd hwa hna]
  · calc mix f 1 [(0x3FF0000000000000#64, [a]), (0x3FF0000000000000#64, [b])]
      _ = [fpAdd f (fpAdd f posZero (fpMul f (toW f 0x3FF0000000000000#64) a))
            (fpMul f (toW f 0x3FF0000000000000#64) b)] := rfl
      _ = [fpAdd f (dropZeroSign f a) b] := by rw [hone _ _ hwa hna, hone _ _ hwb hnb, posZero_fpAdd hwa hna]
      _ = [fpAdd f (dropZeroSign f a) (dropZeroSign f b)] := by rw [fpAdd_dropZeroSign_right hna]

end Sys2Proof.Machine
end

section
/-! PROOF. Blocks of samples as runs of pure machines: a run of `m + n` samples is a run of `m` and then one of `n`, for one unit, for
the units of a group and for those of a graph (45_graph.md R224, R226). -/

namespace Sys2Proof.Machine

open Sys2Proof

/-- `run bs` is `bs` samples of a machine: it outputs as many, and runs that follow one another join. -/
structure BlockRun {σ : Type} (run : Nat → σ → List Sample × σ) : Prop where
  zero : ∀ st, run 0 st = ([], st)
  add : ∀ m n st, run (m + n) st = ((run m st).1 ++ (run n (run m st).2).1, (run n (run m st).2).2)
  length : ∀ bs st, (run bs st).1.length = bs

theorem blockRun_oscBlock (p : Params) : BlockRun fun bs o => oscBlock p o bs where
  zero _ := rfl
  add m n o := by
    rw [oscBlock, List.replicate_add, runSamples_append]
    rfl
  length bs o := by rw [oscBlock, runSamples_length, List.length_replicate]

/-! The mix of streams of equal lengths. -/

section

variable (f : Fmt)

/-- One stream added to a sum (45_graph.md R210). -/
def addStream (acc : List Sample) (gb : Word × List Sample) : List Sample :=
  List.zipWith (fun a b => fpAdd f a (fpMul f (toW f gb.1) b)) acc gb.2

theorem mix_eq_foldl (bs : Nat) (streams : List (Word × List Sample)) :
    mix f bs streams = streams.foldl (addStream f) (List.replicate bs posZero) := rfl

variable {f}

theorem foldl_addStream_length {bs : Nat} {streams : List (Word × List Sample)} (h : ∀ gb ∈ streams, gb.2.length = bs) :
    ∀ {acc : List Sample}, acc.length = bs → (streams.foldl (addStream f) acc).length = bs := by
  induction streams with
  | nil => exact fun hacc => hacc
  | cons gb streams ih =>
    intro acc hacc
    refine ih (fun x hx => h x (List.mem_cons_of_mem _ hx)) ?_
    rw [addStream, List.length_zipWith, hacc, h gb List.mem_cons_self, Nat.min_self]

theorem mix_length {bs : Nat} {streams : List (Word × List Sample)} (h : ∀ gb ∈ streams, gb.2.length = bs) :
    (mix f bs streams).length = bs :=
  foldl_addStream_length h List.length_replicate

/-- Streams cut at the same place add up piece by piece. -/
theorem foldl_addStream_append {α : Type} {m : Nat} (g : α → Word) (a b : α → List Sample) {l : List α}
    (h : ∀ x ∈ l, (a x).length = m) : ∀ {acc acc' : List Sample}, acc.length = m →
    (l.map fun x => (g x, a x ++ b x)).foldl (addStream f) (acc ++ acc') =
      (l.map fun x => (g x, a x)).foldl (addStream f) acc ++ (l.map fun x => (g x, b x)).foldl (addStream f) acc' := by
  induction l with
  | nil => exact fun _ => rfl
  | cons x l ih =>
    intro acc acc' hacc
    have hx : acc.length = (a x).length := hacc.trans (h x List.mem_cons_self).symm
    have hsum : addStream f (acc ++ acc') (g x, a x ++ b x) = addStream f acc (g x, a x) ++ addStream f acc' (g x, b x) :=
      List.zipWith_append hx
    have hlen : (addStream f acc (g x, a x)).length = m := by rw [addStream, List.length_zipWith, ← hx, Nat.min_self, hacc]
    rw [List.map_cons, List.foldl_cons, hsum]
    exact ih (fun y hy => h y (List.mem_cons_of_mem _ hy)) hlen

theorem mix_append {α : Type} {m : Nat} (n : Nat) (g : α → Word) (a b : α → List Sample) {l : List α}
    (h : ∀ x ∈ l, (a x).length = m) :
    mix f (m + n) (l.map fun x => (g x, a x ++ b x)) =
      mix f m (l.map fun x => (g x, a x)) ++ mix f n (l.map fun x => (g x, b x)) := by
  rw [mix_eq_foldl, List.replicate_add]
  exact foldl_addStream_append g a b h List.length_replicate

end

/-! Machines side by side, each with the gain its stream is mixed with. -/

section

variable {σ : Type} {run : Nat → σ → List Sample × σ}

/-- The streams of a bank of machines, and the machines after them. -/
def runBank (run : Nat → σ → List Sample × σ) (bs : Nat) (bank : List (Word × σ)) :
    List (Word × List Sample) × List (Word × σ) :=
  (bank.map fun gx => (gx.1, (run bs gx.2).1), bank.map fun gx => (gx.1, (run bs gx.2).2))

/-- A bank of machines, mixed. -/
def mixBank (f : Fmt) (run : Nat → σ → List Sample × σ) (bs : Nat) (bank : List (Word × σ)) : List Sample × List (Word × σ) :=
  (mix f bs (runBank run bs bank).1, (runBank run bs bank).2)

theorem BlockRun.mixBank (h : BlockRun run) (f : Fmt) : BlockRun (mixBank f run) where
  zero bank := by
    have hlen : (mix f 0 (runBank run 0 bank).1).length = 0 := by
      refine mix_length fun gb hgb => ?_
      obtain ⟨gx, -, rfl⟩ := List.mem_map.1 hgb
      exact h.length 0 gx.2
    refine Prod.ext (List.length_eq_zero_iff.1 hlen) ?_
    simp only [Machine.mixBank, runBank, h.zero, Prod.mk.eta, List.map_id']
  add m n bank := by
    refine Prod.ext ?_ ?_
    · simp only [Machine.mixBank, runBank, h.add m n, List.map_map]
      exact mix_append n _ _ _ fun gx _ => h.length m gx.2
    · simp only [Machine.mixBank, runBank, h.add m n, List.map_map]
      rfl
  length bs bank := by
    refine mix_length fun gb hgb => ?_
    obtain ⟨gx, -, rfl⟩ := List.mem_map.1 hgb
    exact h.length bs gx.2

end

/-! A unit that may be absent: its input passes on unchanged. -/

section

variable {σ : Type} (step : σ → Sample → Sample × σ)

/-- A list of samples through a unit that may be absent. -/
def runOptional : Option σ → List Sample → List Sample × Option σ
  | none, xs => (xs, none)
  | some st, xs => ((runSamples step st xs).1, some (runSamples step st xs).2)

theorem runOptional_nil (o : Option σ) : runOptional step o [] = ([], o) := by cases o <;> rfl

theorem runOptional_append (o : Option σ) (xs ys : List Sample) :
    runOptional step o (xs ++ ys) =
      ((runOptional step o xs).1 ++ (runOptional step (runOptional step o xs).2 ys).1,
        (runOptional step (runOptional step o xs).2 ys).2) := by
  cases o with
  | none => rfl
  | some st => simp only [runOptional, runSamples_append]

theorem runOptional_length (o : Option σ) (xs : List Sample) : (runOptional step o xs).1.length = xs.length := by
  cases o with
  | none => rfl
  | some st => exact runSamples_length step xs st

/-- A machine whose output goes through a unit that may be absent. -/
def runThrough {τ : Type} (run : Nat → τ → List Sample × τ) (bs : Nat) (st : τ × Option σ) : List Sample × (τ × Option σ) :=
  ((runOptional step st.2 (run bs st.1).1).1, ((run bs st.1).2, (runOptional step st.2 (run bs st.1).1).2))

theorem BlockRun.through {τ : Type} {run : Nat → τ → List Sample × τ} (h : BlockRun run) : BlockRun (runThrough step run) where
  zero st := by simp only [runThrough, h.zero, runOptional_nil]
  add m n st := by simp only [runThrough, h.add m n, runOptional_append]
  length bs st := by rw [runThrough, runOptional_length, h.length]

end

/-! The machines of a group and of a graph (45_graph.md R215). -/

/-- One sample times an envelope's level (45_graph.md R216). -/
def envSample (f : Fmt) (e : EnvUnit) (x : Sample) : Sample × EnvUnit := (fpMul f x (envStep f e).1, (envStep f e).2)

/-- The units of a group: its oscillators with their gains, its filter, its envelope. -/
abbrev GroupUnits := (List (Word × OscUnit) × Option FltUnit) × Option EnvUnit

/-- A group's block: the mix of its oscillators, through its filter, times its envelope. -/
def groupBlock (p : Params) : Nat → GroupUnits → List Sample × GroupUnits :=
  runThrough (envSample p.fmt) (runThrough (fltStep p.fmt) (mixBank p.fmt fun bs o => oscBlock p o bs))

/-- The units of a graph: its groups with their output gains, its delay line. -/
abbrev GraphUnits := List (Word × GroupUnits) × Option DlyUnit

/-- A graph's block: the mix of its groups, through its delay line. -/
def graphBlock (p : Params) : Nat → GraphUnits → List Sample × GraphUnits :=
  runThrough (dlyStep p.fmt) (mixBank p.fmt (groupBlock p))

theorem blockRun_groupBlock (p : Params) : BlockRun (groupBlock p) :=
  (((blockRun_oscBlock p).mixBank p.fmt).through _).through _

theorem blockRun_graphBlock (p : Params) : BlockRun (graphBlock p) :=
  ((blockRun_groupBlock p).mixBank p.fmt).through _

end Sys2Proof.Machine
end
section
/-! PROOF. What a run over units of the state reads and writes: it does to the units it names what a pure machine does, and keeps every
other unit; runs on different units follow one another without touching each other's (10_state.md R41, 45_graph.md R224). -/

namespace Sys2Proof.Machine

open Sys2Proof

/-! The units of a state by kind and index. -/

/-- A unit's kind and index. -/
abbrev UnitName := UnitKind × Nat

/-- How many units of a kind a state holds. -/
def unitCount (s : State) : UnitKind → Nat
  | .osc => s.osc.length
  | .flt => s.flt.length
  | .env => s.env.length
  | .dly => s.dly.length

/-- The state holds a unit of that name. -/
def UnitExists (s : State) (n : UnitName) : Prop := n.2 < unitCount s n.1

/-- The unit of that name is the same in two states. -/
def SameUnit (s t : State) : UnitName → Prop
  | (.osc, v) => oscAt t v = oscAt s v
  | (.flt, v) => fltAt t v = fltAt s v
  | (.env, v) => envAt t v = envAt s v
  | (.dly, v) => dlyAt t v = dlyAt s v

theorem SameUnit.refl (s : State) (n : UnitName) : SameUnit s s n := by
  obtain ⟨k, v⟩ := n
  cases k <;> rfl

theorem SameUnit.symm {s t : State} {n : UnitName} (h : SameUnit s t n) : SameUnit t s n := by
  obtain ⟨k, v⟩ := n
  cases k <;> exact Eq.symm h

theorem SameUnit.trans {s t u : State} {n : UnitName} (h : SameUnit s t n) (h' : SameUnit t u n) : SameUnit s u n := by
  obtain ⟨k, v⟩ := n
  cases k <;> exact Eq.trans h' h

/-- Everything that a run over the units of `names` keeps: the parameters, the numbers of units and every other unit. -/
structure KeepsOthers (names : List UnitName) (s t : State) : Prop where
  params : t.params = s.params
  count : ∀ k, unitCount t k = unitCount s k
  units : ∀ n, n ∉ names → SameUnit s t n

section

variable {names a b : List UnitName} {s t u : State}

theorem KeepsOthers.refl (names : List UnitName) (s : State) : KeepsOthers names s s :=
  ⟨rfl, fun _ => rfl, fun n _ => SameUnit.refl s n⟩

theorem KeepsOthers.trans (h : KeepsOthers a s t) (h' : KeepsOthers b t u) : KeepsOthers (a ++ b) s u where
  params := h'.params.trans h.params
  count k := (h'.count k).trans (h.count k)
  units n hn := by
    rw [List.mem_append, not_or] at hn
    exact (h.units n hn.1).trans (h'.units n hn.2)

theorem KeepsOthers.mono (h : KeepsOthers a s t) (hab : a ⊆ b) : KeepsOthers b s t :=
  { h with units := fun n hn => h.units n (mt (@hab n) hn) }

theorem KeepsOthers.unitExists (h : KeepsOthers names s t) {n : UnitName} (hn : UnitExists s n) : UnitExists t n := by
  rwa [UnitExists, h.count]

/-- Replacing an entry of a list leaves the others. -/
theorem getD_set_ne {α : Type} {l : List α} {u v : Nat} (x d : α) (h : v ≠ u) : (l.set u x).getD v d = l.getD v d := by
  rw [List.getD_eq_getElem?_getD, List.getElem?_set_ne h.symm, ← List.getD_eq_getElem?_getD]

theorem getD_set_self {α : Type} {l : List α} {u : Nat} (x d : α) (h : u < l.length) : (l.set u x).getD u d = x := by
  rw [List.getD_eq_getElem _ _ (by rwa [List.length_set]), List.getElem_set_self]

theorem keepsOthers_setOsc (s : State) (u : Nat) (o : OscUnit) : KeepsOthers [(.osc, u)] s (setOsc s u o) where
  params := rfl
  count k := by cases k <;> simp [unitCount]
  units n hn := by
    obtain ⟨k, v⟩ := n
    cases k with
    | osc => exact getD_set_ne o _ (by simpa using hn)
    | flt | env | dly => rfl

theorem keepsOthers_setFlt (s : State) (u : Nat) (x : FltUnit) : KeepsOthers [(.flt, u)] s (setFlt s u x) where
  params := rfl
  count k := by cases k <;> simp [unitCount]
  units n hn := by
    obtain ⟨k, v⟩ := n
    cases k with
    | flt => exact getD_set_ne x _ (by simpa using hn)
    | osc | env | dly => rfl

theorem keepsOthers_setEnv (s : State) (u : Nat) (e : EnvUnit) : KeepsOthers [(.env, u)] s (setEnv s u e) where
  params := rfl
  count k := by cases k <;> simp [unitCount]
  units n hn := by
    obtain ⟨k, v⟩ := n
    cases k with
    | env => exact getD_set_ne e _ (by simpa using hn)
    | osc | flt | dly => rfl

theorem keepsOthers_setDly (s : State) (u : Nat) (l : DlyUnit) : KeepsOthers [(.dly, u)] s (setDly s u l) where
  params := rfl
  count k := by cases k <;> simp [unitCount]
  units n hn := by
    obtain ⟨k, v⟩ := n
    cases k with
    | dly => exact getD_set_ne l _ (by simpa using hn)
    | osc | flt | env => rfl

/-- In lists of equal lengths, the same value with a default at an index is the same entry there. -/
theorem getElem?_eq_of_getD {α : Type} {l l' : List α} {d : α} {v : Nat} (hlen : l'.length = l.length)
    (h : l'.getD v d = l.getD v d) : l'[v]? = l[v]? := by
  rcases lt_or_ge v l.length with hv | hv
  · rw [List.getD_eq_getElem _ _ hv, List.getD_eq_getElem _ _ (hlen ▸ hv)] at h
    rw [List.getElem?_eq_getElem hv, List.getElem?_eq_getElem (hlen ▸ hv), h]
  · rw [List.getElem?_eq_none hv, List.getElem?_eq_none (hlen.trans_le hv)]

theorem sameUnits_of_each (hcount : ∀ k, unitCount t k = unitCount s k) (h : ∀ n, SameUnit s t n) : SameUnits t s :=
  ⟨List.ext_getElem? fun v => getElem?_eq_of_getD (hcount .osc) (h (.osc, v)),
    List.ext_getElem? fun v => getElem?_eq_of_getD (hcount .flt) (h (.flt, v)),
    List.ext_getElem? fun v => getElem?_eq_of_getD (hcount .env) (h (.env, v)),
    List.ext_getElem? fun v => getElem?_eq_of_getD (hcount .dly) (h (.dly, v))⟩

end

/-! Parts of the state that are made of some units. -/

/-- `load` is made of exactly the units of `names`. -/
def Reads {σ : Type} (names : List UnitName) (load : State → σ) : Prop :=
  ∀ s t, load t = load s ↔ ∀ n ∈ names, SameUnit s t n

theorem Reads.pair {σ τ : Type} {a b : List UnitName} {load : State → σ} {load' : State → τ} (h : Reads a load)
    (h' : Reads b load') : Reads (a ++ b) fun s => (load s, load' s) := by
  intro s t
  rw [Prod.mk.injEq, h s t, h' s t, List.forall_mem_append]

theorem Reads.bank {σ α : Type} {names : α → List UnitName} {gain : α → Word} {load : α → State → σ}
    (h : ∀ x, Reads (names x) (load x)) (l : List α) :
    Reads (l.flatMap names) fun s => l.map fun x => (gain x, load x s) := by
  intro s t
  simp only [List.map_inj_left, Prod.mk.injEq, true_and, h _ s t, List.mem_flatMap, forall_exists_index, and_imp]
  exact ⟨fun h n x hx hn => h x hx n hn, fun h x hx n hn => h n x hx hn⟩

theorem Reads.optional {σ : Type} {k : UnitKind} {entry : State → Nat → σ} (h : ∀ u, Reads [(k, u)] fun s => entry s u)
    (name : Option Nat) : Reads (name.toList.map (Prod.mk k)) fun s => name.map (entry s) := by
  intro s t
  cases name with
  | none => simp
  | some u => simpa using h u s t

theorem reads_oscAt (u : Nat) : Reads [(.osc, u)] fun s => oscAt s u := fun s t => by simp [SameUnit]
theorem reads_fltAt (u : Nat) : Reads [(.flt, u)] fun s => fltAt s u := fun s t => by simp [SameUnit]
theorem reads_envAt (u : Nat) : Reads [(.env, u)] fun s => envAt s u := fun s t => by simp [SameUnit]
theorem reads_dlyAt (u : Nat) : Reads [(.dly, u)] fun s => dlyAt s u := fun s t => by simp [SameUnit]

/-! Runs over the state. -/

/-- A run from `s` with the answer `r` is the pure `run` on the part `load` of the state, and keeps every unit not in `names`. -/
structure RunsOn {σ ρ : Type} (names : List UnitName) (load : State → σ) (run : σ → ρ × σ) (s : State) (r : ρ × State) :
    Prop where
  output : r.1 = (run (load s)).1
  next : load r.2 = (run (load s)).2
  others : KeepsOthers names s r.2

section

variable {σ τ ρ ρ' : Type} {a b : List UnitName} {load : State → σ} {load' : State → τ} {s : State}

/-- Two runs on different units: the second finds its units as they were before the first, and keeps those of the first. -/
theorem RunsOn.followedBy {run : σ → ρ × σ} {run' : τ → ρ' × τ} {r : ρ × State} {r' : ρ' × State} (hload : Reads a load)
    (hload' : Reads b load') (hab : a.Disjoint b) (h : RunsOn a load run s r) (h' : RunsOn b load' run' r.2 r') :
    load r'.2 = (run (load s)).2 ∧ r'.1 = (run' (load' s)).1 ∧ load' r'.2 = (run' (load' s)).2 ∧
    KeepsOthers (a ++ b) s r'.2 := by
  have hfirst : load r'.2 = load r.2 := (hload _ _).2 fun n hn => h'.others.units n fun hn' => hab hn hn'
  have hsecond : load' r.2 = load' s := (hload' _ _).2 fun n hn => h.others.units n fun hn' => hab hn' hn
  exact ⟨hfirst.trans h.next, hsecond ▸ h'.output, hsecond ▸ h'.next, h.others.trans h'.others⟩

/-- A machine, then a unit that its output goes through. -/
theorem RunsOn.through {run : Nat → σ → List Sample × σ} {bs : Nat} {step : τ → Sample → Sample × τ}
    {load' : State → Option τ} {r r' : List Sample × State} (hload : Reads a load) (hload' : Reads b load')
    (hab : a.Disjoint b) (h : RunsOn a load (run bs) s r)
    (h' : RunsOn b load' (fun o => runOptional step o r.1) r.2 r') :
    RunsOn (a ++ b) (fun s => (load s, load' s)) (runThrough step run bs) s r' := by
  obtain ⟨hnext, hout, hnext', hothers⟩ := h.followedBy hload hload' hab h'
  rw [h.output] at hout hnext'
  exact ⟨hout, Prod.ext hnext hnext', hothers⟩

/-- A machine, then the rest of its bank. -/
theorem RunsOn.bank {run : Nat → σ → List Sample × σ} {bs : Nat} {load' : State → List (Word × σ)} {r : List Sample × State}
    {r' : List (Word × List Sample) × State} (hload : Reads a load) (hload' : Reads b load') (hab : a.Disjoint b) (g : Word)
    (h : RunsOn a load (run bs) s r) (h' : RunsOn b load' (runBank run bs) r.2 r') :
    RunsOn (a ++ b) (fun s => (g, load s) :: load' s) (runBank run bs) s ((g, r.1) :: r'.1, r'.2) := by
  obtain ⟨hnext, hout, hnext', hothers⟩ := h.followedBy hload hload' hab h'
  exact ⟨congrArg₂ List.cons (congrArg _ h.output) hout, congrArg₂ List.cons (congrArg _ hnext) hnext', hothers⟩

theorem RunsOn.mixed {run : Nat → σ → List Sample × σ} {bs : Nat} {load : State → List (Word × σ)}
    {r : List (Word × List Sample) × State} (h : RunsOn a load (runBank run bs) s r) (f : Fmt) :
    RunsOn a load (mixBank f run bs) s (mix f bs r.1, r.2) :=
  ⟨congrArg (mix f bs) h.output, h.next, h.others⟩

end

end Sys2Proof.Machine
end
section
/-! PROOF. PROCESS_BLOCK: the run of the graph, sample by sample or as a block, in one block or in two, and the words of OUTBUF
(45_graph.md R224 to R226). -/

namespace Sys2Proof.Machine

open Sys2Proof

/-! The units that the parts of a graph name. -/

/-- The oscillators that sources name, in list order. -/
def sourceNames (srcs : List Source) : List UnitName := srcs.flatMap fun src => [(.osc, src.osc)]

/-- The units that a group names: its oscillators, its filter, its envelope. -/
def groupNames (gr : Group) : List UnitName :=
  (sourceNames gr.sources ++ gr.filter.toList.map (Prod.mk .flt)) ++ gr.env.toList.map (Prod.mk .env)

/-- The units that a graph names: those of its groups, its delay line. -/
def graphNames (g : Graph) : List UnitName := g.groups.flatMap groupNames ++ g.delay.toList.map (Prod.mk .dly)

theorem sourceNames_eq_map (srcs : List Source) : sourceNames srcs = (srcs.map Source.osc).map (Prod.mk .osc) := by
  rw [List.map_map, List.map_eq_flatMap]
  rfl

/-! The units of the parts of a graph, in a state. -/

/-- The oscillators of sources, each with its gain. -/
def voices (srcs : List Source) (s : State) : List (Word × OscUnit) := srcs.map fun src => (src.gain, oscAt s src.osc)

/-- The units that a group names. -/
def groupUnits (gr : Group) (s : State) : GroupUnits :=
  ((voices gr.sources s, gr.filter.map (fltAt s)), gr.env.map (envAt s))

/-- The units of groups, each with its output gain. -/
def groupsUnits (grs : List Group) (s : State) : List (Word × GroupUnits) := grs.map fun gr => (gr.outGain, groupUnits gr s)

/-- The units that a graph names. -/
def graphUnits (g : Graph) (s : State) : GraphUnits := (groupsUnits g.groups s, g.delay.map (dlyAt s))

theorem reads_voices (srcs : List Source) : Reads (sourceNames srcs) (voices srcs) :=
  Reads.bank (fun src : Source => reads_oscAt src.osc) srcs

theorem reads_groupUnits (gr : Group) : Reads (groupNames gr) (groupUnits gr) :=
  ((reads_voices gr.sources).pair (.optional reads_fltAt gr.filter)).pair (.optional reads_envAt gr.env)

theorem reads_groupsUnits (grs : List Group) : Reads (grs.flatMap groupNames) (groupsUnits grs) :=
  Reads.bank reads_groupUnits grs

theorem reads_graphUnits (g : Graph) : Reads (graphNames g) (graphUnits g) :=
  (reads_groupsUnits g.groups).pair (.optional reads_dlyAt g.delay)

/-! What `GRAPH`'s well-formedness says of the names (10_state.md R41). -/

theorem graphNames_perm (g : Graph) :
    (graphNames g).Perm (g.oscNames.map (Prod.mk .osc) ++ g.fltNames.map (Prod.mk .flt) ++ g.envNames.map (Prod.mk .env) ++
      g.delay.toList.map (Prod.mk .dly)) := by
  have hosc : g.oscNames.map (Prod.mk .osc) = g.groups.flatMap fun gr => sourceNames gr.sources := by
    simp only [Graph.oscNames, List.map_flatMap, sourceNames_eq_map]
  have hflt : g.fltNames.map (Prod.mk .flt) = g.groups.flatMap fun gr => gr.filter.toList.map (Prod.mk UnitKind.flt) := by
    rw [Graph.fltNames, List.filterMap_eq_flatMap_toList, List.map_flatMap]
  have henv : g.envNames.map (Prod.mk .env) = g.groups.flatMap fun gr => gr.env.toList.map (Prod.mk UnitKind.env) := by
    rw [Graph.envNames, List.filterMap_eq_flatMap_toList, List.map_flatMap]
  rw [hosc, hflt, henv]
  refine List.Perm.append_right _ ?_
  refine ((List.flatMap_append_perm _ _ _).append_right _).trans ?_ |>.symm
  exact List.flatMap_append_perm _ _ _

theorem mem_graphNames {g : Graph} {n : UnitName} :
    n ∈ graphNames g ↔ (n.1 = .osc ∧ n.2 ∈ g.oscNames) ∨ (n.1 = .flt ∧ n.2 ∈ g.fltNames) ∨ (n.1 = .env ∧ n.2 ∈ g.envNames) ∨
      (n.1 = .dly ∧ g.delay = some n.2) := by
  obtain ⟨k, v⟩ := n
  rw [(graphNames_perm g).mem_iff]
  cases k <;> simp

/-- The units that `GRAPH` names exist, and each is named once. -/
structure GraphOk (s : State) : Prop where
  nodup : (graphNames s.params.graph).Nodup
  exist : ∀ n ∈ graphNames s.params.graph, UnitExists s n

theorem disjoint_names_of_kind {names : List UnitName} {k : UnitKind} (h : ∀ n ∈ names, n.1 ≠ k) (us : List Nat) :
    names.Disjoint (us.map (Prod.mk k)) := by
  intro n hn hk
  obtain ⟨u, -, rfl⟩ := List.mem_map.1 hk
  exact h _ hn rfl

theorem nodup_graphNames {p : Params} (h : p.wf = true) : (graphNames p.graph).Nodup := by
  simp only [Params.wf, Graph.noAliasing, Bool.and_eq_true, decide_eq_true_eq] at h
  obtain ⟨⟨-, ⟨hosc, hflt⟩, henv⟩, -⟩ := h
  have hinj : ∀ k : UnitKind, Function.Injective (Prod.mk k : Nat → UnitName) := fun k => Prod.mk_right_injective k
  rw [(graphNames_perm p.graph).nodup_iff, List.nodup_append', List.nodup_append', List.nodup_append']
  have hdly : p.graph.delay.toList.Nodup := by cases p.graph.delay <;> simp
  refine ⟨⟨⟨hosc.map (hinj _), hflt.map (hinj _), ?_⟩, henv.map (hinj _), ?_⟩, hdly.map (hinj _), ?_⟩ <;>
    refine disjoint_names_of_kind ?_ _ <;> simp [or_imp, forall_and]

theorem Inv.graphOk {s : State} (h : Inv s) : GraphOk s where
  nodup := nodup_graphNames h.params
  exist n hn := by
    have hwf := h.params
    simp only [Params.wf, Params.namesExist, Bool.and_eq_true, List.all_eq_true, decide_eq_true_eq, Option.all_eq_true] at hwf
    obtain ⟨⟨⟨-, ⟨⟨hosc, hflt⟩, henv⟩, hdly⟩, -⟩, -⟩ := hwf
    obtain ⟨k, v⟩ := n
    rcases mem_graphNames.1 hn with ⟨rfl, hv⟩ | ⟨rfl, hv⟩ | ⟨rfl, hv⟩ | ⟨rfl, hv⟩
    · exact (hosc v hv).trans_eq h.oscCount.symm
    · exact (hflt v hv).trans_eq h.fltCount.symm
    · exact (henv v hv).trans_eq h.envCount.symm
    · exact (hdly v hv).trans_eq h.dlyCount.symm

theorem GraphOk.keepsOthers {names : List UnitName} {s t : State} (h : GraphOk s) (hst : KeepsOthers names s t) : GraphOk t where
  nodup := hst.params ▸ h.nodup
  exist n hn := hst.unitExists (h.exist n (hst.params ▸ hn))

/-! States whose units differ in nothing. -/

theorem keepsOthers_of_sameUnits {s t : State} (hp : t.params = s.params) (h : SameUnits s t) : KeepsOthers [] s t := by
  obtain ⟨hosc, hflt, henv, hdly⟩ := h
  refine ⟨hp, fun k => ?_, fun n _ => ?_⟩
  · cases k <;> simp only [unitCount, hosc, hflt, henv, hdly]
  · obtain ⟨k, v⟩ := n
    cases k <;> simp only [SameUnit, oscAt, fltAt, envAt, dlyAt, hosc, hflt, henv, hdly]

section

variable {σ ρ : Type} {names : List UnitName} {load : State → σ} {run : σ → ρ × σ} {s s' t t' : State} {y : ρ}

theorem RunsOn.congr_end (hload : Reads names load) (h : RunsOn names load run s (y, t)) (ht : KeepsOthers [] t t') :
    RunsOn names load run s (y, t') := by
  refine ⟨h.output, ?_, List.append_nil names ▸ h.others.trans ht⟩
  rw [← h.next]
  exact (hload _ _).2 fun n _ => ht.units n List.not_mem_nil

theorem RunsOn.congr_start (hload : Reads names load) (h : RunsOn names load run s (y, t)) (hs : KeepsOthers [] s' s) :
    RunsOn names load run s' (y, t) := by
  have heq : load s = load s' := (hload _ _).2 fun n _ => hs.units n List.not_mem_nil
  exact ⟨heq ▸ h.output, heq ▸ h.next, hs.trans h.others⟩

end

/-! A block of the graph, part by part. -/

section

variable {p : Params} {bs : Nat}

theorem runSources_runs (srcs : List Source) : ∀ {s : State}, s.params = p → (sourceNames srcs).Nodup →
    (∀ n ∈ sourceNames srcs, UnitExists s n) →
    RunsOn (sourceNames srcs) (voices srcs) (runBank (fun bs o => oscBlock p o bs) bs) s (runSources bs s srcs) := by
  induction srcs with
  | nil => exact fun _ _ _ => ⟨rfl, rfl, KeepsOthers.refl _ _⟩
  | cons src rest ih =>
    intro s hp hnodup hexist
    obtain ⟨-, hrest, hdisj⟩ := List.nodup_append'.1 hnodup
    have hkeep := keepsOthers_setOsc s src.osc (oscBlock p (oscAt s src.osc) bs).2
    have hosc : RunsOn [(.osc, src.osc)] (fun s => oscAt s src.osc) (fun o => oscBlock p o bs) s
        ((oscBlock p (oscAt s src.osc) bs).1, setOsc s src.osc (oscBlock p (oscAt s src.osc) bs).2) :=
      ⟨rfl, getD_set_self _ _ (hexist _ List.mem_cons_self), hkeep⟩
    have htail := ih (s := setOsc s src.osc (oscBlock p (oscAt s src.osc) bs).2) hp hrest fun n hn =>
      hkeep.unitExists (hexist n (List.mem_cons_of_mem _ hn))
    have hbank := hosc.bank (run := fun bs o => oscBlock p o bs) (reads_oscAt _) (reads_voices rest) hdisj src.gain htail
    simp only [runSources, hp]
    exact hbank

theorem runFilter_runs {s : State} (hp : s.params = p) {name : Option Nat}
    (hexist : ∀ n ∈ name.toList.map (Prod.mk UnitKind.flt), UnitExists s n) (xs : List Sample) :
    RunsOn (name.toList.map (Prod.mk .flt)) (fun s => name.map (fltAt s)) (fun o => runOptional (fltStep p.fmt) o xs) s
      (runFilter s name xs) := by
  subst hp
  cases name with
  | none => exact ⟨rfl, rfl, KeepsOthers.refl _ _⟩
  | some u => exact ⟨rfl, congrArg some (getD_set_self _ _ (hexist (.flt, u) List.mem_cons_self)), keepsOthers_setFlt _ _ _⟩

theorem runEnvelope_runs {s : State} (hp : s.params = p) {name : Option Nat}
    (hexist : ∀ n ∈ name.toList.map (Prod.mk UnitKind.env), UnitExists s n) (xs : List Sample) :
    RunsOn (name.toList.map (Prod.mk .env)) (fun s => name.map (envAt s)) (fun o => runOptional (envSample p.fmt) o xs) s
      (runEnvelope s name xs) := by
  subst hp
  cases name with
  | none => exact ⟨rfl, rfl, KeepsOthers.refl _ _⟩
  | some u => exact ⟨rfl, congrArg some (getD_set_self _ _ (hexist (.env, u) List.mem_cons_self)), keepsOthers_setEnv _ _ _⟩

theorem runDelay_runs {s : State} (hp : s.params = p) {name : Option Nat}
    (hexist : ∀ n ∈ name.toList.map (Prod.mk UnitKind.dly), UnitExists s n) (xs : List Sample) :
    RunsOn (name.toList.map (Prod.mk .dly)) (fun s => name.map (dlyAt s)) (fun o => runOptional (dlyStep p.fmt) o xs) s
      (runDelay s name xs) := by
  subst hp
  cases name with
  | none => exact ⟨rfl, rfl, KeepsOthers.refl _ _⟩
  | some u => exact ⟨rfl, congrArg some (getD_set_self _ _ (hexist (.dly, u) List.mem_cons_self)), keepsOthers_setDly _ _ _⟩

/-- A group's sources, mix, filter and envelope are its machine; the scratch buffers it writes are no unit. -/
theorem runGroup_runs {s : State} (hp : s.params = p) (j : Nat) {gr : Group} (hnodup : (groupNames gr).Nodup)
    (hexist : ∀ n ∈ groupNames gr, UnitExists s n) :
    RunsOn (groupNames gr) (groupUnits gr) (groupBlock p bs) s (runGroup bs j s gr) := by
  obtain ⟨hnodup', -, henvDisj⟩ := List.nodup_append'.1 hnodup
  obtain ⟨hsrcNodup, -, hfltDisj⟩ := List.nodup_append'.1 hnodup'
  have hfltReads : Reads (gr.filter.toList.map (Prod.mk UnitKind.flt)) fun s => gr.filter.map (fltAt s) :=
    .optional reads_fltAt gr.filter
  have hsrc := (runSources_runs (bs := bs) gr.sources hp hsrcNodup fun n hn =>
    hexist n (List.mem_append_left _ (List.mem_append_left _ hn))).mixed p.fmt
  have hflt := hsrc.through (reads_voices _) hfltReads hfltDisj
    (runFilter_runs (hsrc.others.params.trans hp)
      (fun n hn => hsrc.others.unitExists (hexist n (List.mem_append_left _ (List.mem_append_right _ hn)))) _)
  have henv := hflt.through ((reads_voices _).pair hfltReads) (.optional reads_envAt gr.env) henvDisj
    (runEnvelope_runs (hflt.others.params.trans hp)
      (fun n hn => hflt.others.unitExists (hexist n (List.mem_append_right _ hn))) _)
  subst hp
  exact henv.congr_end (reads_groupUnits gr) (keepsOthers_of_sameUnits rfl ⟨rfl, rfl, rfl, rfl⟩)

theorem runGroups_runs (grs : List Group) : ∀ (j : Nat) {s : State}, s.params = p → (grs.flatMap groupNames).Nodup →
    (∀ n ∈ grs.flatMap groupNames, UnitExists s n) →
    RunsOn (grs.flatMap groupNames) (groupsUnits grs) (runBank (groupBlock p) bs) s (runGroups bs j s grs) := by
  induction grs with
  | nil => exact fun _ _ _ _ _ => ⟨rfl, rfl, KeepsOthers.refl _ _⟩
  | cons gr rest ih =>
    intro j s hp hnodup hexist
    rw [List.flatMap_cons] at hnodup hexist ⊢
    obtain ⟨hgr, hrest, hdisj⟩ := List.nodup_append'.1 hnodup
    have hhead := runGroup_runs (bs := bs) hp j hgr fun n hn => hexist n (List.mem_append_left _ hn)
    have htail := ih (j + 1) (hhead.others.params.trans hp) hrest fun n hn =>
      hhead.others.unitExists (hexist n (List.mem_append_right _ hn))
    exact hhead.bank (reads_groupUnits gr) (reads_groupsUnits rest) hdisj gr.outGain htail

end

/-- From `s`, `bs` samples of the graph with the answer `r`. -/
def GraphRuns (bs : Nat) (s : State) (r : List Sample × State) : Prop :=
  RunsOn (graphNames s.params.graph) (graphUnits s.params.graph) (graphBlock s.params bs) s r

theorem runGraph_runs {s : State} (h : GraphOk s) (bs : Nat) : GraphRuns bs s (runGraph s bs) := by
  obtain ⟨hnodup, hexist⟩ := h
  obtain ⟨hgroups, -, hdisj⟩ := List.nodup_append'.1 hnodup
  have hmix := (runGroups_runs (bs := bs) s.params.graph.groups 0 rfl hgroups fun n hn =>
    hexist n (List.mem_append_left _ hn)).mixed s.params.fmt
  exact hmix.through (reads_groupsUnits _) (.optional reads_dlyAt _) hdisj
    (runDelay_runs hmix.others.params (fun n hn => hmix.others.unitExists (hexist n (List.mem_append_right _ hn))) _)

/-! Runs of the graph that follow one another. -/

section

variable {bs m n : Nat} {s s' t t' : State} {xs ys : List Sample} {r r' : List Sample × State}

theorem GraphRuns.length (h : GraphRuns bs s r) : r.1.length = bs := by
  rw [h.output, (blockRun_graphBlock _).length]

theorem graphRuns_zero (s : State) : GraphRuns 0 s ([], s) := by
  have hzero := (blockRun_graphBlock s.params).zero (graphUnits s.params.graph s)
  exact ⟨by rw [hzero], by rw [hzero], KeepsOthers.refl _ _⟩

theorem GraphRuns.append (h : GraphRuns m s r) (h' : GraphRuns n r.2 r') : GraphRuns (m + n) s (r.1 ++ r'.1, r'.2) := by
  unfold GraphRuns at h'
  rw [h.others.params] at h'
  have hadd := (blockRun_graphBlock s.params).add m n (graphUnits s.params.graph s)
  refine ⟨?_, ?_, (h.others.trans h'.others).mono (by simp)⟩
  · rw [hadd, ← h.output, ← h.next, ← h'.output]
  · rw [hadd, ← h.next, ← h'.next]

/-- The machine decides the named units, and the others are those of `s`. -/
theorem GraphRuns.unique (h : GraphRuns bs s (xs, t)) (h' : GraphRuns bs s (ys, t')) : xs = ys ∧ SameUnits t t' := by
  refine ⟨h.output.trans h'.output.symm, sameUnits_of_each (fun k => (h.others.count k).trans (h'.others.count k).symm)
    fun n => ?_⟩
  by_cases hn : n ∈ graphNames s.params.graph
  · exact (reads_graphUnits _ _ _).1 (h.next.trans h'.next.symm) n hn
  · exact SameUnit.trans (SameUnit.symm (h'.others.units n hn)) (h.others.units n hn)

theorem GraphRuns.congr_start (h : GraphRuns bs s (xs, t)) (hp : s'.params = s.params) (hs : SameUnits s s') :
    GraphRuns bs s' (xs, t) := by
  unfold GraphRuns
  rw [hp]
  have hsymm : SameUnits s' s := ⟨hs.1.symm, hs.2.1.symm, hs.2.2.1.symm, hs.2.2.2.symm⟩
  exact RunsOn.congr_start (reads_graphUnits _) h (keepsOthers_of_sameUnits hp.symm hsymm)

theorem GraphRuns.congr_end (h : GraphRuns bs s (xs, t)) (hp : t'.params = t.params) (ht : SameUnits t t') :
    GraphRuns bs s (xs, t') :=
  RunsOn.congr_end (reads_graphUnits _) h (keepsOthers_of_sameUnits hp ht)

end

/-! One sample of the graph is a block of one sample, up to the scratch buffers. -/

theorem runSources_one (c : Scratch) (srcs : List Source) : ∀ s : State,
    runSources 1 { s with scratch := c } srcs =
      ((sampleSources s srcs).1.map fun gy => (gy.1, [gy.2]), { (sampleSources s srcs).2 with scratch := c }) := by
  induction srcs with
  | nil => exact fun _ => rfl
  | cons src rest ih =>
    intro s
    have htail := ih (setOsc s src.osc (oscStep s.params (oscAt s src.osc)).2)
    have hhead : runSources 1 { s with scratch := c } (src :: rest) =
        ((src.gain, [(oscStep s.params (oscAt s src.osc)).1]) ::
            (runSources 1 { setOsc s src.osc (oscStep s.params (oscAt s src.osc)).2 with scratch := c } rest).1,
          (runSources 1 { setOsc s src.osc (oscStep s.params (oscAt s src.osc)).2 with scratch := c } rest).2) := rfl
    rw [hhead, htail]
    rfl

theorem mix_one (f : Fmt) (streams : List (Word × Sample)) :
    mix f 1 (streams.map fun gy => (gy.1, [gy.2])) = [sampleMix f streams] := by
  rw [mix_eq_foldl, sampleMix, List.replicate_one]
  generalize posZero = acc
  induction streams generalizing acc with
  | nil => rfl
  | cons gy rest ih => exact ih _

theorem runFilter_one (c : Scratch) (s : State) (name : Option Nat) (x : Sample) :
    runFilter { s with scratch := c } name [x] =
      ([(sampleFilter s name x).1], { (sampleFilter s name x).2 with scratch := c }) := by
  cases name <;> rfl

theorem runEnvelope_one (c : Scratch) (s : State) (name : Option Nat) (x : Sample) :
    runEnvelope { s with scratch := c } name [x] =
      ([(sampleEnvelope s name x).1], { (sampleEnvelope s name x).2 with scratch := c }) := by
  cases name <;> rfl

theorem runDelay_one (c : Scratch) (s : State) (name : Option Nat) (x : Sample) :
    runDelay { s with scratch := c } name [x] =
      ([(sampleDelay s name x).1], { (sampleDelay s name x).2 with scratch := c }) := by
  cases name <;> rfl

theorem runGroups_one (grs : List Group) : ∀ (j : Nat) (s : State) (c : Scratch), ∃ c',
    runGroups 1 j { s with scratch := c } grs =
      ((sampleGroups s grs).1.map fun gy => (gy.1, [gy.2]), { (sampleGroups s grs).2 with scratch := c' }) := by
  induction grs with
  | nil => exact fun _ _ c => ⟨c, rfl⟩
  | cons gr rest ih =>
    intro j s c
    simp only [runGroups, runGroup, runSources_one, mix_one, runFilter_one, runEnvelope_one]
    obtain ⟨c', hrest⟩ := ih (j + 1) _ _
    exact ⟨c', by rw [hrest]; rfl⟩

theorem runGraph_one (s : State) : ∃ c, runGraph s 1 = ([(sampleGraph s).1], { (sampleGraph s).2 with scratch := c }) := by
  obtain ⟨c, hgroups⟩ := runGroups_one s.params.graph.groups 0 s s.scratch
  refine ⟨c, ?_⟩
  change runGroups 1 0 s s.params.graph.groups = _ at hgroups
  simp only [runGraph, hgroups, mix_one, runDelay_one]
  rfl

theorem sampleGraph_runs {s : State} (h : GraphOk s) : GraphRuns 1 s ([(sampleGraph s).1], (sampleGraph s).2) := by
  obtain ⟨c, hone⟩ := runGraph_one s
  have hrun := runGraph_runs h 1
  rw [hone] at hrun
  exact hrun.congr_end rfl ⟨rfl, rfl, rfl, rfl⟩

theorem sampleRun_runs (bs : Nat) : ∀ {s : State}, GraphOk s → GraphRuns bs s (sampleRun bs s) := by
  induction bs with
  | zero => exact fun _ => graphRuns_zero _
  | succ n ih =>
    intro s h
    have hone := sampleGraph_runs h
    have hrun := hone.append (ih (h.keepsOthers hone.others))
    rw [Nat.add_comm] at hrun
    exact hrun

/-- Settles O55: both runs are `bs` samples of the graph's machine, which decides the samples and the units. -/
theorem orderOfUnitsDoesNotMatter : Obligations.OrderOfUnitsDoesNotMatter := by
  intro s bs h
  exact (runGraph_runs h.graphOk bs).unique (sampleRun_runs bs h.graphOk)

end Sys2Proof.Machine
end
section
/-! PROOF. PROCESS_BLOCK as a command: its error, the words it writes and what it keeps, and a block split in two (45_graph.md R224,
R226; 20_memory.md R68). -/

namespace Sys2Proof.Machine

open Sys2Proof

theorem SameRegisters.eq_update {s t : State} (h : SameRegisters s t) :
    t = { s with osc := t.osc, flt := t.flt, env := t.env, dly := t.dly, outbuf := t.outbuf, scratch := t.scratch } := by
  obtain ⟨_, _, _, _, _, _, rfl⟩ := h
  rfl

section

variable {s : State}

theorem exec_processBlock_of_large (hready : Ready s .processBlock) (h : s.maxBlk < u64 s.arg0) :
    exec .processBlock s = .next (withError .prgBlockTooLarge 0#8 (encode .processBlock) s) := by
  unfold exec execProcessBlock
  exact runCommand_ready_of_error (e := { code := .prgBlockTooLarge, unit := 0#8 }) hready (by simp) (if_pos h)

theorem exec_processBlock_of_fits (hready : Ready s .processBlock) (h : u64 s.arg0 ≤ s.maxBlk) :
    exec .processBlock s = .next (blockResult s (u64 s.arg0)) := by
  unfold exec execProcessBlock
  exact runCommand_ready_of_ok hready (if_neg (not_lt.2 h))

/-! The words of OUTBUF after a block. -/

theorem runGraph_outbuf (s : State) (bs : Nat) : (runGraph s bs).2.outbuf = s.outbuf :=
  KeptByBlock.runGraph (P := fun t => t.outbuf = s.outbuf)
    ⟨fun _ _ h => h, fun _ _ _ h => h, fun _ _ _ h => h, fun _ _ _ h => h, fun _ _ _ _ _ _ h => h⟩ rfl

theorem blockResult_outbuf (s : State) (bs : Nat) :
    (blockResult s bs).outbuf = memWriteFrom .outbuf s.outbuf 0 ((runGraph s bs).1.map (to64 s.params.fmt)) := by
  rw [← runGraph_outbuf s bs]
  rfl

theorem memRead_blockResult (hwf : Memory.wf .outbuf s.outbuf = true) {bs i : Nat} {y : Sample}
    (h : (runGraph s bs).1[i]? = some y) :
    memRead .outbuf (blockResult s bs).outbuf i = some (to64 s.params.fmt y) := by
  have hword := memRead_memWriteFrom_at ((runGraph s bs).1.map (to64 s.params.fmt)) 0 hwf i (to64 s.params.fmt y)
    (by rw [List.getElem?_map, h, Option.map_some])
  rwa [Nat.zero_add, ← blockResult_outbuf] at hword

theorem memRead_blockResult_above (s : State) {bs i : Nat} (h : bs ≤ i) :
    memRead .outbuf (blockResult s bs).outbuf i = memRead .outbuf s.outbuf i := by
  have hlen := runGraph_length_le s bs
  rw [blockResult_outbuf, memRead_memWriteFrom_other _ _ (by rw [List.length_map]; omega)]

theorem blockResult_runs (h : GraphOk s) (bs : Nat) : GraphRuns bs s ((runGraph s bs).1, blockResult s bs) :=
  (runGraph_runs h bs).congr_end rfl ⟨rfl, rfl, rfl, rfl⟩

/-- An empty block advances no unit and writes no word (20_memory.md R68). -/
theorem blockResult_zero (h : GraphOk s) : SameUnits (blockResult s 0) s ∧ (blockResult s 0).outbuf = s.outbuf := by
  obtain ⟨hsamples, hunits⟩ := (blockResult_runs h 0).unique (graphRuns_zero s)
  refine ⟨hunits, ?_⟩
  rw [blockResult_outbuf, hsamples]
  rfl

end

/-- Settles O54: a block writes the graph's units and the words of OUTBUF below its size. -/
theorem processBlockWritesOutbuf : Obligations.ProcessBlockWritesOutbuf := by
  intro s hinv hready bs
  refine ⟨exec_processBlock_of_large hready, fun hfits => ⟨_, exec_processBlock_of_fits hready hfits, ?_⟩⟩
  obtain ⟨-, -, ⟨-, hcount, hunits⟩⟩ := blockResult_runs hinv.graphOk bs
  have hlen : (runGraph s bs).1.length = bs := (runGraph_runs hinv.graphOk bs).length
  refine ⟨(sameRegisters_blockResult s bs).eq_update, hlen, fun i y => memRead_blockResult hinv.outbuf.canonical, fun i => memRead_blockResult_above s,
    ⟨rfl, rfl, rfl, rfl⟩, fun v hv => ?_, fun v hv => ?_, fun v hv => ?_, fun v hv => ?_, fun hzero => ?_⟩
  · exact getElem?_eq_of_getD (hcount .osc) (hunits (.osc, v) (by simpa [mem_graphNames] using hv))
  · exact getElem?_eq_of_getD (hcount .flt) (hunits (.flt, v) (by simpa [mem_graphNames] using hv))
  · exact getElem?_eq_of_getD (hcount .env) (hunits (.env, v) (by simpa [mem_graphNames] using hv))
  · exact getElem?_eq_of_getD (hcount .dly) (hunits (.dly, v) (by simpa [mem_graphNames] using hv))
  · have hempty := blockResult_zero hinv.graphOk
    rwa [← hzero] at hempty

/-! A block split in two. -/

/-- What a block of `m` samples leaves: a core ready for the next, whose OUTBUF holds the samples `ys` of the graph's run. -/
structure BlockDone (m : Nat) (s : State) (ys : List Sample) (t : State) : Prop where
  inv : Inv t
  ready : Ready t .processBlock
  maxBlk : t.maxBlk = s.maxBlk
  runs : GraphRuns m s (ys, t)
  outbuf : ∀ i y, ys[i]? = some y → memRead .outbuf t.outbuf i = some (to64 s.params.fmt y)

/-- `MAXBLK` is far below what `ARG0` can hold, so a block size that fits is the operand's value. -/
theorem Inv.u64_ofNat {s : State} (h : Inv s) (hp : s.status.prepared = true) {m : Nat} (hm : m ≤ s.maxBlk) :
    u64 (BitVec.ofNat 64 m) = m := by
  have hwf := h.params
  simp only [Params.wf, Params.sizesLegal, Bool.and_eq_true, decide_eq_true_eq] at hwf
  obtain ⟨⟨⟨⟨⟨-, ⟨⟨-, hmax⟩, -⟩, -⟩, -⟩, -⟩, -⟩, -⟩ := hwf
  obtain ⟨-, hblk⟩ := h.blockSize hp
  exact BitVec.toNat_ofNat .. |>.trans (Nat.mod_eq_of_lt (by omega))

theorem exec_processBlock_done {s t : State} {m : Nat} (hinv : Inv s) (hready : Ready s .processBlock) (hm : m ≤ s.maxBlk)
    (h : exec .processBlock { s with arg0 := BitVec.ofNat 64 m } = .next t) : ∃ ys, BlockDone m s ys t := by
  have hvalue : u64 (BitVec.ofNat 64 m) = m := hinv.u64_ofNat hready.prepared hm
  have hinv' : Inv { s with arg0 := BitVec.ofNat 64 m } :=
    hinv.ports (BitVec.ofNat 64 m) s.arg1 s.arg2 s.arg3 s.result s.readData s.pending
  have hready' : Ready { s with arg0 := BitVec.ofNat 64 m } .processBlock := hready.transfer rfl rfl rfl
  rw [exec_processBlock_of_fits hready' (hvalue.trans_le hm), hvalue] at h
  obtain rfl := Host.Outcome.next.inj h
  obtain ⟨_, _, _, _, _, _, hregisters⟩ := sameRegisters_blockResult { s with arg0 := BitVec.ofNat 64 m } m
  refine ⟨_, hinv'.blockResult hready.prepared hm, hready.transfer ?_ ?_ rfl, ?_,
    (blockResult_runs hinv'.graphOk m).congr_start rfl ⟨rfl, rfl, rfl, rfl⟩,
    fun i y => memRead_blockResult hinv'.outbuf.canonical⟩ <;> rw [hregisters]

/-- Settles O56: the runs of the two blocks join to the run of the one. -/
theorem blockSizeDoesNotMatter : Obligations.BlockSizeDoesNotMatter := by
  intro s s1 s2 t m n hinv hready hfits hfirst hsecond hwhole
  obtain ⟨ys, hfirst⟩ := exec_processBlock_done hinv hready (by omega) hfirst
  obtain ⟨zs, hsecond⟩ := exec_processBlock_done hfirst.inv hfirst.ready (by rw [hfirst.maxBlk]; omega) hsecond
  obtain ⟨ws, hwhole⟩ := exec_processBlock_done hinv hready hfits hwhole
  have hys : ys.length = m := hfirst.runs.length
  have hzs : zs.length = n := hsecond.runs.length
  obtain ⟨rfl, hunits⟩ : ys ++ zs = ws ∧ SameUnits s2 t := (hfirst.runs.append hsecond.runs).unique hwhole.runs
  have hfmt : s1.params.fmt = s.params.fmt := congrArg Params.fmt hfirst.runs.others.params
  refine ⟨hunits, fun i hi => ?_, fun i hi => ?_⟩
  · have hy : ys[i]? = some (ys[i]'(hys.symm ▸ hi)) := List.getElem?_eq_getElem _
    rw [hfirst.outbuf i _ hy, hwhole.outbuf i _ ((List.getElem?_append_left (hys.symm ▸ hi)).trans hy)]
  · have hz : zs[i]? = some (zs[i]'(hzs.symm ▸ hi)) := List.getElem?_eq_getElem _
    have hw : (ys ++ zs)[m + i]? = zs[i]? := by rw [List.getElem?_append_right (by omega), hys, Nat.add_sub_cancel_left]
    rw [hsecond.outbuf i _ hz, hwhole.outbuf (m + i) _ (hw.trans hz), hfmt]

end Sys2Proof.Machine
end

section
/-! PROOF. The obligations on exceptions: the codes, the error entry, the fault gate and the ways out of a fault
(60_exceptions.md R240 to R250). -/

namespace Sys2Proof.Machine

open Sys2Proof

/-- Settles O13: the fault gate stands before the execution of a word, and the operand registers are not behind it. -/
theorem faultedCoreIgnoresCommands : Obligations.FaultedCoreIgnoresCommands :=
  fun _ hfault => ⟨fun _ hw => execute_of_fault hfault hw, fun _ => ⟨rfl, rfl, rfl, rfl⟩⟩

/-- Settles O16: a word that leaves a fault either met one and did nothing, or made the error entry. -/
theorem errorEntryRecordsTheFirstError : Obligations.ErrorEntryRecordsTheFirstError := by
  intro w s t h hfaulted
  cases execute_executesWord h with
  | unchanged hword ht =>
    subst ht
    have hw : w ≠ 0x01000000#32 := mt decodeWord_eq_prepare_iff.2 hword
    exact ⟨fun hnone => by simp [hnone] at hfaulted, fun _ => ⟨rfl, rfl, rfl, by simp [hw]⟩⟩
  | @error e _ hcode ht =>
    subst ht
    have hprepared : (errorEntry e w (decide (w = 0x01000000#32)) s).status.prepared =
        (s.status.prepared && !decide (w = 0x01000000#32)) := by
      by_cases hw : w = 0x01000000#32 <;> simp [hw]
    exact ⟨fun hnone => ⟨by simp [hnone], by simpa [hnone] using hcode.1, hprepared⟩,
      fun hfault => ⟨by simp [hfault], by simp [hfault], by simp [hfault], hprepared⟩⟩
  | effect hgate hword heff => simp [heff.fault_eq_false hword hgate] at hfaulted

/-! The ways out of a fault (60_exceptions.md R248). -/

theorem eq_cmdAddr_of_hostWord {p : Params} {a : Addr} (h : hostWord p a = some .cmd) : a = cmdAddr :=
  BitVec.eq_of_toNat_eq (address_of_hostWord h).symm

/-- The PREPARE word is the only word that clears a fault. -/
theorem execute_clears_fault {w : CmdWord} {s t : State} (h : execute w s = .next t) (hfault : s.status.fault = true)
    (hclear : t.status.fault = false) : w = 0x01000000#32 := by
  by_contra hw
  obtain ⟨hstatus, -⟩ := (successWritesNoFlags w s t h hclear).1 hw
  simp [hstatus, hfault] at hclear

/-- Of the words the host can write, `CMD` is the only one through which a fault is cleared. -/
theorem hostWrite_clears_fault {a : Addr} {v : Word} {s t : State} (h : hostWrite a v s = .next t)
    (hfault : s.status.fault = true) (hclear : t.status.fault = false) :
    a = cmdAddr ∧ execute (commandWord v) s = .next t := by
  rcases hostWrite_next h with ⟨hcmd, hexec⟩ | ⟨-, rfl⟩ | ⟨-, rfl⟩ | ⟨-, rfl⟩ | ⟨-, rfl⟩ | rfl
  · exact ⟨eq_cmdAddr_of_hostWord hcmd, hexec⟩
  all_goals simp [hfault] at hclear

/-- Settles O18: of the events a step takes, only a write to `CMD` and a reset touch the flag, and of the words only PREPARE. -/
theorem onlyPrepareOrResetClearsFault : Obligations.OnlyPrepareOrResetClearsFault := by
  intro s t h hfault hclear
  rcases step_next h with ⟨-, rfl⟩ | ⟨e, rest, hpending, h⟩
  · simp [hfault] at hclear
  · rcases takeEvent_next h with ⟨a, v, rfl, h⟩ | ⟨a, -, h⟩ | ⟨rfl, -⟩
    · obtain ⟨rfl, hexec⟩ := hostWrite_clears_fault h hfault hclear
      have hword : commandWord v = 0x01000000#32 := execute_clears_fault hexec hfault hclear
      obtain ⟨hstatus, herrCmd⟩ := (successWritesNoFlags _ _ t hexec hclear).2 hword
      exact .inr ⟨v, rest, hpending, hword, by rw [hstatus], by rw [hstatus], by rw [hstatus], herrCmd⟩
    · obtain ⟨r, -, rfl⟩ := hostRead_next h
      simp [hfault] at hclear
    · exact .inl ⟨rest, hpending⟩

/-- Settles O23: the table's bytes, and bit 7 of each. -/
theorem errorCodesAndClasses : Obligations.ErrorCodesAndClasses :=
  ⟨rfl, fun c => by cases c <;> decide⟩

end Sys2Proof.Machine
end
